-- ==== Sys2Proof/Word.lean ====
section
/-! DEFINITION. The word types of the link core: bytes, the 16-bit CRC word, and one bit as a Bool (00_scope.md R10). -/

namespace Sys2Proof

/-- A byte is 8 bits (R10). -/
abbrev Byte := BitVec 8

/-- The width of `crc_r`, of `val` and of the CRC field (R19, R29, R49). -/
abbrev Word16 := BitVec 16

/-- A Message: a byte sequence, byte 0 first (R13, R50). -/
abbrev Message := List Byte

end Sys2Proof
end

