-- ==== Sys2Proof/Config.lean ====
section
/-! DEFINITION. What is fixed when the block is built (00_scope.md R7): the constants of the source, the open
parameters, the input ports, and the free values, which have no body. -/

namespace Sys2Proof

/-- The input ports of the block in one step (10_state.md R17) and those of the stand-alone CRC-16 generator (R18).
`clk` is the step itself. -/
structure PortInputs where
  /-- `rst`, synchronous, active high (R164). -/
  rst : Bool
  /-- `rx_in`, the receive line level. -/
  rxIn : Bool
  /-- `tx_valid`: the host offers a Message. -/
  txValid : Bool
  /-- `tx_len`: byte count of the offered Message. -/
  txLen : Byte
  /-- `tx_data`: the bytes the host drives, byte 0 first; a byte past the list is not driven (log 7). -/
  txData : List Byte
  /-- `rx_ready`: the host accepts the waiting Message this step. -/
  rxReady : Bool
  /-- `crc_op` of the stand-alone generator (R75). -/
  crcOp : BitVec 2
  /-- `crc_din` of the stand-alone generator. -/
  crcDin : Byte
deriving DecidableEq, Repr, Inhabited

/-- The parameters a model takes as arguments (R7, 92_eei_decisions.md D34). They are fixed when the block is built
(R15): State holds them in a field that no step writes. -/
structure Params where
  /-- `TX_HALF`: steps per half-bit sent. -/
  txHalf : Nat
  /-- `TX_GAP`: idle-low steps after each frame. -/
  txGap : Nat
  /-- `OFFSET_DIV`: divisor of the half-period giving the sampling offset. -/
  offsetDiv : Nat
  /-- `OFFSET_CAP`: cap of the sampling offset. -/
  offsetCap : Nat
  /-- `TIMING_CORR`: signed correction subtracted from the sample spacing. -/
  timingCorr : Int
  /-- `REARM_K`: bit periods of edge-free line before the CRU re-arms. -/
  rearmK : Nat
  /-- `CRC_POLY`, x^16 implicit. -/
  crcPoly : Word16
  /-- `CRC_INIT`. -/
  crcInit : Word16
  /-- `CRC_XOROUT`. -/
  crcXorout : Word16
  /-- `CNT_W`: width of the counters. -/
  cntW : Nat
deriving DecidableEq, Repr, Inhabited

/-- The default column of R7. -/
def Params.default : Params where
  txHalf := 10
  txGap := 80
  offsetDiv := 10
  offsetCap := 1
  timingCorr := 0
  rearmK := 2
  crcPoly := 0x1021
  crcInit := 0xFFFF
  crcXorout := 0x0000
  cntW := 32

/-- The constraints of D34, `OFFSET_CAP = 1` (R101), and (DEDUCED, log 4) that the two loaded durations fit the
`CNT_W`-bit counters `hcnt` and `gcnt` that hold them (R38). -/
abbrev Params.wf (p : Params) : Prop :=
  1 ≤ p.txHalf ∧ 1 ≤ p.offsetDiv ∧ 8 ≤ p.cntW ∧ p.offsetCap = 1 ∧
    p.txHalf < 2 ^ p.cntW ∧ p.txGap < 2 ^ p.cntW

namespace Config

/-- `PREAMBLE` (R7). -/
def preamble : Byte := 0x55

/-- `START_FLAG` (R7). -/
def startFlag : Byte := 0x7E

/-- `END_FLAG` (R7). -/
def endFlag : Byte := 0x7E

/-- `TYPE_TX` (R7). -/
def typeTx : Byte := 0x00

/-- `SYNC_EDGES` (R7). -/
def syncEdges : Nat := 8

/-- `SYNC_INTERVALS` (R7). -/
def syncIntervals : Nat := 7

/-- `MAX_MSG_LEN` (R7). -/
def maxMsgLen : Nat := 80

/-- `RX_BUF_LEN` (R7): bytes of `buf` (R32). -/
def rxBufLen : Nat := 255

/-- Bytes of `fbuf`: `7 + MAX_MSG_LEN` (R36). -/
def txBufLen : Nat := 87

/-- `QUEUE_DEPTH` (R7, R143), of each host-side queue. -/
def queueDepth : Nat := 16

/-- FREE VALUE (log 1): what the environment drives on the input ports in step `n` when State lists nothing for it. -/
opaque freeInputs : Nat → PortInputs

/-- FREE VALUE (log 5, R46): byte `i` of `buf` after reset number `epoch`, until it is written. -/
opaque freeBuf : (epoch i : Nat) → Byte

/-- FREE VALUE (log 5, R47): byte `i` of `fbuf` after reset number `epoch`, until it is written. -/
opaque freeFbuf : (epoch i : Nat) → Byte

/-- FREE VALUE (log 6, R46): what `rx_data` shows in step `n` at an index that holds no byte of a waiting Message. -/
opaque freeRxData : (n i : Nat) → Byte

/-- FREE VALUE (log 7): byte `i` of `tx_data` in step `n` when the host does not drive it. -/
opaque freeTxData : (n i : Nat) → Byte

/-- FREE VALUE (log 8): the `spacing` written in step `n` when the value of R102 does not fit `CNT_W` bits. -/
opaque freeSpacing : (n : Nat) → Nat

end Config

end Sys2Proof
end

