-- ==== Sys2Proof/Syntax.lean ====
section
/-! DEFINITION. The operations of the link core: one constructor for each row of spec/opcode_table.json (30_encoding.md
R77), and the five formats they are written in. -/

namespace Sys2Proof

/-- The direction of a line symbol or frame field: driven by the encoder, or read by the decoder. -/
inductive Dir where
  | tx
  | rx
deriving DecidableEq, Repr

/-- The frame fields, in the order of R69. -/
inductive Field where
  | preamble
  | startFlag
  | typeFlags
  | lengthByte
  | payloadByte
  | crcHi
  | crcLo
  | endFlag
deriving DecidableEq, Repr

/-- One constructor per row of the opcode table. -/
inductive Instr where
  /-- SYM1 (R66). -/
  | sym1 (d : Dir)
  /-- SYM0 (R66). -/
  | sym0 (d : Dir)
  /-- PREAMBLE (R104): the byte `0x55` sent; on reception its edges, its value is not compared. -/
  | preamble (d : Dir)
  /-- START_FLAG (R115). -/
  | startFlag (d : Dir) (v : Byte)
  /-- TYPE_FLAGS (R116). -/
  | typeFlags (d : Dir) (v : Byte)
  /-- LENGTH (R117). -/
  | lengthByte (d : Dir) (v : Byte)
  /-- PAYLOAD_BYTE (R119). -/
  | payloadByte (d : Dir) (v : Byte)
  /-- CRC_HI (R120). -/
  | crcHi (d : Dir) (v : Byte)
  /-- CRC_LO (R120). -/
  | crcLo (d : Dir) (v : Byte)
  /-- END_FLAG (R121). -/
  | endFlag (d : Dir) (v : Byte)
  /-- CRC_NOP (R88). -/
  | crcNop
  /-- CRC_INIT (R89). -/
  | crcInit
  /-- CRC_UPDATE (R90) of `crc_din`. -/
  | crcUpdate (din : Byte)
  /-- CRC_RESERVED (R91). -/
  | crcReserved
  /-- SEND (R132, R133): `tx_len` and the `tx_len` bytes of `tx_data`. -/
  | send (len : Byte) (data : List Byte)
  /-- RECEIVE (R124). -/
  | receive
deriving DecidableEq, Repr

/-- Where a word is read: the formats of 30_encoding.md. The block knows the format from the unit that reads the word
and, for a frame byte, from its position (R52); no bit of the word says it. -/
inductive Slot where
  /-- A line symbol, two half-levels (R66). -/
  | symbol (d : Dir)
  /-- A frame byte at the position of `f` (R69). -/
  | frame (d : Dir) (f : Field)
  /-- `crc_op` and `crc_din` (R75). -/
  | crcPort
  /-- `tx_valid`, `tx_ready`, `tx_len` and `tx_data` (R74). -/
  | txPort
  /-- `rx_valid` and `rx_ready` (R74). -/
  | rxPort
deriving DecidableEq, Repr

/-- Why a word is no operation in its slot. -/
inductive Reject where
  /-- The word ends before its operand does. -/
  | tooShort
  /-- A bit above the format's own bits is set. -/
  | strayBits
  /-- `00` or `11` where the encoder drives a symbol: it never produces one (R67). -/
  | manchesterViolation
  /-- A frame byte the encoder never sends at this position (R69). -/
  | notSent
  /-- Valid and ready are not both 1: the step moves nothing (R74). -/
  | noTransaction
deriving DecidableEq, Repr

end Sys2Proof
end

