-- ==== Sys2Proof/WellFormed.lean ====
section
/-! DEFINITION. Which terms of `Instr` are operations of the block (30_encoding.md R69, R74, R78). -/

namespace Sys2Proof

/-- A received field may hold any byte (R73, R78); a sent flag or type byte holds its constant, a sent length byte is at
most `MAX_MSG_LEN` (R69), and a SEND carries exactly `tx_len` bytes (R74). -/
def Instr.wellFormed : Instr → Bool
  | .sym1 _ => true
  | .sym0 _ => true
  | .preamble _ => true
  | .startFlag .tx v => v == Config.startFlag
  | .startFlag .rx _ => true
  | .typeFlags .tx v => v == Config.typeTx
  | .typeFlags .rx _ => true
  | .lengthByte .tx v => decide (v.toNat ≤ Config.maxMsgLen)
  | .lengthByte .rx _ => true
  | .payloadByte _ _ => true
  | .crcHi _ _ => true
  | .crcLo _ _ => true
  | .endFlag .tx v => v == Config.endFlag
  | .endFlag .rx _ => true
  | .crcNop => true
  | .crcInit => true
  | .crcUpdate _ => true
  | .crcReserved => true
  | .send len data => data.length == len.toNat
  | .receive => true

end Sys2Proof
end

