-- ==== Sys2Proof/Decode.lean ====
section
/-! DEFINITION. Decoding, total on every slot and every byte sequence, rejecting by name; then the encoder, written from
the same formats (30_encoding.md R66, R69, R74, R75); then the host's reading of a bare table word. -/

namespace Sys2Proof

/-- A line symbol: bit 1 is the first half-level and bit 0 the second (R66). On reception only the first half is read,
so the violations `11` and `00` read as 1 and 0 (R67, log 14). -/
def decodeSymbol : Dir → Byte → Except Reject Instr
  | d, b =>
    if b = 0b10 then .ok (.sym1 d)
    else if b = 0b01 then .ok (.sym0 d)
    else if b = 0b11 then
      match d with
      | .rx => .ok (.sym1 .rx)
      | .tx => .error .manchesterViolation
    else if b = 0b00 then
      match d with
      | .rx => .ok (.sym0 .rx)
      | .tx => .error .manchesterViolation
    else .error .strayBits

/-- A frame byte at a known position (R69). The decoder takes any byte at every position (R73, R78, R104); the encoder
sends only the values of R69. -/
def decodeFrameByte : Dir → Field → Byte → Except Reject Instr
  | .rx, .preamble, _ => .ok (.preamble .rx)
  | .tx, .preamble, b => if b = Config.preamble then .ok (.preamble .tx) else .error .notSent
  | .rx, .startFlag, b => .ok (.startFlag .rx b)
  | .tx, .startFlag, b => if b = Config.startFlag then .ok (.startFlag .tx b) else .error .notSent
  | .rx, .typeFlags, b => .ok (.typeFlags .rx b)
  | .tx, .typeFlags, b => if b = Config.typeTx then .ok (.typeFlags .tx b) else .error .notSent
  | .rx, .lengthByte, b => .ok (.lengthByte .rx b)
  | .tx, .lengthByte, b =>
    if b.toNat ≤ Config.maxMsgLen then .ok (.lengthByte .tx b) else .error .notSent
  | d, .payloadByte, b => .ok (.payloadByte d b)
  | d, .crcHi, b => .ok (.crcHi d b)
  | d, .crcLo, b => .ok (.crcLo d b)
  | .rx, .endFlag, b => .ok (.endFlag .rx b)
  | .tx, .endFlag, b => if b = Config.endFlag then .ok (.endFlag .tx b) else .error .notSent

/-- The operation code of the stand-alone generator (R75); `crc_din` is ignored but for CRC_UPDATE. -/
def decodeCrcOp (op din : Byte) : Except Reject Instr :=
  if op = 0b00 then .ok .crcNop
  else if op = 0b01 then .ok .crcInit
  else if op = 0b10 then .ok (.crcUpdate din)
  else if op = 0b11 then .ok .crcReserved
  else .error .strayBits

/-- The handshake byte of a port: bit 1 is valid, bit 0 is ready (R74). -/
def decodeHandshake (b : Byte) : Except Reject Unit :=
  if b = 0b11 then .ok ()
  else if b.toNat < 4 then .error .noTransaction
  else .error .strayBits

/-- The operation a slot's word stands for, and the bytes after it. The layouts of the port words are the model's own
(log 22). -/
def decode : Slot → List Byte → Except Reject (Instr × List Byte)
  | .symbol d, b :: rest =>
    match decodeSymbol d b with
    | .ok i => .ok (i, rest)
    | .error e => .error e
  | .frame d f, b :: rest =>
    match decodeFrameByte d f b with
    | .ok i => .ok (i, rest)
    | .error e => .error e
  | .crcPort, op :: din :: rest =>
    match decodeCrcOp op din with
    | .ok i => .ok (i, rest)
    | .error e => .error e
  | .txPort, hs :: len :: rest =>
    match decodeHandshake hs with
    | .error e => .error e
    | .ok _ =>
      if len.toNat ≤ rest.length then
        .ok (.send len (rest.take len.toNat), rest.drop len.toNat)
      else .error .tooShort
  | .rxPort, hs :: rest =>
    match decodeHandshake hs with
    | .ok _ => .ok (.receive, rest)
    | .error e => .error e
  | _, _ => .error .tooShort

/-- The slot whose format an operation is written in. -/
def Instr.slot : Instr → Slot
  | .sym1 d => .symbol d
  | .sym0 d => .symbol d
  | .preamble d => .frame d .preamble
  | .startFlag d _ => .frame d .startFlag
  | .typeFlags d _ => .frame d .typeFlags
  | .lengthByte d _ => .frame d .lengthByte
  | .payloadByte d _ => .frame d .payloadByte
  | .crcHi d _ => .frame d .crcHi
  | .crcLo d _ => .frame d .crcLo
  | .endFlag d _ => .frame d .endFlag
  | .crcNop => .crcPort
  | .crcInit => .crcPort
  | .crcUpdate _ => .crcPort
  | .crcReserved => .crcPort
  | .send _ _ => .txPort
  | .receive => .rxPort

/-- The word of an operation. An ignored `crc_din` is written 0. -/
def encode : Instr → List Byte
  | .sym1 _ => [0b10]
  | .sym0 _ => [0b01]
  | .preamble _ => [Config.preamble]
  | .startFlag _ v => [v]
  | .typeFlags _ v => [v]
  | .lengthByte _ v => [v]
  | .payloadByte _ v => [v]
  | .crcHi _ v => [v]
  | .crcLo _ v => [v]
  | .endFlag _ v => [v]
  | .crcNop => [0b00, 0]
  | .crcInit => [0b01, 0]
  | .crcUpdate din => [0b10, din]
  | .crcReserved => [0b11, 0]
  | .send len data => 0b11 :: len :: data
  | .receive => [0b11]

/-- The slot a bare table word is read in (log 3). The table numbers the words of five formats alike and no bit tells
them apart. Of them only `crc_op` is an operation code (R75), so the words 0 to 3 are read as one; any other byte is a
frame byte, the preamble or the start flag by its value (R77), else a payload byte. -/
def tableSlot (w : Nat) : Slot :=
  if w % 256 < 4 then .crcPort
  else if w % 256 = 0x55 then .frame .rx .preamble
  else if w % 256 = 0x7E then .frame .rx .startFlag
  else .frame .rx .payloadByte

/-- The bytes of a table word, bits 7..0 first: two bytes are the longest word of a bare table row (`crc_op` and
`crc_din`). -/
def tableBytes (w : Nat) : List Byte :=
  [BitVec.ofNat 8 w, BitVec.ofNat 8 (w / 256)]

/-- The operation this decoder reads from an opcode-table word of `nbits` bits. -/
def decodeTableWord (nbits w : Nat) : Option Instr :=
  if w < 2 ^ nbits ∧ w < 2 ^ 16 then
    match decode (tableSlot w) (tableBytes w) with
    | .ok (i, _) => some i
    | .error _ => none
  else none

end Sys2Proof
end

