-- ==== Sys2Proof/Machine/State.lean ====
section
/-! DEFINITION. The state of the link core and of the stand-alone CRC-16 generator (10_state.md), as plain data; its
reset (R43); the two ways a step can stop. -/

namespace Sys2Proof.Machine

/-- A byte array: cells (index, byte) in strictly rising index order. An index that is not listed holds no value of the
array's own; what reading it gives is said where it is read (log 5). -/
abbrev Memory := List Host.Cell

/-- The canonical form: indexes strictly rising, all below `size`. No cell can equal what an unlisted index reads as,
since that is no value. -/
def Memory.wf (size : Nat) : Memory → Bool
  | [] => true
  | [(a, _)] => decide (a < size)
  | (a, _) :: (b, v) :: rest => decide (a < b) && Memory.wf size ((b, v) :: rest)

/-- The seven decoder states (R28). -/
inductive DecState where
  | awaitingPreamble
  | awaitingStart
  | readingHeaderType
  | readingHeaderLength
  | readingPayload
  | readingCrc
  | awaitingEnd
deriving DecidableEq, Repr

/-- The three encoder states (R35). -/
inductive EncState where
  | idle
  | send
  | gap
deriving DecidableEq, Repr

/-- The clock-recovery registers (R20 to R26). The `CNT_W`-bit registers are naturals kept in range by the rules and by
`State.Inv` (log 8). -/
structure Cru where
  /-- `rx_prev` (R20). -/
  rxPrev : Bool
  /-- `armed` (R21). -/
  armed : Bool
  /-- `edge_cnt` (R22). -/
  edgeCnt : BitVec 4
  /-- `ivl` (R23). -/
  ivl : Nat
  /-- `sum` (R24). -/
  sum : Nat
  /-- `quiet` (R25). -/
  quiet : Nat
  /-- `last_period` (R26). -/
  lastPeriod : Nat
deriving DecidableEq, Repr

/-- The bit-timing estimate and the frame-decoder registers (R27 to R34). -/
structure Dec where
  /-- `period` (R27). -/
  period : Nat
  /-- `half` (R27). -/
  half : Nat
  /-- `offset` (R27). -/
  offset : Nat
  /-- `spacing` (R27). -/
  spacing : Nat
  /-- `wait` (R27). -/
  wait : Nat
  /-- `dec_state` (R28). -/
  state : DecState
  /-- `val` (R29). -/
  val : Word16
  /-- `bit_cnt` (R30). -/
  bitCnt : BitVec 5
  /-- `type_r` (R31). -/
  typeR : Byte
  /-- `len_r` (R31). -/
  lenR : Byte
  /-- `idx` (R32). -/
  idx : Byte
  /-- `buf` (R32). -/
  buf : Memory
  /-- `deliver_pend` (R33). -/
  deliverPend : Bool
  /-- `rx_stat` (R34). -/
  rxStat : BitVec 3
deriving DecidableEq, Repr

/-- The frame-encoder registers (R35 to R40). -/
structure Enc where
  /-- `enc_state` (R35). -/
  state : EncState
  /-- `fbuf` (R36). -/
  fbuf : Memory
  /-- `flen` (R36). -/
  flen : BitVec 7
  /-- `pos` (R37). -/
  pos : BitVec 7
  /-- `bitn` (R37). -/
  bitn : BitVec 3
  /-- `hf` (R37). -/
  hf : Bool
  /-- `hcnt` (R38). -/
  hcnt : Nat
  /-- `gcnt` (R38). -/
  gcnt : Nat
  /-- `tx_line` (R39). -/
  txLine : Bool
  /-- `tx_stat` (R40). -/
  txStat : BitVec 2
deriving DecidableEq, Repr

/-- Everything the spec gives the machine, and four fields of the model's own. -/
structure State where
  /-- The build-time parameters (R7); no step writes them (R15). -/
  par : Params
  /-- `crc_r` of the stand-alone generator (R19). -/
  crcR : Word16
  /-- The clock-recovery engine. -/
  cru : Cru
  /-- The frame decoder with its timing estimate. -/
  dec : Dec
  /-- The frame encoder. -/
  enc : Enc
  /-- The model's own: what the environment drives in the coming steps, the next step's first (log 1). -/
  inputs : List PortInputs
  /-- The model's own: steps taken; the index of the free values (log 1). -/
  stepIx : Nat
  /-- The model's own: resets taken; the index of the unspecified contents of `buf` and `fbuf` (log 5). -/
  epoch : Nat
  /-- The model's own: the Messages that have left through the RX port, oldest first (R74, log 10). -/
  taken : List Message
deriving DecidableEq, Repr

/-- The CRU registers after reset (R43). -/
def Cru.reset : Cru where
  rxPrev := false
  armed := true
  edgeCnt := 0
  ivl := 1
  sum := 0
  quiet := 0
  lastPeriod := 0

/-- The decoder registers after reset (R43); `buf` is unspecified, so nothing is listed. -/
def Dec.reset : Dec where
  period := 0
  half := 0
  offset := 0
  spacing := 0
  wait := 0
  state := .awaitingPreamble
  val := 0
  bitCnt := 0
  typeR := 0
  lenR := 0
  idx := 0
  buf := []
  deliverPend := false
  rxStat := 0

/-- The encoder registers after reset (R43); `fbuf` is unspecified, so nothing is listed. -/
def Enc.reset : Enc where
  state := .idle
  fbuf := []
  flen := 0
  pos := 0
  bitn := 0
  hf := false
  hcnt := 0
  gcnt := 0
  txLine := false
  txStat := 0

/-- The state right after reset of a block built with parameters `p` (R43). -/
def State.resetWith (p : Params) : State where
  par := p
  crcR := p.crcInit
  cru := Cru.reset
  dec := Dec.reset
  enc := Enc.reset
  inputs := []
  stepIx := 0
  epoch := 0
  taken := []

/-- The machine right after reset, built with the default parameters of R7. -/
def State.reset : State := State.resetWith Params.default

/-- Why a step stops. Neither is reached from the reset state; both are safe: the hardware has no such byte. -/
inductive Fault where
  /-- `MemWrite` to `buf` at an index past its 255 bytes (R32, R119; log 9). Raised by PAYLOAD_BYTE on reception. Safe. -/
  | bufIndex
  /-- A read of `fbuf` at an index past its 87 bytes (R36, R135; log 9). Raised by the serializer. Safe. -/
  | fbufIndex
deriving DecidableEq, Repr

/-- Why an operation has no meaning. -/
inductive Refusal where
  /-- Raised by exec for an operation that has no meaning yet. Safe. -/
  | notModelled (mnemonic : String)
deriving DecidableEq, Repr

/-- How a step ends. -/
abbrev Result := Host.Outcome State Fault Refusal

/-! ## Updates of one part of the state -/

/-- Write `crc_r`. -/
def State.setCrcR (s : State) (c : Word16) : State := { s with crcR := c }

/-- Replace the CRU registers. -/
def State.setCru (s : State) (c : Cru) : State := { s with cru := c }

/-- Replace the decoder registers. -/
def State.setDec (s : State) (d : Dec) : State := { s with dec := d }

/-- Replace the encoder registers. -/
def State.setEnc (s : State) (e : Enc) : State := { s with enc := e }

/-- Record a Message taken by the host. -/
def State.addTaken (s : State) (m : Message) : State := { s with taken := s.taken ++ [m] }

/-- Put the port inputs of the coming steps in place. -/
def State.withInputs (s : State) (is : List PortInputs) : State := { s with inputs := is }

end Sys2Proof.Machine
end

