-- ==== Sys2Proof/Machine/Flags.lean ====
section
/-! DEFINITION. The status codes (60_exceptions.md R150, R151), the decoder's errors, and the code points of the state
registers (30_encoding.md R76). The block has no other flags (R41). -/

namespace Sys2Proof.Machine

/-- `rx_status` code 0, NONE (R150). -/
def rxNone : BitVec 3 := 0

/-- `rx_status` code 1, OK (R150). -/
def rxOk : BitVec 3 := 1

/-- `tx_status` code 0, NONE (R151). -/
def txNone : BitVec 2 := 0

/-- `tx_status` code 1, ACCEPTED (R151). -/
def txAccepted : BitVec 2 := 1

/-- `tx_status` code 2, REJECTED_LENGTH (R151). -/
def txRejectedLength : BitVec 2 := 2

/-- What the decoder raises (R149): a FramingError of the start or end flag, or an IntegrityError with the received and
the computed CRC. -/
inductive DecError where
  | framingStart
  | integrity (received computed : Word16)
  | framingEnd
deriving DecidableEq, Repr

/-- The `rx_status` code of an error (R150). No other value is recorded. -/
def DecError.code : DecError → BitVec 3
  | .framingStart => 2
  | .integrity _ _ => 3
  | .framingEnd => 4

/-- The code points of `dec_state` (R76). -/
def DecState.code : DecState → BitVec 3
  | .awaitingPreamble => 0
  | .awaitingStart => 1
  | .readingHeaderType => 2
  | .readingHeaderLength => 3
  | .readingPayload => 4
  | .readingCrc => 5
  | .awaitingEnd => 6

/-- The code points of `enc_state` (R76). -/
def EncState.code : EncState → BitVec 2
  | .idle => 0
  | .send => 1
  | .gap => 2

end Sys2Proof.Machine
end

