-- ==== Sys2Proof/Machine/Ops.lean ====
section
/-! DEFINITION. The operations the meanings share: the byte arrays, the CRC function, the frame of a Message, saturating
counters, arming, and the decoder's abort with its return, the re-arm. -/

namespace Sys2Proof.Machine

/-- Go on with `f` where `o` gives a next state; stop where it stops. -/
def andThen (o : Result) (f : State → Result) : Result :=
  match o with
  | .next s => f s
  | .fault r => .fault r
  | .refused r => .refused r

/-! ## Byte arrays (20_memory.md R45) -/

/-- The listed byte at index `a`. -/
def Memory.get? : Memory → Nat → Option Byte
  | [], _ => none
  | (b, v) :: rest, a => if a = b then some v else Memory.get? rest a

/-- `buf[a] <- v`, keeping the cells in rising order. -/
def Memory.put : Memory → Nat → Byte → Memory
  | [], a, v => [(a, v)]
  | (b, w) :: rest, a, v =>
    if a < b then (a, v) :: (b, w) :: rest
    else if a = b then (a, v) :: rest
    else (b, w) :: Memory.put rest a v

/-- `buf[a..) <- vs`. -/
def Memory.putAll : Memory → Nat → List Byte → Memory
  | m, _, [] => m
  | m, a, v :: vs => Memory.putAll (m.put a v) (a + 1) vs

/-- `MemRead(buf, i)`: an unwritten byte reads as a free value (R46, log 5). -/
def readBuf (s : State) (i : Nat) : Byte :=
  (s.dec.buf.get? i).getD (Config.freeBuf s.epoch i)

/-- `fbuf[i]`, none past its 87 bytes (R36); an unwritten byte reads as a free value (R47, log 5). -/
def readFbuf (s : State) (i : Nat) : Option Byte :=
  if i < Config.txBufLen then some ((s.enc.fbuf.get? i).getD (Config.freeFbuf s.epoch i)) else none

/-- `buf[0..k)`. -/
def bufBytes (s : State) (k : Nat) : List Byte :=
  (List.range k).map (readBuf s)

/-! ## CRC-16 (40_crc16.md) -/

/-- One shift of the CRC register (R82). -/
def crcShift (poly c : Word16) : Word16 :=
  if c.msb then (c <<< 1) ^^^ poly else c <<< 1

/-- `k` shifts of the CRC register. -/
def crcShifts (poly : Word16) : Nat → Word16 → Word16
  | 0, c => c
  | k + 1, c => crcShifts poly k (crcShift poly c)

/-- `crc_step(c, b)`: the body of the loop of R82 for one byte (R86). -/
def crcStep (poly c : Word16) (b : Byte) : Word16 :=
  crcShifts poly 8 (c ^^^ (b.setWidth 16 <<< 8))

/-- `CRC16(s)` (R82). -/
def crc16 (p : Params) (bs : List Byte) : Word16 :=
  bs.foldl (crcStep p.crcPoly) p.crcInit ^^^ p.crcXorout

/-! ## The frame of a Message -/

/-- Bits 15..8 of a word. -/
def hiByte (w : Word16) : Byte := w.extractLsb' 8 8

/-- Bits 7..0 of a word. -/
def loByte (w : Word16) : Byte := w.extractLsb' 0 8

/-- `FRAME(m)` (R131). -/
def frame (p : Params) (m : Message) : List Byte :=
  let n := BitVec.ofNat 8 m.length
  let crc := crc16 p (Config.typeTx :: n :: m)
  [Config.preamble, Config.startFlag, Config.typeTx, n] ++ m ++ [hiByte crc, loByte crc, Config.endFlag]

/-- The position of frame byte `i` of a frame of `flen` bytes (R69). -/
def fieldAt (flen i : Nat) : Field :=
  if i = 0 then .preamble
  else if i = 1 then .startFlag
  else if i = 2 then .typeFlags
  else if i = 3 then .lengthByte
  else if i + 3 = flen then .crcHi
  else if i + 2 = flen then .crcLo
  else if i + 1 = flen then .endFlag
  else .payloadByte

/-! ## Counters -/

/-- `sat_N(x)` (R10). -/
def sat (n x : Nat) : Nat := min x (2 ^ n - 1)

/-- `spacing = max(p - TIMING_CORR, 1)` (R102). Where that does not fit the `CNT_W` bits of the register, which a
negative correction allows and no rule settles, it is a free value of at least 1 that does (log 8). -/
def spacingOf (par : Params) (n p : Nat) : Nat :=
  let x := (max ((p : Int) - par.timingCorr) 1).toNat
  if x < 2 ^ par.cntW then x else 1 + Config.freeSpacing n % (2 ^ par.cntW - 1)

/-! ## Clock recovery (41_clock_recovery.md) -/

/-- EIGHTH(s) (R98 to R103). -/
def eighth (sum : Nat) (s : State) : State :=
  let p := (sum + 3) / 7
  let h := p / 2
  let o := min (h / s.par.offsetDiv) s.par.offsetCap
  (s.setCru { s.cru with sum := sum, edgeCnt := 8, armed := false }).setDec
    { s.dec with
      period := p, half := h, offset := o, spacing := spacingOf s.par s.stepIx p, wait := max (h + o) 1,
      state := .awaitingStart, val := 0, bitCnt := 0 }

/-- The CRU step at an edge (R94, R95), while the CRU runs. -/
def countEdge (s : State) : State :=
  if s.cru.edgeCnt = 0 then s.setCru { s.cru with edgeCnt := 1, ivl := 1 }
  else if s.cru.edgeCnt.toNat + 1 < Config.syncEdges then
    s.setCru { s.cru with sum := s.cru.sum + s.cru.ivl, edgeCnt := s.cru.edgeCnt + 1, ivl := 1 }
  else eighth (s.cru.sum + s.cru.ivl) (s.setCru { s.cru with ivl := 1 })

/-- The CRU step with no edge (R94, R95): nothing is timed before the first edge. -/
def countQuiet (s : State) : State :=
  if 1 ≤ s.cru.edgeCnt.toNat then s.setCru { s.cru with ivl := sat s.par.cntW (s.cru.ivl + 1) } else s

/-- ARM (R106): the return from an abort, 'resume edge callbacks' (R156). -/
def arm (s : State) : State :=
  s.setCru { s.cru with armed := true, edgeCnt := 0, sum := 0, ivl := 1 }

/-- ARM_CHECK(q, pend) (R108), in a state whose `dec_state`, `armed` and `last_period` are those of the next step. -/
def armCheck (q : Nat) (pend : Bool) (s : State) : State :=
  if s.dec.state = .awaitingPreamble ∧ s.cru.armed = false ∧ pend = false ∧ s.par.rearmK * s.cru.lastPeriod ≤ q then
    arm s
  else s

/-- The step of an unarmed CRU (R107, R108); `e` says that the step is an edge and `pend` is `deliver_pend` at the next
step. -/
def quietStep (e pend : Bool) (s : State) : State :=
  let q := if e then 0 else sat s.par.cntW (s.cru.quiet + 1)
  armCheck q pend (s.setCru { s.cru with quiet := q })

/-! ## Ending an attempt (42_frame_decoder.md) -/

/-- TERMINAL(code) (R123): every attempt ends here, the aborts too (R155). `pend` is 1 only for OK (log 12). -/
def terminal (code : BitVec 3) (pend : Bool) (s : State) : State :=
  armCheck 0 pend
    ((s.setCru { s.cru with quiet := 0, lastPeriod := s.dec.period }).setDec
      { s.dec with state := .awaitingPreamble, val := 0, bitCnt := 0, rxStat := code })

/-- `raise E(info)` (R122, R155): the abort, the block's one exception entry. It saves nothing and goes to
`AwaitingPreamble`. -/
def raiseError (e : DecError) (s : State) : State := terminal e.code false s

/-! ## Sending (43_frame_encoder.md) -/

/-- Bit `i` of the stream of a byte, its most significant bit first (R11). -/
def streamBit (b : Byte) (i : Nat) : Bool := b.getLsbD (7 - i)

/-- Begin sending the byte `b` at index `pos` (R132, R135): the first half of its first bit. -/
def beginByte (pos : BitVec 7) (b : Byte) (s : State) : State :=
  s.setEnc { s.enc with pos := pos, bitn := 0, hf := false, hcnt := s.par.txHalf, txLine := streamBit b 0 }

/-- The end of the frame (R135): back to idle low, then the gap if there is one. -/
def endFrame (s : State) : State :=
  if 0 < s.par.txGap then
    s.setEnc { s.enc with hcnt := s.par.txHalf, txLine := false, gcnt := s.par.txGap, state := .gap }
  else s.setEnc { s.enc with hcnt := s.par.txHalf, txLine := false, state := .idle }

/-- GAP state step (R136). -/
def gapStep (s : State) : State :=
  if 1 < s.enc.gcnt then s.setEnc { s.enc with gcnt := s.enc.gcnt - 1 }
  else s.setEnc { s.enc with state := .idle }

/-! ## Reset (70_reset_and_hazards.md) -/

/-- A step with `rst = 1` (R164): every register takes its value of R43. The contents of `buf` and `fbuf` become
unspecified again (log 5); what lies outside the block stays (R167). -/
def resetRegs (s : State) : State :=
  { State.resetWith s.par with
    inputs := s.inputs, stepIx := s.stepIx, epoch := s.epoch + 1, taken := s.taken }

end Sys2Proof.Machine
end

