-- ==== Sys2Proof/Machine/Operands.lean ====
section
/-! DEFINITION. Operands: how the decoder assembles a field from its bits (30_encoding.md R71), the words the ports carry
in a step (R74, R75), and what the output ports show (10_state.md R17, R18). -/

namespace Sys2Proof.Machine

/-! ## Fields -/

/-- `v = ((val << 1) | zext_16(b))[15:0]` (R111). -/
def shiftIn (val : Word16) (b : Bool) : Word16 :=
  (val <<< 1) ||| (BitVec.ofBool b).setWidth 16

/-- The value of a field after a byte `b` of it, the bits before that byte being the value `val` (R71). -/
def fieldWord (val : Word16) (b : Byte) : Word16 := loByte val ++ b

/-- The bits of a byte in send order (R11). -/
def byteBits (b : Byte) : List Bool :=
  (List.range 8).map (streamBit b)

/-- The two half-levels of a bit, the first half first (R66). -/
def halves (b : Bool) : List Bool := [b, !b]

/-- The half-level stream of a byte sequence (R66, R79). -/
def halfLevels (bs : List Byte) : List Bool :=
  (bs.flatMap byteBits).flatMap halves

/-- The symbol a bit is, in a direction (R66). -/
def symbolOf (d : Dir) : Bool → Instr
  | true => .sym1 d
  | false => .sym0 d

/-- The Message on the RX port, `buf[0..len_r)` (R33, R124). -/
def message (s : State) : Message := bufBytes s s.dec.lenR.toNat

/-! ## Input words -/

/-- Byte `i` of `tx_data`; one the host does not drive is a free value (log 7). -/
def txByte (inp : PortInputs) (n i : Nat) : Byte :=
  (inp.txData[i]?).getD (Config.freeTxData n i)

/-- The Message on the TX port, `tx_data[0..tx_len)` (R17). -/
def txBytes (inp : PortInputs) (n : Nat) : Message :=
  (List.range inp.txLen.toNat).map (txByte inp n)

/-- `tx_ready` (R130). -/
def txReady (s : State) : Bool := s.enc.state == .idle

/-- A port's handshake byte: valid then ready (R74, log 22). -/
def handshake (valid ready : Bool) : Byte :=
  (BitVec.ofBool valid ++ BitVec.ofBool ready).setWidth 8

/-- The word on the stand-alone generator's port (R75). -/
def crcWord (inp : PortInputs) : List Byte := [inp.crcOp.setWidth 8, inp.crcDin]

/-- The word on the TX port (R74). -/
def txWord (inp : PortInputs) (s : State) : List Byte :=
  handshake inp.txValid (txReady s) :: inp.txLen :: txBytes inp s.stepIx

/-- The word on the RX port (R74). -/
def rxWord (inp : PortInputs) (s : State) : List Byte :=
  [handshake s.dec.deliverPend inp.rxReady]

/-! ## Output ports -/

/-- `tx_out` (R17, R139). -/
def txOut (s : State) : Bool := s.enc.txLine

/-- `tx_status` (R151). -/
def txStatus (s : State) : BitVec 2 := s.enc.txStat

/-- `rx_valid` (R33). -/
def rxValid (s : State) : Bool := s.dec.deliverPend

/-- `rx_len` (R17). -/
def rxLen (s : State) : Byte := s.dec.lenR

/-- `rx_data[i]`: a byte of the waiting Message, else a free value (R46, log 6). -/
def rxData (s : State) (i : Nat) : Byte :=
  if s.dec.deliverPend ∧ i < s.dec.lenR.toNat then readBuf s i else Config.freeRxData s.stepIx i

/-- `rx_status` (R150). -/
def rxStatus (s : State) : BitVec 3 := s.dec.rxStat

/-- `crc_out` of the stand-alone generator (R92). -/
def crcOut (s : State) : Word16 := s.crcR ^^^ s.par.crcXorout

end Sys2Proof.Machine
end

