-- ==== Sys2Proof/Machine/Crc.lean ====
section
/-! DEFINITION. The operations of the stand-alone CRC-16 generator (40_crc16.md R88 to R91). -/

namespace Sys2Proof.Machine

/-- CRC_NOP (R88): `crc_r` keeps its value. -/
def execCrcNop (s : State) : Result := .next s

/-- CRC_INIT (R89): `crc_r <- CRC_INIT`. -/
def execCrcInit (s : State) : Result := .next (s.setCrcR s.par.crcInit)

/-- CRC_UPDATE (R90): `crc_r <- crc_step(crc_r, crc_din)`. -/
def execCrcUpdate (din : Byte) (s : State) : Result :=
  .next (s.setCrcR (crcStep s.par.crcPoly s.crcR din))

/-- The reserved code (R91): acts as CRC_NOP and raises nothing. -/
def execCrcReserved (s : State) : Result := .next s

end Sys2Proof.Machine
end

