-- ==== Sys2Proof/Machine/Frame.lean ====
section
/-! DEFINITION. The frame fields. On reception: PREAMBLE is one counted edge (41_clock_recovery.md R94, R98), every other
field is the sample that completes it (42_frame_decoder.md R115 to R121), in a state whose `wait` the sampling clock has
written and whose `val` holds the field's bits before this byte. On transmission: the encoder begins that byte (43_frame_encoder.md R132, R135). -/

namespace Sys2Proof.Machine

/-- A completed field clears `val` and `bit_cnt` and goes to `next` (R113). -/
def nextField (next : DecState) (d : Dec) : Dec :=
  { d with val := 0, bitCnt := 0, state := next }

/-- PREAMBLE. `rx`: an edge, counted iff the CRU runs, that is iff it is armed in `AwaitingPreamble` (R94, R153); the
eighth makes the estimate (R98); the byte's value is not read (R97). `tx`: frame byte 0 begins. -/
def execPreamble : Dir → State → Result
  | .rx, s =>
    if s.dec.state = .awaitingPreamble ∧ s.cru.armed = true then .next (countEdge s) else .next s
  | .tx, s => .next (beginByte 0 Config.preamble s)

/-- START_FLAG (R115): any byte but `0x7E` is FramingError(START). -/
def execStartFlag : Dir → Byte → State → Result
  | .rx, v, s =>
    if v = Config.startFlag then .next (s.setDec (nextField .readingHeaderType s.dec))
    else .next (raiseError .framingStart s)
  | .tx, v, s => .next (beginByte (s.enc.pos + 1) v s)

/-- TYPE_FLAGS (R116): any byte is accepted. -/
def execTypeFlags : Dir → Byte → State → Result
  | .rx, v, s => .next (s.setDec { nextField .readingHeaderLength s.dec with typeR := v })
  | .tx, v, s => .next (beginByte (s.enc.pos + 1) v s)

/-- LENGTH (R117): any length is accepted; length 0 goes straight to the CRC (R118). -/
def execLengthByte : Dir → Byte → State → Result
  | .rx, v, s =>
    .next (s.setDec
      { nextField (if v = 0 then .readingCrc else .readingPayload) s.dec with lenR := v, idx := 0 })
  | .tx, v, s => .next (beginByte (s.enc.pos + 1) v s)

/-- PAYLOAD_BYTE (R119): `MemWrite(buf, idx, v)`; the last one goes to the CRC. An index past `buf` faults (log 9). -/
def execPayloadByte : Dir → Byte → State → Result
  | .rx, v, s =>
    if s.dec.idx.toNat < Config.rxBufLen then
      .next (s.setDec
        { nextField (if s.dec.idx.toNat + 1 = s.dec.lenR.toNat then .readingCrc else s.dec.state) s.dec with
          buf := s.dec.buf.put s.dec.idx.toNat v, idx := s.dec.idx + 1 })
    else .fault .bufIndex
  | .tx, v, s => .next (beginByte (s.enc.pos + 1) v s)

/-- CRC_HI (R120): the first eight of the sixteen CRC bits; they stay in `val` (log 18). -/
def execCrcHi : Dir → Byte → State → Result
  | .rx, v, s => .next (s.setDec { s.dec with val := fieldWord s.dec.val v, bitCnt := 8 })
  | .tx, v, s => .next (beginByte (s.enc.pos + 1) v s)

/-- CRC_LO (R120): the sixteen bits against `CRC16([type_r, len_r] ++ buf[0..len_r))`. -/
def execCrcLo : Dir → Byte → State → Result
  | .rx, v, s =>
    let received := fieldWord s.dec.val v
    let computed := crc16 s.par (s.dec.typeR :: s.dec.lenR :: message s)
    if received = computed then .next (s.setDec (nextField .awaitingEnd s.dec))
    else .next (raiseError (.integrity received computed) s)
  | .tx, v, s => .next (beginByte (s.enc.pos + 1) v s)

/-- END_FLAG (R121): `0x7E` delivers the Message; any other byte is FramingError(END) and discards it. -/
def execEndFlag : Dir → Byte → State → Result
  | .rx, v, s =>
    if v = Config.endFlag then .next (terminal rxOk true (s.setDec { s.dec with deliverPend := true }))
    else .next (raiseError .framingEnd s)
  | .tx, v, s => .next (beginByte (s.enc.pos + 1) v s)

end Sys2Proof.Machine
end

