-- ==== Sys2Proof/Machine/Line.lean ====
section
/-! DEFINITION. The line symbols (30_encoding.md R66, R67): on transmission one step of the serializer (43_frame_encoder.md
R134, R135), on reception one step of the sampling clock (42_frame_decoder.md R111 to R113). -/

namespace Sys2Proof.Machine

/-! ## Transmission -/

/-- Begin the frame byte at position `f` (R135, third branch). -/
def beginField (f : Field) (v : Byte) (s : State) : Result :=
  match f with
  | .preamble => execPreamble .tx s
  | .startFlag => execStartFlag .tx v s
  | .typeFlags => execTypeFlags .tx v s
  | .lengthByte => execLengthByte .tx v s
  | .payloadByte => execPayloadByte .tx v s
  | .crcHi => execCrcHi .tx v s
  | .crcLo => execCrcLo .tx v s
  | .endFlag => execEndFlag .tx v s

/-- The last step of a bit cell (R135): the next bit, the next byte or the end of the frame. -/
def endCell (s : State) : Result :=
  let i := s.enc.pos.toNat
  if s.enc.bitn.toNat < 7 then
    match readFbuf s i with
    | none => .fault .fbufIndex
    | some w =>
      .next (s.setEnc { s.enc with
        hcnt := s.par.txHalf, bitn := s.enc.bitn + 1, hf := false, txLine := streamBit w (s.enc.bitn.toNat + 1) })
  else if i + 1 < s.enc.flen.toNat then
    match readFbuf s (i + 1) with
    | none => .fault .fbufIndex
    | some w => beginField (fieldAt s.enc.flen.toNat (i + 1)) w s
  else .next (endFrame s)

/-- SEND state step (R135) while the bit `b` is on the line: hold the half, go to the second half, whose level is the
complement (R134), or end the cell. In `IDLE` and `GAP` the serializer does not run (R129,
log 13). -/
def serialize (b : Bool) (s : State) : Result :=
  if s.enc.state = .send then
    if 1 < s.enc.hcnt then .next (s.setEnc { s.enc with hcnt := s.enc.hcnt - 1 })
    else if s.enc.hf = false then .next (s.setEnc { s.enc with hcnt := s.par.txHalf, hf := true, txLine := !b })
    else endCell s
  else .next s

/-! ## Reception -/

/-- A sample that does not complete its field (R113). -/
def keepBits (v : Word16) (c : Nat) (s : State) : State :=
  s.setDec { s.dec with val := v, bitCnt := BitVec.ofNat 5 c }

/-- The field's bits before its last eight, those of the value `v` above its low byte: what `val` holds where a byte of
the CRC field is executed (log 18). The byte's own eight bits are its operand. -/
def beforeByte (v : Word16) (s : State) : State :=
  s.setDec { s.dec with val := (hiByte v).setWidth 16 }

/-- STATE_RULE(dec_state, v, c) (R111): the field goes on, or its last bit completes it (R115 to R121). -/
def stateRule (v : Word16) (c : Nat) (s : State) : Result :=
  match s.dec.state with
  | .awaitingPreamble => .next s
  | .awaitingStart => if c < 8 then .next (keepBits v c s) else execStartFlag .rx (loByte v) s
  | .readingHeaderType => if c < 8 then .next (keepBits v c s) else execTypeFlags .rx (loByte v) s
  | .readingHeaderLength => if c < 8 then .next (keepBits v c s) else execLengthByte .rx (loByte v) s
  | .readingPayload => if c < 8 then .next (keepBits v c s) else execPayloadByte .rx (loByte v) s
  | .readingCrc =>
    if c = 8 then execCrcHi .rx (loByte v) (beforeByte v s)
    else if c < 16 then .next (keepBits v c s)
    else execCrcLo .rx (loByte v) (beforeByte v s)
  | .awaitingEnd => if c < 8 then .next (keepBits v c s) else execEndFlag .rx (loByte v) s

/-- A sample step (R111, R112): the bit is the level of the line, and the next sample is `spacing` steps away. -/
def sample (b : Bool) (s : State) : Result :=
  stateRule (shiftIn s.dec.val b) (s.dec.bitCnt.toNat + 1) (s.setDec { s.dec with wait := s.dec.spacing })

/-- DEC step (R111) with the line at level `b`. It does not run in `AwaitingPreamble`. -/
def readLevel (b : Bool) (s : State) : Result :=
  if s.dec.state = .awaitingPreamble then .next s
  else if 1 < s.dec.wait then .next (s.setDec { s.dec with wait := s.dec.wait - 1 })
  else sample b s

/-! ## The two symbols -/

/-- SYM1 (R66): high then low. -/
def execSym1 : Dir → State → Result
  | .tx, s => serialize true s
  | .rx, s => readLevel true s

/-- SYM0 (R66): low then high. -/
def execSym0 : Dir → State → Result
  | .tx, s => serialize false s
  | .rx, s => readLevel false s

end Sys2Proof.Machine
end

