-- ==== Sys2Proof/Machine/Port.lean ====
section
/-! DEFINITION. The two port transactions (30_encoding.md R74): SEND (43_frame_encoder.md R132, R133) and RECEIVE
(42_frame_decoder.md R124). -/

namespace Sys2Proof.Machine

/-- ACCEPT (R132): the frame of the Message goes into `fbuf`, and its first half-level onto the line. -/
def accept (m : Message) (s : State) : State :=
  beginByte 0 Config.preamble
    (s.setEnc { s.enc with
      fbuf := s.enc.fbuf.putAll 0 (frame s.par m), flen := BitVec.ofNat 7 (m.length + 7),
      state := .send, txStat := txAccepted })

/-- REJECT (R133): only the status code is written. -/
def reject (s : State) : State := s.setEnc { s.enc with txStat := txRejectedLength }

/-- SEND: accepted up to `MAX_MSG_LEN` bytes (R132), else rejected (R133). While the encoder is not `IDLE`, `tx_ready` is
0 and nothing moves (R74, R130). -/
def execSend (len : Byte) (data : List Byte) (s : State) : Result :=
  if s.enc.state = .idle then
    if len.toNat ≤ Config.maxMsgLen then .next (accept (data.take len.toNat) s) else .next (reject s)
  else .next s

/-- RECEIVE (R124): the Message is taken by the host. With no Message waiting nothing moves (R74). -/
def execReceive (s : State) : Result :=
  if s.dec.deliverPend = true then
    .next ((s.addTaken (message s)).setDec { s.dec with deliverPend := false })
  else .next s

end Sys2Proof.Machine
end

