-- ==== Sys2Proof/Machine/Dispatch.lean ====
section
/-! DEFINITION. One arm per operation of the opcode table. -/

namespace Sys2Proof.Machine

def exec (i : Instr) (s : State) : Host.Outcome State Fault Refusal :=
  match i with
  | .sym1 d => Sys2Proof.Machine.execSym1 d s
  | .sym0 d => Sys2Proof.Machine.execSym0 d s
  | .preamble d => Sys2Proof.Machine.execPreamble d s
  | .startFlag d v => Sys2Proof.Machine.execStartFlag d v s
  | .typeFlags d v => Sys2Proof.Machine.execTypeFlags d v s
  | .lengthByte d v => Sys2Proof.Machine.execLengthByte d v s
  | .payloadByte d v => Sys2Proof.Machine.execPayloadByte d v s
  | .crcHi d v => Sys2Proof.Machine.execCrcHi d v s
  | .crcLo d v => Sys2Proof.Machine.execCrcLo d v s
  | .endFlag d v => Sys2Proof.Machine.execEndFlag d v s
  | .crcNop => Sys2Proof.Machine.execCrcNop s
  | .crcInit => Sys2Proof.Machine.execCrcInit s
  | .crcUpdate din => Sys2Proof.Machine.execCrcUpdate din s
  | .crcReserved => Sys2Proof.Machine.execCrcReserved s
  | .send len data => Sys2Proof.Machine.execSend len data s
  | .receive => Sys2Proof.Machine.execReceive s

end Sys2Proof.Machine
end

