-- ==== Sys2Proof/Machine/Units.lean ====
section
/-! DEFINITION. One clock step (00_scope.md R9, R10): which operation each unit reads in the step, and what the step does
around it. The units share no state (20_memory.md R61), so doing them one after the other is doing them at once. Also
how the host's table word is put where the next step reads it. -/

namespace Sys2Proof.Machine

/-- What the environment drives in the coming step: the first listed inputs, or a free value (log 1). -/
def nextInputs (s : State) : PortInputs :=
  match s.inputs with
  | inp :: _ => inp
  | [] => Config.freeInputs s.stepIx

/-- The step's inputs are used up. -/
def consume (s : State) : State :=
  { s with inputs := s.inputs.tail, stepIx := s.stepIx + 1 }

/-- Run the operation a slot's word stands for; a word that stands for none gives `none`. -/
def fetch (slot : Slot) (word : List Byte) : Option Instr :=
  match decode slot word with
  | .ok (i, _) => some i
  | .error _ => none

/-- The stand-alone generator's step (R75): the operation on its port. -/
def crcSide (inp : PortInputs) (s : State) : Result :=
  match fetch .crcPort (crcWord inp) with
  | some i => exec i s
  | none => .next s

/-- The bit the serializer has on the line, `fbuf[pos][7 - bitn]` (R134). -/
def currentBit (s : State) : Option Bool :=
  (readFbuf s s.enc.pos.toNat).map (fun w => streamBit w s.enc.bitn.toNat)

/-- The serializer's step in `SEND` (R135): the operation is the symbol of the bit on the line. -/
def symbolStep (s : State) : Result :=
  match currentBit s with
  | some b => exec (symbolOf .tx b) s
  | none => .fault .fbufIndex

/-- The transmit side's default write, which a SEND transaction replaces (R129). -/
def txBegin (s : State) : State := s.setEnc { s.enc with txStat := txNone }

/-- The TX port's step in `IDLE` (R129): the SEND it carries, if it carries one. -/
def sendSide (inp : PortInputs) (s : State) : Result :=
  match fetch .txPort (txWord inp s) with
  | some i => exec i s
  | none => .next s

/-- The transmit side's step (R129). -/
def txSide (inp : PortInputs) (s : State) : Result :=
  match s.enc.state with
  | .idle => sendSide inp (txBegin s)
  | .send => symbolStep (txBegin s)
  | .gap => .next (gapStep (txBegin s))

/-- The RECEIVE of a step in `AwaitingPreamble` (R110). -/
def receiveSide (inp : PortInputs) (s : State) : Result :=
  match fetch .rxPort (rxWord inp s) with
  | some i => exec i s
  | none => .next s

/-- The CRU's part of a step in `AwaitingPreamble` (R110); `e` says that the step is an edge. Armed, an edge is the
operation PREAMBLE. -/
def cruSide (e : Bool) (s : State) : Result :=
  if s.cru.armed = true then
    if e = true then exec (.preamble .rx) s else .next (countQuiet s)
  else .next (quietStep e s.dec.deliverPend s)

/-- The receive side's writes of every step: `rx_prev` (R93) and the default of `rx_stat`, which a terminal outcome
replaces (R110). -/
def rxBegin (level : Bool) (s : State) : State :=
  (s.setCru { s.cru with rxPrev := level }).setDec { s.dec with rxStat := rxNone }

/-- The receive side's step (R110). An edge is a step where the line differs from the step before (R93). In the states
that sample, the operation is the symbol read from the line. -/
def rxSide (inp : PortInputs) (s : State) : Result :=
  let e := inp.rxIn != s.cru.rxPrev
  if s.dec.state = .awaitingPreamble then andThen (receiveSide inp (rxBegin inp.rxIn s)) (cruSide e)
  else exec (symbolOf .rx inp.rxIn) (rxBegin inp.rxIn s)

/-- One clock step under given inputs. Reset wins over everything (R164, R154). -/
def clockStep (inp : PortInputs) (s : State) : Result :=
  if inp.rst = true then .next (resetRegs s)
  else andThen (andThen (crcSide inp s) (txSide inp)) (rxSide inp)

/-! ## Placing a table word -/

/-- A quiet step: no reset, line and ports at 0, CRC_NOP. -/
def quietInputs : PortInputs where
  rst := false
  rxIn := false
  txValid := false
  txLen := 0
  txData := []
  rxReady := false
  crcOp := 0
  crcDin := 0

/-- The state in which the next step takes the last sample of the byte `w` in the decoder state `d`; as in any attempt,
the CRU is unarmed and no Message waits. -/
def placeFrameByte (d : DecState) (w : Byte) (s : State) : State :=
  ((s.setCru { s.cru with armed := false }).setDec { s.dec with
      state := d, wait := 1, spacing := 1, bitCnt := 7, val := (w >>> 1).setWidth 16, lenR := 1, idx := 0,
      deliverPend := false }).withInputs
    [{ quietInputs with rxIn := w.getLsbD 0 }]

/-- The state in which the next step counts the eighth edge of a preamble of period 20 (R104). -/
def placePreamble (s : State) : State :=
  ((s.setCru { s.cru with armed := true, edgeCnt := 7, sum := 120, ivl := 20, rxPrev := false }).setDec
    { s.dec with state := .awaitingPreamble, deliverPend := false }).withInputs
    [{ quietInputs with rxIn := true }]

/-- Put a table word where the next step reads it (log 15). -/
def placeWord (w : Nat) (s : State) : State :=
  match tableSlot w with
  | .frame .rx .preamble => placePreamble s
  | .frame .rx .startFlag => placeFrameByte .awaitingStart (BitVec.ofNat 8 w) s
  | .frame .rx .payloadByte => placeFrameByte .readingPayload (BitVec.ofNat 8 w) s
  | _ => s.withInputs [{ quietInputs with crcOp := BitVec.ofNat 2 w, crcDin := BitVec.ofNat 8 (w / 256) }]

end Sys2Proof.Machine
end

