-- ==== Sys2Proof/Machine/Step.lean ====
section
/-! DEFINITION. The step: one clock step under the inputs State lists next, or free ones when it lists none (log 1). -/

namespace Sys2Proof.Machine

/-- One step of the machine (00_scope.md R9). -/
def step (s : State) : Host.Outcome State Fault Refusal :=
  clockStep (nextInputs s) (consume s)

/-- `s` with a table word placed where the next step reads it (log 15). Only the low `nbits` bits are given; the bits
above them are 0. -/
def State.withFetchWord (s : State) (nbits w : Nat) : State :=
  placeWord (w % 2 ^ nbits) s

end Sys2Proof.Machine
end

