-- ==== Sys2Proof/Machine/HostSide.lean ====
section
/-! DEFINITION. The host's side of the ports (44_host_interface.md), outside the block: the two queues (R141 to R144), and
the ideal host that runs a program of R80. Neither is part of State (00_scope.md R6, log 16). -/

namespace Sys2Proof.Machine

/-! ## The queues -/

/-- The Outbound and the Inbound Queue, the front of each first (R143). -/
structure HostQueues where
  outQ : List Message
  inQ : List Message
deriving DecidableEq, Repr

/-- A Message that `tx_len` can carry, `len(m) <= 255` (R141); any other is refused by the host. -/
abbrev fitsPort (m : Message) : Prop := m.length ≤ 255

/-- How a call of `send` ends (R141, R143). That it ends in one of these three ways is the model's form (log 16). -/
inductive SendCall where
  /-- The Message is at the back of the Outbound Queue. -/
  | queued (q : HostQueues)
  /-- The Outbound Queue is full: the blocking form waits, the non-blocking one answers QueueFullError. -/
  | full
  /-- More than 255 bytes cannot be put on `tx_len`: the host refuses it before enqueueing. -/
  | refused
deriving DecidableEq, Repr

/-- `send(m)` (R141): what does not fit the port is refused before it is enqueued. `full` leaves both queues as they
are. -/
def hostSend (m : Message) (q : HostQueues) : SendCall :=
  if fitsPort m then
    if q.outQ.length < Config.queueDepth then .queued { q with outQ := q.outQ ++ [m] } else .full
  else .refused

/-- `receive_blocking()` (R142): `none` is the call that blocks. -/
def hostReceive (q : HostQueues) : Option (Message × HostQueues) :=
  match q.inQ with
  | [] => none
  | m :: rest => some (m, { q with inQ := rest })

/-- What the host drives in a step (R141, R142): the front of the Outbound Queue on the TX port, and `rx_ready` while the
Inbound Queue has room. -/
def hostInputs (rst rxIn : Bool) (q : HostQueues) : PortInputs :=
  { quietInputs with
    rst := rst
    rxIn := rxIn
    txValid := !q.outQ.isEmpty
    txLen := BitVec.ofNat 8 (q.outQ.headD []).length
    txData := q.outQ.headD []
    rxReady := decide (q.inQ.length < Config.queueDepth) }

/-- A SEND transaction happens in the step (R74); none does under reset (R164). -/
def sendHappens (inp : PortInputs) (s : State) : Bool := !inp.rst && inp.txValid && txReady s

/-- A RECEIVE transaction happens in the step (R74). -/
def receiveHappens (inp : PortInputs) (s : State) : Bool := !inp.rst && rxValid s && inp.rxReady

/-- The queues after a step (R141, R142). The block's reset does not clear them (R167). -/
def queuesAfter (inp : PortInputs) (s : State) (q : HostQueues) : HostQueues where
  outQ := if sendHappens inp s then q.outQ.tail else q.outQ
  inQ := if receiveHappens inp s then q.inQ ++ [message s] else q.inQ

/-! ## Host programs -/

/-- A statement of a host program (R80). -/
inductive HostStmt where
  | send (m : Message)
  | recv
  | wait (k : Nat)
  | readyRx (on : Bool)
  | lineFlip (cell : Nat)
deriving DecidableEq, Repr

/-- The ASCII bytes of a string. -/
def ascii (s : String) : Message := s.toList.map (fun c => BitVec.ofNat 8 c.toNat)

/-- `SENDSTR` (R80). -/
def HostStmt.sendStr (s : String) : HostStmt := .send (ascii s)

/-- `SENDZ` (R80): a C string with its terminator. -/
def HostStmt.sendZ (s : String) : HostStmt := .send (ascii s ++ [0x00])

/-- `RECV*` (R80). -/
def HostStmt.recvStar : HostStmt := .readyRx true

/-- The ideal host while it runs a program (R80, log 23). -/
structure HostProgram where
  /-- The statements still to run. -/
  script : List HostStmt
  /-- The Message a SEND holds on the TX port. -/
  offer : Option Message
  /-- A RECV holds `rx_ready`. -/
  receiving : Bool
  /-- The level of `rx_ready` while no RECV holds it: the last `READY_RX`'s, or 0 before any (DESIGN CHOICE, log 23). -/
  ready : Bool
  /-- Steps a WAIT still takes. -/
  waiting : Nat
  /-- The Messages recorded, oldest first, those taken under `READY_RX on` too (DESIGN CHOICE, log 23). -/
  got : List Message
  /-- DESIGN CHOICE (log 23): the Messages of more than 255 bytes that a SEND has refused, oldest first. -/
  refused : List Message
  /-- Cells of the next frame to invert; a cell named twice is inverted once (DESIGN CHOICE, log 23). -/
  flips : List Nat
  /-- Cells of the frame on the line to invert. -/
  flipping : List Nat
deriving DecidableEq, Repr

/-- A program before its first statement. DESIGN CHOICE (log 23), where R80 does not say: `rx_ready` is 0 until a `READY_RX`
or a RECV raises it. -/
def HostProgram.start (script : List HostStmt) : HostProgram where
  script := script
  offer := none
  receiving := false
  ready := false
  waiting := 0
  got := []
  refused := []
  flips := []
  flipping := []

/-- Run statements at a step boundary up to the first that takes steps. A SEND of a Message that does not fit the port is
refused, as R141 and I12 require. DESIGN CHOICE (log 23), where R141 does not say how: it is recorded, nothing is offered,
and the program goes on at the same boundary. -/
def HostProgram.runStmts : List HostStmt → HostProgram → HostProgram
  | [], p => { p with script := [] }
  | .send m :: rest, p =>
    if fitsPort m then { p with script := rest, offer := some m }
    else HostProgram.runStmts rest { p with refused := p.refused ++ [m] }
  | .recv :: rest, p => { p with script := rest, receiving := true }
  | .wait k :: rest, p =>
    if k = 0 then HostProgram.runStmts rest p else { p with script := rest, waiting := k }
  | .readyRx on :: rest, p => HostProgram.runStmts rest { p with ready := on }
  | .lineFlip i :: rest, p => HostProgram.runStmts rest { p with flips := i :: p.flips }

/-- The host at a step boundary: it goes on unless a statement is still under way. -/
def HostProgram.boundary (p : HostProgram) : HostProgram :=
  if p.offer.isSome || p.receiving || decide (0 < p.waiting) then p else HostProgram.runStmts p.script p

/-- What the ideal host drives in a step. The Message it offers fits the port, since runStmts refuses any other (log 23).
DESIGN CHOICE (log 23), where R80 does not say: when a RECV is over `rx_ready` falls back to the level of the last
`READY_RX`, or to 0 if there was none; and the stand-alone generator's port carries CRC_NOP. -/
def HostProgram.inputs (rst rxIn : Bool) (p : HostProgram) : PortInputs :=
  { quietInputs with
    rst := rst
    rxIn := rxIn
    txValid := p.offer.isSome
    txLen := BitVec.ofNat 8 (p.offer.getD []).length
    txData := p.offer.getD []
    rxReady := p.ready || p.receiving }

/-- The ideal host after a step: a transaction ends the statement that waits for it. -/
def HostProgram.after (inp : PortInputs) (s : State) (p : HostProgram) : HostProgram :=
  let accepted := sendHappens inp s && decide (inp.txLen.toNat ≤ Config.maxMsgLen)
  { p with
    offer := if sendHappens inp s then none else p.offer
    receiving := if receiveHappens inp s then false else p.receiving
    got := if receiveHappens inp s then p.got ++ [message s] else p.got
    waiting := p.waiting - 1
    flips := if accepted then [] else p.flips
    flipping := if accepted then p.flips else p.flipping }

/-- The level the harness puts on the line (`LINE_FLIP`, R80): the block's, inverted in the chosen cells of its frame.
DESIGN CHOICE (log 23), where R80 does not say: two `LINE_FLIP` of one cell before one frame do not cancel, the cell is
inverted once; and a cell past the frame's end inverts nothing. -/
def flippedLine (p : HostProgram) (s : State) : Bool :=
  txOut s ^^ (decide (s.enc.state = .send) && p.flipping.contains (s.enc.pos.toNat * 8 + s.enc.bitn.toNat))

end Sys2Proof.Machine
end

