-- ==== Sys2Proof/Machine/Link.lean ====
section
/-! DEFINITION. The link: two blocks cross-connected by two lines (00_scope.md R3, 44_host_interface.md R148), each with its
own host, in lockstep (log 21). -/

namespace Sys2Proof.Machine

/-- Two values under one clock: a step of the pair is a step of each. -/
def bothNext {α : Type} (x : Result) (y : Result) (f : State → State → α) :
    Host.Outcome α Fault Refusal :=
  match x with
  | .fault r => .fault r
  | .refused r => .refused r
  | .next s =>
    match y with
    | .next t => .next (f s t)
    | .fault r => .fault r
    | .refused r => .refused r

/-- Two blocks and the queues of their hosts. -/
structure Link where
  a : State
  b : State
  hostA : HostQueues
  hostB : HostQueues
deriving DecidableEq, Repr

/-- One step of a link: each block's `tx_out` is the other's `rx_in`. -/
def Link.step (rstA rstB : Bool) (l : Link) : Host.Outcome Link Fault Refusal :=
  let inA := hostInputs rstA (txOut l.b) l.hostA
  let inB := hostInputs rstB (txOut l.a) l.hostB
  bothNext (Machine.step (l.a.withInputs [inA])) (Machine.step (l.b.withInputs [inB])) fun a b =>
    { a := a, b := b, hostA := queuesAfter inA l.a l.hostA, hostB := queuesAfter inB l.b l.hostB }

/-- Two blocks whose hosts run programs (R80). -/
structure Bench where
  a : State
  b : State
  progA : HostProgram
  progB : HostProgram
deriving DecidableEq, Repr

/-- A bench before step 0: two blocks of the same parameters just out of reset. -/
def Bench.start (p : Params) (scriptA scriptB : List HostStmt) : Bench where
  a := State.resetWith p
  b := State.resetWith p
  progA := HostProgram.start scriptA
  progB := HostProgram.start scriptB

/-- One step of a bench. -/
def Bench.step (n : Bench) : Host.Outcome Bench Fault Refusal :=
  let pA := n.progA.boundary
  let pB := n.progB.boundary
  let inA := pA.inputs false (flippedLine pB n.b)
  let inB := pB.inputs false (flippedLine pA n.a)
  bothNext (Machine.step (n.a.withInputs [inA])) (Machine.step (n.b.withInputs [inB])) fun a b =>
    { a := a, b := b, progA := pA.after inA n.a, progB := pB.after inB n.b }

end Sys2Proof.Machine
end

