-- ==== Sys2Proof/Safety.lean ====
section
/-! DEFINITION. What claims are stated in: runs under given inputs, the port inputs of a line level, and the invariant that
holds at reset and that every step keeps. -/

namespace Sys2Proof.Machine

/-! ## Runs -/

/-- The steps under the inputs `ins`, one each. -/
def runWith : List PortInputs → State → Result
  | [], s => .next s
  | inp :: rest, s => andThen (step (s.withInputs [inp])) (runWith rest)

/-- Operations one after the other, each at the state the one before leaves. -/
def execAll : List Instr → State → Result
  | [], s => .next s
  | i :: rest, s => andThen (exec i s) (execAll rest)

/-- No step of the run is a reset. -/
def noReset (ins : List PortInputs) : Prop := ∀ inp ∈ ins, inp.rst = false

/-- The line levels of a byte sequence, each half-level held for `h` steps (R66, R70). -/
def lineLevels (h : Nat) (bs : List Byte) : List Bool :=
  (halfLevels bs).flatMap (List.replicate h)

/-- A frame with any type byte, as the decoder accepts it (R69, R73). -/
def frameWithType (p : Params) (t : Byte) (m : Message) : List Byte :=
  let n := BitVec.ofNat 8 m.length
  let crc := crc16 p (t :: n :: m)
  [Config.preamble, Config.startFlag, t, n] ++ m ++ [hiByte crc, loByte crc, Config.endFlag]

/-- The receptions a frame with type byte `t` is, after its preamble (R69, R114). -/
def receptions (p : Params) (t : Byte) (m : Message) : List Instr :=
  let n := BitVec.ofNat 8 m.length
  let crc := crc16 p (t :: n :: m)
  [.startFlag .rx Config.startFlag, .typeFlags .rx t, .lengthByte .rx n] ++ m.map (.payloadByte .rx) ++
    [.crcHi .rx (hiByte crc), .crcLo .rx (loByte crc), .endFlag .rx Config.endFlag]

/-- The receive side's state after an attempt ends with `code` (R123), said field by field: the decoder is back in
`AwaitingPreamble`, the CRU keeps its state unless its guard is open at once, and nothing else changes. -/
def EndsAttempt (code : BitVec 3) (delivered : Bool) (s t : State) : Prop :=
  t.dec = { s.dec with
      state := .awaitingPreamble, val := 0, bitCnt := 0, rxStat := code,
      deliverPend := delivered || s.dec.deliverPend } ∧
    t.cru = (if s.cru.armed = false ∧ delivered = false ∧ s.par.rearmK * s.dec.period = 0 then
        { s.cru with armed := true, edgeCnt := 0, sum := 0, ivl := 1, quiet := 0, lastPeriod := s.dec.period }
      else { s.cru with quiet := 0, lastPeriod := s.dec.period }) ∧
    t.par = s.par ∧ t.crcR = s.crcR ∧ t.enc = s.enc ∧ t.inputs = s.inputs ∧ t.stepIx = s.stepIx ∧
    t.epoch = s.epoch ∧ t.taken = s.taken

/-- The operation that receives the byte `b` in a decoder state of an 8-bit field (R114). -/
def byteReception : DecState → Byte → Option Instr
  | .awaitingStart, b => some (.startFlag .rx b)
  | .readingHeaderType, b => some (.typeFlags .rx b)
  | .readingHeaderLength, b => some (.lengthByte .rx b)
  | .readingPayload, b => some (.payloadByte .rx b)
  | .awaitingEnd, b => some (.endFlag .rx b)
  | .awaitingPreamble, _ => none
  | .readingCrc, _ => none

/-- The samples of a byte, in send order. -/
def byteSamples (b : Byte) : List Instr := (byteBits b).map (symbolOf .rx)

/-! ## The invariant -/

/-- The bits of the field a decoder state reads (R114); in `AwaitingPreamble` none is under way. -/
def DecState.fieldBits : DecState → Nat
  | .awaitingPreamble => 1
  | .readingCrc => 16
  | _ => 8

/-- The first `k` bytes of an array have been written. -/
def Memory.written (m : Memory) (k : Nat) : Prop := ∀ i < k, (m.get? i).isSome = true

/-- Clock recovery: counters in their widths (R22 to R26, R95), and armed only while a preamble is awaited and no Message
waits (R62, R110). -/
structure CruInv (s : State) : Prop where
  edges : s.cru.edgeCnt.toNat ≤ 8
  ivlPos : 1 ≤ s.cru.ivl
  ivlFits : s.cru.ivl < 2 ^ s.par.cntW
  sumFits : s.cru.sum ≤ 7 * (2 ^ s.par.cntW - 1)
  quietFits : s.cru.quiet < 2 ^ s.par.cntW
  lastPeriodFits : s.cru.lastPeriod < 2 ^ s.par.cntW
  armedEdges : s.cru.armed = true → s.cru.edgeCnt.toNat ≤ 7
  armedSum : s.cru.armed = true → s.cru.sum ≤ (s.cru.edgeCnt.toNat - 1) * (2 ^ s.par.cntW - 1)
  armedWaits : s.cru.armed = true → s.dec.state = .awaitingPreamble ∧ s.dec.deliverPend = false

/-- The decoder: registers in their widths, a running field of fewer bits than it takes (R113), a payload index in range
(R119), a Message that waits only in `AwaitingPreamble` (R110) and whose bytes have all been written (R121). -/
structure DecInv (s : State) : Prop where
  periodFits : s.dec.period < 2 ^ s.par.cntW
  halfFits : s.dec.half < 2 ^ s.par.cntW
  offsetFits : s.dec.offset < 2 ^ s.par.cntW
  spacingFits : s.dec.spacing < 2 ^ s.par.cntW
  waitFits : s.dec.wait < 2 ^ s.par.cntW
  statCode : s.dec.rxStat.toNat ≤ 4
  bufForm : s.dec.buf.wf Config.rxBufLen = true
  bits : s.dec.bitCnt.toNat < s.dec.state.fieldBits
  value : s.dec.val.toNat < 2 ^ s.dec.bitCnt.toNat
  attempt : s.dec.state ≠ .awaitingPreamble →
    s.cru.armed = false ∧ s.dec.deliverPend = false ∧ 1 ≤ s.dec.wait ∧ 1 ≤ s.dec.spacing
  payload : s.dec.state = .readingPayload →
    s.dec.idx.toNat < s.dec.lenR.toNat ∧ s.dec.buf.written s.dec.idx.toNat
  complete : s.dec.state = .readingCrc ∨ s.dec.state = .awaitingEnd ∨ s.dec.deliverPend = true →
    s.dec.idx = s.dec.lenR ∧ s.dec.buf.written s.dec.lenR.toNat

/-- While a frame is sent, `fbuf` holds the frame of some Message of at most `MAX_MSG_LEN` bytes (R132), and the line
shows the current half of the current bit of it (R134). -/
def Sending (s : State) : Prop :=
  ∃ m : Message, m.length ≤ Config.maxMsgLen ∧ s.enc.flen.toNat = m.length + 7 ∧
    (∀ i < m.length + 7, s.enc.fbuf.get? i = (frame s.par m)[i]?) ∧
    s.enc.pos.toNat < m.length + 7 ∧ 1 ≤ s.enc.hcnt ∧
    ∃ w, s.enc.fbuf.get? s.enc.pos.toNat = some w ∧
      s.enc.txLine = (streamBit w s.enc.bitn.toNat ^^ s.enc.hf)

/-- The encoder: registers in their widths, the line low unless a frame is sent (R136). -/
structure EncInv (s : State) : Prop where
  hcntFits : s.enc.hcnt < 2 ^ s.par.cntW
  gcntFits : s.enc.gcnt < 2 ^ s.par.cntW
  statCode : s.enc.txStat.toNat ≤ 2
  fbufForm : s.enc.fbuf.wf Config.txBufLen = true
  idleLow : s.enc.state ≠ .send → s.enc.txLine = false
  sending : s.enc.state = .send → Sending s

/-- The invariant of the machine. -/
structure State.Inv (s : State) : Prop where
  par : s.par.wf
  cru : CruInv s
  dec : DecInv s
  enc : EncInv s

end Sys2Proof.Machine
end

