-- ==== Sys2Proof/Certificates/Slice0/Obligations.lean ====
section
/-! DEFINITION. The statements for the provers, from the numbered rules of spec/. Where a statement rests on a choice of the
model's own, its docstring names the log entry. -/

open Sys2Proof Sys2Proof.Machine

/-! ## Formats -/

/-- Every well-formed operation is decoded from its own word, whatever follows the word (R66, R69, R74, R75; the word
layouts are the model's, log 22). -/
def Obligations.DecodeAfterEncode : Prop :=
  ∀ (i : Instr) (rest : List Byte), i.wellFormed = true → decode i.slot (encode i ++ rest) = .ok (i, rest)

/-- Whatever the decoder answers is a well-formed operation of the slot it was asked to read, and it used as many bytes
as that operation's word has (the layouts of the port words are the model's, log 22). -/
def Obligations.DecodedIsWellFormed : Prop :=
  ∀ (slot : Slot) (word rest : List Byte) (i : Instr), decode slot word = .ok (i, rest) →
    i.wellFormed = true ∧ i.slot = slot ∧ ∃ used, word = used ++ rest ∧ used.length = (encode i).length

/-- Words written out by hand decode to the operations they stand for. The symbols and the frame bytes are the spec's
(R66, R69; the byte a symbol stands in is log 22). The codes and the fields of the port words are the spec's (R74, R75),
but their layout in bytes is the model's own (log 22, DESIGN CHOICE): the code's byte then `crc_din`, and the handshake
byte, then `tx_len`, then the data. -/
def Obligations.WrittenOutWordsDecode : Prop :=
  decode (.symbol .tx) [0b10] = .ok (.sym1 .tx, []) ∧
  decode (.symbol .tx) [0b01] = .ok (.sym0 .tx, []) ∧
  decode (.frame .tx .preamble) [0x55] = .ok (.preamble .tx, []) ∧
  decode (.frame .rx .startFlag) [0b01111110] = .ok (.startFlag .rx 0x7E, []) ∧
  decode (.frame .rx .lengthByte) [0b00010011] = .ok (.lengthByte .rx 19, []) ∧
  decode .crcPort [0b10, 0x41] = .ok (.crcUpdate 0x41, []) ∧
  decode .crcPort [0b11, 0x99] = .ok (.crcReserved, []) ∧
  decode .txPort [0b11, 2, 0x48, 0x69] = .ok (.send 2 [0x48, 0x69], []) ∧
  decode .rxPort [0b11] = .ok (.receive, [])

/-- The Manchester violations are never driven, and on reception they read as their first half (R67; that they are words
of SYM0 and SYM1 there is log 14, the byte they stand in log 22). -/
def Obligations.ViolationsReadAsFirstHalf : Prop :=
  decode (.symbol .tx) [0b11] = .error .manchesterViolation ∧
  decode (.symbol .tx) [0b00] = .error .manchesterViolation ∧
  decode (.symbol .rx) [0b11] = .ok (.sym1 .rx, []) ∧
  decode (.symbol .rx) [0b00] = .ok (.sym0 .rx, [])

/-! ## The step -/

/-- A step is the clock step under the inputs at its ports, and each unit's part of it runs the operation decoded from
the word it reads: `crc_op`, the TX port in `IDLE`, the bit on the line in `SEND`, the RX port in `AwaitingPreamble`, an
edge while armed, and the level sampled elsewhere (R75, R129, R110; which operation a step stands for is log 2). -/
def Obligations.StepRunsDecodedOperations : Prop :=
  (∀ (s : State) (inp : PortInputs) (rest : List PortInputs),
    step (s.withInputs (inp :: rest)) =
      if inp.rst = true then .next (resetRegs (consume (s.withInputs (inp :: rest))))
      else andThen (andThen (crcSide inp (consume (s.withInputs (inp :: rest)))) (txSide inp)) (rxSide inp)) ∧
  ∀ (s : State) (inp : PortInputs) (i : Instr) (r : List Byte),
    (decode .crcPort (crcWord inp) = .ok (i, r) → crcSide inp s = exec i s) ∧
    (s.enc.state = .idle → decode .txPort (txWord inp s) = .ok (i, r) → txSide inp s = exec i (txBegin s)) ∧
    (s.enc.state = .send → ∀ b, currentBit s = some b → txSide inp s = exec (symbolOf .tx b) (txBegin s)) ∧
    (s.dec.state = .awaitingPreamble → decode .rxPort (rxWord inp s) = .ok (i, r) →
      rxSide inp s = andThen (exec i (rxBegin inp.rxIn s)) (cruSide (inp.rxIn != s.cru.rxPrev))) ∧
    (s.cru.armed = true → cruSide true s = exec (.preamble .rx) s) ∧
    (s.dec.state ≠ .awaitingPreamble → rxSide inp s = exec (symbolOf .rx inp.rxIn) (rxBegin inp.rxIn s))

/-! ## The CRC-16 generator -/

/-- R88: the code `00` is CRC_NOP; it completes and `crc_r` keeps its value, and so does everything else. -/
def Obligations.CrcNopKeepsRegister : Prop :=
  (∀ din rest, decode .crcPort (0b00 :: din :: rest) = .ok (.crcNop, rest)) ∧
  ∀ s : State, exec .crcNop s = .next s

/-- R89: the code `01` is CRC_INIT, whatever `crc_din`: `crc_r <- CRC_INIT` and nothing else; `crc_out` is then the CRC of
the empty span, `0xFFFF` by default. -/
def Obligations.CrcInitLoadsInitialValue : Prop :=
  (∀ din rest, decode .crcPort (0b01 :: din :: rest) = .ok (.crcInit, rest)) ∧
  ∀ s : State, ∃ t, exec .crcInit s = .next t ∧ t = { s with crcR := s.par.crcInit } ∧
    crcOut t = crc16 s.par [] ∧ (s.par = Params.default → t.crcR = 0xFFFF ∧ crcOut t = 0xFFFF)

/-- R90: CRC_UPDATE takes the whole byte in one step and writes nothing but `crc_r`: a register that shows the CRC of a
span then shows the CRC of the span with the byte at its end. -/
def Obligations.CrcUpdateExtendsSpan : Prop :=
  ∀ (s : State) (din : Byte), ∃ t, exec (.crcUpdate din) s = .next t ∧ t = { s with crcR := t.crcR } ∧
    t.crcR = crcStep s.par.crcPoly s.crcR din ∧
    ∀ bs, crcOut s = crc16 s.par bs → crcOut t = crc16 s.par (bs ++ [din])

/-- R91: the reserved code `11` acts as CRC_NOP and raises nothing. -/
def Obligations.CrcReservedActsAsNop : Prop :=
  (∀ din rest, decode .crcPort (0b11 :: din :: rest) = .ok (.crcReserved, rest)) ∧
  ∀ s : State, exec .crcReserved s = .next s ∧ exec .crcReserved s = exec .crcNop s

/-- R92: `crc_out = crc_r ^ CRC_XOROUT` in every state, and after CRC_INIT followed by CRC_UPDATE of the bytes of a span,
one step each, it is the CRC of the span, whatever the other ports do. -/
def Obligations.CrcPortComputesCrc16 : Prop :=
  (∀ s : State, crcOut s = s.crcR ^^^ s.par.crcXorout) ∧
  ∀ (s t : State) (inp : PortInputs) (ins : List PortInputs) (bs : List Byte),
    noReset (inp :: ins) → inp.crcOp = 1 → ins.map (fun x => (x.crcOp, x.crcDin)) = bs.map (fun b => (2, b)) →
    runWith (inp :: ins) s = .next t → crcOut t = crc16 s.par bs

/-- R81, R83: the published check value of the default parameter set, and the CRC of the empty span. -/
def Obligations.CrcCheckValue : Prop :=
  crc16 Params.default [0x31, 0x32, 0x33, 0x34, 0x35, 0x36, 0x37, 0x38, 0x39] = 0x29B1 ∧
  crc16 Params.default [] = 0xFFFF ∧ ∀ p, crc16 p [] = p.crcInit ^^^ p.crcXorout

/-- R87, first sentence: for three sequences of one length the CRC is linear, the all-zero sequence taking up the
constants. -/
def Obligations.CrcIsLinear : Prop :=
  ∀ (p : Params) (a b : List Byte), a.length = b.length →
    crc16 p a ^^^ crc16 p b ^^^ crc16 p (List.replicate a.length 0) = crc16 p (List.zipWith (· ^^^ ·) a b)

/-- R87, second sentence, for any change of one byte: a polynomial with an `x^0` term detects it, the length of the span
being fixed. -/
def Obligations.CrcDetectsOneByte : Prop :=
  ∀ (p : Params) (bs : List Byte) (i : Nat) (v : Byte), p.crcPoly.getLsbD 0 = true → i < bs.length →
    bs[i]? ≠ some v → crc16 p (bs.set i v) ≠ crc16 p bs

/-! ## Sending -/

/-- R132: in `IDLE` a Message of at most 80 bytes is accepted. `fbuf` then reads as its frame over the frame's length and
as before past it; `flen`, the serializer's registers, the line and the status are as the rule says; nothing else
changes. -/
def Obligations.SendAcceptsMessage : Prop :=
  ∀ (s : State) (len : Byte) (m : Message), s.enc.state = .idle → m.length = len.toNat → len.toNat ≤ 80 →
    ∃ t, exec (.send len m) s = .next t ∧
      (∀ i, t.enc.fbuf.get? i = if i < len.toNat + 7 then (frame s.par m)[i]? else s.enc.fbuf.get? i) ∧
      t.enc.flen.toNat = len.toNat + 7 ∧
      t = { s with enc := { s.enc with
              state := .send, fbuf := t.enc.fbuf, flen := t.enc.flen, pos := 0, bitn := 0, hf := false,
              hcnt := s.par.txHalf, txLine := false, txStat := 1 } }

/-- R131: the frame of a Message, byte by byte. -/
def Obligations.FrameOfMessage : Prop :=
  ∀ (p : Params) (m : Message), m.length ≤ 255 →
    (frame p m).length = m.length + 7 ∧
    (frame p m).take 4 = [0x55, 0x7E, 0x00, BitVec.ofNat 8 m.length] ∧
    ((frame p m).drop 4).take m.length = m ∧
    ∃ hi lo, (frame p m).drop (m.length + 4) = [hi, lo, 0x7E] ∧
      hi ++ lo = crc16 p (0x00 :: BitVec.ofNat 8 m.length :: m)

/-- R133: a Message of more than 80 bytes is rejected: the status code 2, and nothing else changes. -/
def Obligations.SendRejectsLongMessage : Prop :=
  ∀ (s : State) (len : Byte) (m : Message), s.enc.state = .idle → 80 < len.toNat →
    exec (.send len m) s = .next { s with enc := { s.enc with txStat := 2 } }

/-- R130: `tx_ready` is 1 exactly in `IDLE`, and while it is 0 no Message is accepted: SEND moves nothing, and the step of
the transmit side does not depend on the TX port. -/
def Obligations.NoSendWhileBusy : Prop :=
  ∀ s : State, (txReady s = true ↔ s.enc.state = .idle) ∧
    (s.enc.state ≠ .idle → (∀ len m, exec (.send len m) s = .next s) ∧
      ∀ inp inp' : PortInputs, txSide inp s = txSide inp' s)

/-- R134, R135: one step of the serializer while the bit `b` is on the line. The half is held; then the second half is its
complement; then the next bit, the next byte or the end of the frame with the gap, if there is one. Nothing else
changes. -/
def Obligations.SerializerStep : Prop :=
  ∀ (s : State) (b : Bool), s.enc.state = .send →
    let go := exec (symbolOf .tx b) s
    (1 < s.enc.hcnt → go = .next { s with enc := { s.enc with hcnt := s.enc.hcnt - 1 } }) ∧
    (s.enc.hcnt ≤ 1 → s.enc.hf = false →
      go = .next { s with enc := { s.enc with hcnt := s.par.txHalf, hf := true, txLine := !b } }) ∧
    (s.enc.hcnt ≤ 1 → s.enc.hf = true →
      (∀ w, s.enc.bitn.toNat < 7 → s.enc.pos.toNat < 87 → s.enc.fbuf.get? s.enc.pos.toNat = some w →
        go = .next { s with enc := { s.enc with
          hcnt := s.par.txHalf, bitn := s.enc.bitn + 1, hf := false,
          txLine := w.getLsbD (6 - s.enc.bitn.toNat) } }) ∧
      (∀ w, s.enc.bitn.toNat = 7 → s.enc.pos.toNat + 1 < s.enc.flen.toNat → s.enc.pos.toNat + 1 < 87 →
        s.enc.fbuf.get? (s.enc.pos.toNat + 1) = some w →
        go = .next { s with enc := { s.enc with
          hcnt := s.par.txHalf, pos := s.enc.pos + 1, bitn := 0, hf := false, txLine := w.getLsbD 7 } }) ∧
      (s.enc.bitn.toNat = 7 → s.enc.flen.toNat ≤ s.enc.pos.toNat + 1 →
        (0 < s.par.txGap → go = .next { s with enc := { s.enc with
          hcnt := s.par.txHalf, txLine := false, gcnt := s.par.txGap, state := .gap } }) ∧
        (s.par.txGap = 0 → go = .next { s with enc := { s.enc with
          hcnt := s.par.txHalf, txLine := false, state := .idle } })))

/-- From every state that meets the invariant the symbol on the line completes (R138: a frame, once accepted, is sent in
full). -/
def Obligations.SymbolsCompleteOnTransmission : Prop :=
  ∀ (s : State) (b : Bool), s.Inv → ∃ t, exec (symbolOf .tx b) s = .next t ∧ t = { s with enc := t.enc }

/-- R132, R135: a frame byte begun by the encoder shows the first half of its most significant bit; every field of the
frame completes so, and writes nothing else. That sending a field is this event is the model's reading (log 2), and its
effect outside `SEND` the model's choice (log 13). -/
def Obligations.FieldsBeginOnTransmission : Prop :=
  ∀ (s : State) (v : Byte),
    exec (.preamble .tx) s = .next { s with enc := { s.enc with
      pos := 0, bitn := 0, hf := false, hcnt := s.par.txHalf, txLine := false } } ∧
    ∀ i ∈ [Instr.startFlag .tx v, .typeFlags .tx v, .lengthByte .tx v, .payloadByte .tx v, .crcHi .tx v,
        .crcLo .tx v, .endFlag .tx v],
      exec i s = .next { s with enc := { s.enc with
        pos := s.enc.pos + 1, bitn := 0, hf := false, hcnt := s.par.txHalf, txLine := v.getLsbD 7 } }

/-- R136: the gap counts down to `IDLE` with the line unchanged. -/
def Obligations.GapCountsDown : Prop :=
  ∀ (s : State) (inp : PortInputs), s.enc.state = .gap →
    (1 < s.enc.gcnt →
      txSide inp s = .next { s with enc := { s.enc with gcnt := s.enc.gcnt - 1, txStat := 0 } }) ∧
    (s.enc.gcnt ≤ 1 → txSide inp s = .next { s with enc := { s.enc with state := .idle, txStat := 0 } })

/-- R137: the level on the line in every step of a frame, the gap after it, and the step at which the encoder is `IDLE`
again. `ins` are the steps after the one that accepts the Message. -/
def Obligations.FrameTimingOnTheLine : Prop :=
  ∀ (s t : State) (inp : PortInputs) (ins : List PortInputs) (m : Message),
    s.Inv → s.enc.state = .idle → noReset (inp :: ins) → m.length ≤ 80 →
    inp.txValid = true → inp.txLen = BitVec.ofNat 8 m.length → inp.txData = m →
    runWith (inp :: ins) s = .next t →
    let h := s.par.txHalf
    let fe := 16 * (m.length + 7) * h
    (ins.length < fe →
      t.enc.state = .send ∧ (halfLevels (frame s.par m))[ins.length / h]? = some (txOut t)) ∧
    (fe ≤ ins.length → ins.length < fe + s.par.txGap → t.enc.state = .gap ∧ txOut t = false) ∧
    (ins.length = fe + s.par.txGap → t.enc.state = .idle ∧ txOut t = false)

/-! ## Clock recovery -/

/-- R94, R153: on reception PREAMBLE is one edge. The first starts the timing, the next ones add their interval, and an
edge while the CRU does not run changes nothing. (That PREAMBLE received is one edge is the model's reading, log 19.) -/
def Obligations.PreambleEdgesCounted : Prop :=
  ∀ s : State,
    (s.dec.state = .awaitingPreamble → s.cru.armed = true → s.cru.edgeCnt = 0 →
      exec (.preamble .rx) s = .next { s with cru := { s.cru with edgeCnt := 1, ivl := 1 } }) ∧
    (s.dec.state = .awaitingPreamble → s.cru.armed = true → 1 ≤ s.cru.edgeCnt.toNat → s.cru.edgeCnt.toNat < 7 →
      exec (.preamble .rx) s = .next { s with cru := { s.cru with
        sum := s.cru.sum + s.cru.ivl, edgeCnt := s.cru.edgeCnt + 1, ivl := 1 } }) ∧
    (¬ (s.dec.state = .awaitingPreamble ∧ s.cru.armed = true) → exec (.preamble .rx) s = .next s)

/-- R98 to R103: the eighth edge makes the estimate and hands over to the decoder, in one step, and changes nothing
else. The spacing is the rule's where it fits its register (where it does not, log 8). -/
def Obligations.EighthEdgeMakesEstimate : Prop :=
  ∀ s : State, s.dec.state = .awaitingPreamble → s.cru.armed = true → s.cru.edgeCnt = 7 →
    let x := s.cru.sum + s.cru.ivl
    let p := (x + 3) / 7
    let o := min (p / 2 / s.par.offsetDiv) s.par.offsetCap
    ∃ t, exec (.preamble .rx) s = .next t ∧
      t = { s with
        cru := { s.cru with sum := x, edgeCnt := 8, ivl := 1, armed := false }
        dec := { s.dec with
          period := p, half := p / 2, offset := o, spacing := t.dec.spacing, wait := max (p / 2 + o) 1,
          state := .awaitingStart, val := 0, bitCnt := 0 } } ∧
      ((max ((p : Int) - s.par.timingCorr) 1).toNat < 2 ^ s.par.cntW →
        (t.dec.spacing : Int) = max ((p : Int) - s.par.timingCorr) 1)

/-- R99, R100: the estimate is the nearest whole number to a seventh of the sum, and the half-period is the floor of
its half, with the rules' examples. -/
def Obligations.PeriodIsRounded : Prop :=
  (∀ (x : Nat) (s : State), let p := (eighth x s).dec.period
    p = (x + 3) / 7 ∧ 7 * p ≤ x + 3 ∧ x ≤ 7 * p + 3 ∧ (eighth x s).dec.half = p / 2) ∧
  ∀ s : State, (eighth 140 s).dec.period = 20 ∧ (eighth 143 s).dec.period = 20 ∧
    (eighth 144 s).dec.period = 21 ∧ (eighth 144 s).dec.half = 10 ∧ (eighth 7 s).dec.period = 1

/-- R101: the offset is a fraction of the half-period, capped. With the cap of 1 it is 0 or 1, and 0 exactly when the
half-period is below `OFFSET_DIV`; by default the fraction is a tenth. -/
def Obligations.OffsetIsCapped : Prop :=
  (∀ (x : Nat) (s : State), s.par.wf →
    let t := eighth x s
    t.dec.offset = min (t.dec.half / s.par.offsetDiv) s.par.offsetCap ∧ s.par.offsetCap = 1 ∧
      (t.dec.offset = 0 ∨ t.dec.offset = 1) ∧ (t.dec.offset = 0 ↔ t.dec.half < s.par.offsetDiv)) ∧
  Params.default.offsetDiv = 10 ∧ Params.default.offsetCap = 1

/-- R104: on an idle-low line, a preamble of half-bit `h` read by an armed CRU ends, at step `t0 + 15h`, with the exact
estimate: `sum = 14h`, `period = 2h`, `half = h`. -/
def Obligations.PreambleGivesExactPeriod : Prop :=
  ∀ (s t : State) (ins : List PortInputs) (h : Nat),
    s.dec.state = .awaitingPreamble → s.cru.armed = true → s.cru.edgeCnt = 0 → s.cru.sum = 0 →
    s.cru.rxPrev = false → 1 ≤ h → 2 * h < 2 ^ s.par.cntW → noReset ins →
    ins.map (·.rxIn) = (lineLevels h [0x55]).take (15 * h + 1) →
    runWith ins s = .next t →
    t.dec.state = .awaitingStart ∧ t.cru.sum = 14 * h ∧ t.dec.period = 2 * h ∧ t.dec.half = h ∧
      t.cru.armed = false

/-- R96: there is no preamble timeout. However long the line holds its level, an armed CRU goes on waiting with the same
edge count, and no status code is produced. R94, R95: `ivl` counts these steps, saturating, once an edge has been counted,
and before that nothing is timed. -/
def Obligations.NoPreambleTimeout : Prop :=
  ∀ (s t : State) (inp : PortInputs) (ins : List PortInputs),
    s.dec.state = .awaitingPreamble → s.cru.armed = true → noReset (inp :: ins) →
    (∀ x ∈ inp :: ins, x.rxIn = s.cru.rxPrev) → runWith (inp :: ins) s = .next t →
    t.dec.state = .awaitingPreamble ∧ t.cru.armed = true ∧ t.cru.edgeCnt = s.cru.edgeCnt ∧
      t.cru.sum = s.cru.sum ∧ rxStatus t = 0 ∧
      t.cru.ivl = (if s.cru.edgeCnt = 0 then s.cru.ivl
        else min (s.cru.ivl + (inp :: ins).length) (2 ^ s.par.cntW - 1))

/-- R107, R108: the step of an unarmed CRU. `quiet` counts the edge-free steps; the CRU arms exactly when no Message waits
after the step and `quiet` has reached `REARM_K` periods; an edge of that step is not counted (R106). -/
def Obligations.RearmGuard : Prop :=
  ∀ (s t : State) (inp : PortInputs), inp.rst = false → s.dec.state = .awaitingPreamble →
    s.cru.armed = false → step (s.withInputs [inp]) = .next t →
    let q := if inp.rxIn = s.cru.rxPrev then min (s.cru.quiet + 1) (2 ^ s.par.cntW - 1) else 0
    t.dec.state = .awaitingPreamble ∧
    t.cru = (if (s.dec.deliverPend && !inp.rxReady) = false ∧ s.par.rearmK * s.cru.lastPeriod ≤ q then
        { s.cru with
          rxPrev := inp.rxIn, quiet := q, armed := true, edgeCnt := 0, sum := 0, ivl := 1 }
      else { s.cru with rxPrev := inp.rxIn, quiet := q })

/-! ## The decoder -/

/-- R111: between samples the DEC step counts `wait` down, whatever the level; in `AwaitingPreamble` it does not run. -/
def Obligations.SamplingClockCountsDown : Prop :=
  ∀ (s : State) (b : Bool),
    (s.dec.state ≠ .awaitingPreamble → 1 < s.dec.wait →
      exec (symbolOf .rx b) s = .next { s with dec := { s.dec with wait := s.dec.wait - 1 } }) ∧
    (s.dec.state = .awaitingPreamble → exec (symbolOf .rx b) s = .next s)

/-- R111, R113: a sample that does not complete its field shifts the bit into `val` and counts it, the next sample being
`spacing` steps away; nothing else changes. -/
def Obligations.SampleShiftsBitIn : Prop :=
  ∀ (s : State) (b : Bool), s.dec.state ≠ .awaitingPreamble → s.dec.wait ≤ 1 →
    s.dec.bitCnt.toNat + 1 < s.dec.state.fieldBits → s.dec.val.toNat < 2 ^ s.dec.bitCnt.toNat →
    exec (symbolOf .rx b) s = .next { s with dec := { s.dec with
      val := BitVec.ofNat 16 (2 * s.dec.val.toNat + b.toNat), bitCnt := s.dec.bitCnt + 1,
      wait := s.dec.spacing } }

/-- R71: eight samples, the most significant bit first, are the reception of the byte; sixteen are the two CRC bytes
(two operations by the model's reading, log 18). -/
def Obligations.SamplesAssembleFields : Prop :=
  ∀ s : State, s.dec.wait ≤ 1 → s.dec.spacing ≤ 1 → s.dec.val = 0 → s.dec.bitCnt = 0 →
    let s1 : State := { s with dec := { s.dec with wait := s.dec.spacing } }
    (∀ (b : Byte) (i : Instr), byteReception s.dec.state b = some i →
      execAll (byteSamples b) s = exec i s1) ∧
    (∀ hi lo : Byte, s.dec.state = .readingCrc →
      execAll (byteSamples hi ++ byteSamples lo) s = execAll [.crcHi .rx hi, .crcLo .rx lo] s1)

/-- R115: the start flag `0x7E` leads to the type byte; any other byte ends the attempt with code 2. (The effect in
another decoder state than the rule's is the model's choice, log 13.) -/
def Obligations.StartFlagChecked : Prop :=
  ∀ (s : State) (v : Byte),
    (v = 0x7E → exec (.startFlag .rx v) s =
      .next { s with dec := { s.dec with val := 0, bitCnt := 0, state := .readingHeaderType } }) ∧
    (v ≠ 0x7E → ∃ t, exec (.startFlag .rx v) s = .next t ∧ EndsAttempt 2 false s t)

/-- R116: any type byte is kept in `type_r` and leads to the length byte. (The effect in
another decoder state than the rule's is the model's choice, log 13.) -/
def Obligations.TypeByteAccepted : Prop :=
  ∀ (s : State) (v : Byte), exec (.typeFlags .rx v) s =
    .next { s with dec := { s.dec with typeR := v, val := 0, bitCnt := 0, state := .readingHeaderLength } }

/-- R117, R118: any length is kept in `len_r` and starts the payload at index 0; the length 0 consumes no payload bits
and leads straight to the CRC. (The effect in
another decoder state than the rule's is the model's choice, log 13.) -/
def Obligations.LengthStartsPayload : Prop :=
  ∀ (s : State) (v : Byte), exec (.lengthByte .rx v) s =
    .next { s with dec := { s.dec with
      lenR := v, idx := 0, val := 0, bitCnt := 0,
      state := if v = 0 then .readingCrc else .readingPayload } }

/-- R119: a payload byte is stored at `idx`, every other byte of `buf` keeps its value, and the last one leads to the
CRC. -/
def Obligations.PayloadByteStored : Prop :=
  ∀ (s : State) (v : Byte), s.dec.state = .readingPayload → s.dec.idx.toNat < 255 →
    ∃ t, exec (.payloadByte .rx v) s = .next t ∧
      (∀ i, t.dec.buf.get? i = if i = s.dec.idx.toNat then some v else s.dec.buf.get? i) ∧
      t = { s with dec := { s.dec with
        buf := t.dec.buf, idx := s.dec.idx + 1, val := 0, bitCnt := 0,
        state := if s.dec.idx.toNat + 1 = s.dec.lenR.toNat then .readingCrc else .readingPayload } }

/-- An index past the 255 bytes of `buf` stops by name (R32; log 9): the only state in which a received payload byte does
not complete, and no state that meets the invariant. -/
def Obligations.PayloadIndexPastBufferFaults : Prop :=
  (∀ (s : State) (v : Byte), s.dec.idx = 255 → exec (.payloadByte .rx v) s = .fault .bufIndex) ∧
  ∀ s : State, s.Inv → s.dec.state = .readingPayload → s.dec.idx.toNat < 255

/-- R120: the two CRC bytes, high byte first, are one 16-bit field (R49), compared with the CRC over the type, the length
and the payload. A match leads to the end flag; anything else ends the attempt with code 3.
(One operation for each of the two bytes is the model's reading, log 18.) -/
def Obligations.CrcFieldChecked : Prop :=
  ∀ (s : State) (hi lo : Byte), s.dec.state = .readingCrc → s.dec.val = 0 →
    let computed := crc16 s.par ([s.dec.typeR, s.dec.lenR] ++ bufBytes s s.dec.lenR.toNat)
    (hi ++ lo = computed → execAll [.crcHi .rx hi, .crcLo .rx lo] s =
      .next { s with dec := { s.dec with val := 0, bitCnt := 0, state := .awaitingEnd } }) ∧
    (hi ++ lo ≠ computed → ∃ t, execAll [.crcHi .rx hi, .crcLo .rx lo] s = .next t ∧ EndsAttempt 3 false s t)

/-- The two CRC bytes complete in every state. R120 speaks of ReadingCrc only, where the two are one field of 16 bits:
that CRC_HI is an operation of its own, which leaves `bit_cnt` 8, is the model's reading (log 18, DEDUCED), and the
effect of either in any other state is the model's choice (log 13, DESIGN CHOICE). -/
def Obligations.CrcBytesComplete : Prop :=
  ∀ (s : State) (v : Byte), (∃ t, exec (.crcHi .rx v) s = .next t ∧ t.dec.bitCnt = 8 ∧ t.dec.state = s.dec.state) ∧
    ∃ t, exec (.crcLo .rx v) s = .next t ∧ (t.dec.state = .awaitingEnd ∨ EndsAttempt 3 false s t)

/-- R121: the end flag `0x7E` delivers the Message with code 1; any other byte discards it with code 4. (The effect in
another decoder state than the rule's is the model's choice, log 13.) -/
def Obligations.EndFlagDelivers : Prop :=
  ∀ (s : State) (v : Byte),
    (v = 0x7E → ∃ t, exec (.endFlag .rx v) s = .next t ∧ EndsAttempt 1 true s t) ∧
    (v ≠ 0x7E → ∃ t, exec (.endFlag .rx v) s = .next t ∧ EndsAttempt 4 false s t)

/-- R155, R156: an abort leaves the decoder where no sample is taken, and a sample afterwards changes nothing, so aborts
do not nest. -/
def Obligations.AbortsDoNotNest : Prop :=
  ∀ (e : DecError) (s : State) (b : Bool),
    EndsAttempt e.code false s (raiseError e s) ∧
      exec (symbolOf .rx b) (raiseError e s) = .next (raiseError e s)

/-- R69, R114, R126: the bytes of a frame of any length and any type byte, received one after the other from
`AwaitingStart`, deliver exactly its Message. -/
def Obligations.ReceivedFrameDeliversMessage : Prop :=
  ∀ (s : State) (typ : Byte) (m : Message), s.dec.state = .awaitingStart → m.length ≤ 255 →
    ∃ t, execAll (receptions s.par typ m) s = .next t ∧
      rxValid t = true ∧ message t = m ∧ (rxLen t).toNat = m.length ∧ rxStatus t = 1 ∧
      t.dec.state = .awaitingPreamble

/-- R87, R120: a frame whose payload differs from the sent one in one byte is never delivered when the polynomial has an
`x^0` term: it ends with IntegrityError at its CRC. -/
def Obligations.CorruptedPayloadAborts : Prop :=
  ∀ (s : State) (typ v : Byte) (m : Message) (i : Nat),
    s.dec.state = .awaitingStart → s.dec.deliverPend = false → m.length ≤ 255 → i < m.length → m[i]? ≠ some v →
    s.par.crcPoly.getLsbD 0 = true →
    let n := BitVec.ofNat 8 m.length
    let crc := crc16 s.par (typ :: n :: m)
    ∃ t, execAll ([.startFlag .rx 0x7E, .typeFlags .rx typ, .lengthByte .rx n] ++
        (m.set i v).map (.payloadByte .rx) ++ [.crcHi .rx (hiByte crc), .crcLo .rx (loByte crc)]) s = .next t ∧
      rxStatus t = 3 ∧ rxValid t = false ∧ t.dec.state = .awaitingPreamble

/-- R105, R127 and the frame rules together: a well-timed frame on an idle-low line, read from its first level on by an
armed receiver, is delivered at the step R127 gives, for every Message, type byte and half-bit whose sampling offset is
below the half-bit. -/
def Obligations.WellTimedFrameIsDelivered : Prop :=
  ∀ (s t : State) (ins : List PortInputs) (h : Nat) (typ : Byte) (m : Message),
    s.Inv → s.dec.state = .awaitingPreamble → s.cru.armed = true → s.cru.edgeCnt = 0 → s.cru.rxPrev = false →
    s.par.timingCorr = 0 → 1 ≤ h → 2 * h < 2 ^ s.par.cntW → m.length ≤ 255 → noReset ins →
    min (h / s.par.offsetDiv) s.par.offsetCap < h →
    let o := min (h / s.par.offsetDiv) s.par.offsetCap
    let last := 15 * h + max (h + o) 1 + (8 * (m.length + 6) - 1) * (2 * h)
    ins.map (·.rxIn) = (lineLevels h (frameWithType s.par typ m)).take (last + 1) →
    runWith ins s = .next t →
    rxValid t = true ∧ message t = m ∧ (rxLen t).toNat = m.length ∧ rxStatus t = 1

/-! ## The RX port -/

/-- R124, R74: RECEIVE hands the waiting Message over and drops `deliver_pend`; with none waiting nothing moves. (The
host it goes to is a list of the model's own, log 10.) -/
def Obligations.ReceiveHandsMessageOver : Prop :=
  ∀ s : State,
    (s.dec.deliverPend = true → exec .receive s = .next { s with
      dec := { s.dec with deliverPend := false }
      taken := s.taken ++ [bufBytes s s.dec.lenR.toNat] }) ∧
    (s.dec.deliverPend = false → exec .receive s = .next s)

/-- R57, R124: a waiting Message is stable until the host takes it, for any number of steps, and the CRU is not armed
meanwhile. -/
def Obligations.WaitingMessageIsStable : Prop :=
  ∀ (s t : State) (ins : List PortInputs), s.Inv → rxValid s = true → noReset ins →
    (∀ x ∈ ins, x.rxReady = false) → runWith ins s = .next t →
    rxValid t = true ∧ rxLen t = rxLen s ∧ t.dec.buf = s.dec.buf ∧ message t = message s ∧
      (∀ i < (rxLen s).toNat, rxData t i = rxData s i) ∧ t.cru.armed = false ∧ t.taken = s.taken

/-- R125, R114: the decoder goes from field to field, one at a time and in the frame's order, only by the sample that
completes a field and only on its match: from the eighth edge over the start flag, the type, the length, the payload and
the CRC to the end flag, by which alone a Message becomes valid. The type, the length and the payload are written in
their own fields only. -/
def Obligations.DecoderAdvancesOnlyOnMatch : Prop :=
  ∀ (s t : State) (inp : PortInputs), inp.rst = false → step (s.withInputs [inp]) = .next t →
    let v := shiftIn s.dec.val inp.rxIn
    let c := s.dec.bitCnt.toNat + 1
    (t.dec.state = .awaitingStart → s.dec.state ≠ .awaitingStart →
      s.dec.state = .awaitingPreamble ∧ s.cru.armed = true ∧ inp.rxIn ≠ s.cru.rxPrev ∧ 7 ≤ s.cru.edgeCnt.toNat) ∧
    (t.dec.state = .readingHeaderType → s.dec.state ≠ .readingHeaderType →
      s.dec.state = .awaitingStart ∧ 8 ≤ c ∧ loByte v = 0x7E) ∧
    (t.dec.state = .readingHeaderLength → s.dec.state ≠ .readingHeaderLength →
      s.dec.state = .readingHeaderType ∧ 8 ≤ c ∧ t.dec.typeR = loByte v) ∧
    (t.dec.state = .readingPayload → s.dec.state ≠ .readingPayload →
      s.dec.state = .readingHeaderLength ∧ 8 ≤ c ∧ t.dec.lenR = loByte v ∧ loByte v ≠ 0 ∧ t.dec.idx = 0) ∧
    (t.dec.state = .readingCrc → s.dec.state ≠ .readingCrc → 8 ≤ c ∧
      (s.dec.state = .readingHeaderLength ∧ t.dec.lenR = loByte v ∧ loByte v = 0 ∨
        s.dec.state = .readingPayload ∧ s.dec.idx.toNat + 1 = s.dec.lenR.toNat)) ∧
    (t.dec.state = .awaitingEnd → s.dec.state ≠ .awaitingEnd →
      s.dec.state = .readingCrc ∧ 16 ≤ c ∧ v = crc16 s.par (s.dec.typeR :: s.dec.lenR :: message s)) ∧
    (rxValid t = true → rxValid s = false →
      s.dec.state = .awaitingEnd ∧ 8 ≤ c ∧ loByte v = 0x7E ∧ rxStatus t = 1) ∧
    (s.dec.state ≠ .readingHeaderType → t.dec.typeR = s.dec.typeR) ∧
    (s.dec.state ≠ .readingHeaderLength → t.dec.lenR = s.dec.lenR) ∧
    (s.dec.state ≠ .readingPayload → t.dec.buf = s.dec.buf)

/-- R55, R59: in one step at most one Message leaves through the RX port, whole, the one that was offered, and only when
valid and ready are both 1; what left before is kept, in order. (The list is the model's record of the port, log 10.) -/
def Obligations.MessagesLeaveWholeAndInOrder : Prop :=
  ∀ (s t : State) (inp : PortInputs), step (s.withInputs [inp]) = .next t →
    t.taken = (if inp.rst = false ∧ s.dec.state = .awaitingPreamble ∧ rxValid s = true ∧ inp.rxReady = true then
      s.taken ++ [message s] else s.taken)

/-! ## The whole machine -/

/-- The state after reset meets the invariant. -/
def Obligations.ResetMeetsInvariant : Prop :=
  State.reset.Inv ∧ ∀ p : Params, p.wf → (State.resetWith p).Inv

/-- Every step keeps the invariant: the counters in their widths, the arrays canonical, an armed CRU only while a preamble
is awaited, payload indexes in range, a waiting Message fully written, and the frame and level of the encoder. -/
def Obligations.StepKeepsInvariant : Prop :=
  ∀ s t : State, s.Inv → step s = .next t → t.Inv

/-- R152, R128: nothing stops the block. From every state that meets the invariant, whatever the ports carry, the step
answers a next state. -/
def Obligations.NothingStopsTheBlock : Prop :=
  ∀ s : State, s.Inv → ∃ t, step s = .next t

/-- R164: a step with `rst = 1` gives every register its value of R43, whatever else the ports carry. -/
def Obligations.ResetWins : Prop :=
  ∀ (s : State) (inp : PortInputs), inp.rst = true → ∃ t, step (s.withInputs [inp]) = .next t ∧
    t.crcR = s.par.crcInit ∧
    t.cru = { rxPrev := false, armed := true, edgeCnt := 0, ivl := 1, sum := 0, quiet := 0, lastPeriod := 0 } ∧
    (t.dec.period = 0 ∧ t.dec.half = 0 ∧ t.dec.offset = 0 ∧ t.dec.spacing = 0 ∧ t.dec.wait = 0 ∧
      t.dec.state = .awaitingPreamble ∧ t.dec.val = 0 ∧ t.dec.bitCnt = 0 ∧ t.dec.typeR = 0 ∧ t.dec.lenR = 0 ∧
      t.dec.idx = 0 ∧ t.dec.deliverPend = false ∧ t.dec.rxStat = 0) ∧
    (t.enc.state = .idle ∧ t.enc.flen = 0 ∧ t.enc.pos = 0 ∧ t.enc.bitn = 0 ∧ t.enc.hf = false ∧ t.enc.hcnt = 0 ∧
      t.enc.gcnt = 0 ∧ t.enc.txLine = false ∧ t.enc.txStat = 0) ∧
    t.par = s.par ∧ t.taken = s.taken

/-- R165: the outputs during reset and at step 0. -/
def Obligations.OutputsAfterReset : Prop :=
  (∀ (s t : State) (inp : PortInputs), inp.rst = true → step (s.withInputs [inp]) = .next t →
    txOut t = false ∧ txReady t = true ∧ txStatus t = 0 ∧ rxValid t = false ∧ rxLen t = 0 ∧ rxStatus t = 0) ∧
  (txOut State.reset = false ∧ txReady State.reset = true ∧ txStatus State.reset = 0 ∧
    rxValid State.reset = false ∧ rxLen State.reset = 0 ∧ rxStatus State.reset = 0)

/-- R61: the two sides share no state. What one side's registers become depends on no register and no port of the
other. (Both runs are of blocks built alike, reset alike, at the same number of steps and resets, the index of the free
values: log 1, log 5.) -/
def Obligations.SidesShareNoState : Prop :=
  ∀ (s s' t t' : State) (inp inp' : PortInputs),
    s.par = s'.par → s.epoch = s'.epoch → s.stepIx = s'.stepIx → inp.rst = inp'.rst →
    step (s.withInputs [inp]) = .next t → step (s'.withInputs [inp']) = .next t' →
    (s.cru = s'.cru → s.dec = s'.dec → inp.rxIn = inp'.rxIn → inp.rxReady = inp'.rxReady →
      t.cru = t'.cru ∧ t.dec = t'.dec) ∧
    (s.enc = s'.enc → inp.txValid = inp'.txValid → inp.txLen = inp'.txLen → inp.txData = inp'.txData →
      t.enc = t'.enc)

/-- R15: no step changes a build-time parameter. -/
def Obligations.ParametersNeverChange : Prop :=
  ∀ s t : State, step s = .next t → t.par = s.par

/-- R150: an `rx_status` code lasts one step, has its cause in the step before, and leaves the decoder in
`AwaitingPreamble`; the codes 5 to 7 are never produced. -/
def Obligations.RxStatusHasItsCause : Prop :=
  ∀ (s t : State) (inp : PortInputs), inp.rst = false → step (s.withInputs [inp]) = .next t →
    rxStatus t = 0 ∨
    (t.dec.state = .awaitingPreamble ∧ s.dec.wait ≤ 1 ∧
      ((rxStatus t = 1 ∧ s.dec.state = .awaitingEnd ∧ loByte (shiftIn s.dec.val inp.rxIn) = 0x7E ∧
          rxValid t = true) ∨
       (rxStatus t = 2 ∧ s.dec.state = .awaitingStart ∧ loByte (shiftIn s.dec.val inp.rxIn) ≠ 0x7E) ∨
       (rxStatus t = 3 ∧ s.dec.state = .readingCrc ∧
         shiftIn s.dec.val inp.rxIn ≠ crc16 s.par (s.dec.typeR :: s.dec.lenR :: message s)) ∨
       (rxStatus t = 4 ∧ s.dec.state = .awaitingEnd ∧ loByte (shiftIn s.dec.val inp.rxIn) ≠ 0x7E)))

/-- R151: the `tx_status` code of every step: 1 after an accepted SEND, whose frame is then being sent, 2 after a
rejected one, which sends nothing, and 0 in every other step. The code 3 is never produced. -/
def Obligations.TxStatusHasItsCause : Prop :=
  ∀ (s t : State) (inp : PortInputs), inp.rst = false → step (s.withInputs [inp]) = .next t →
    txStatus t = (if s.enc.state = .idle ∧ inp.txValid = true then
      if inp.txLen.toNat ≤ 80 then 1 else 2 else 0) ∧
    (txStatus t = 1 → t.enc.state = .send ∧ t.enc.flen.toNat = inp.txLen.toNat + 7) ∧
    (txStatus t = 2 → t.enc = { s.enc with txStat := 2 })

/-! ## The host -/

/-- R141 to R143: both host queues are FIFOs of 16 Messages. `send` puts a Message at the back of the Outbound Queue, and
a SEND transaction takes its front, which the host offers on the TX port; a RECEIVE transaction puts the Message at the
back of the Inbound Queue, which takes no more than 16, and `receive_blocking` takes its front. That a call ends as
queued, full, refused or none, instead of blocking, and how a Message over 255 bytes is refused, which R141 leaves open,
are the model's choice (log 16, DESIGN CHOICE). -/
def Obligations.HostQueuesAreBoundedFifos : Prop :=
  (∀ (q : HostQueues) (m : Message),
    (255 < m.length → hostSend m q = .refused) ∧
    (m.length ≤ 255 → q.outQ.length < 16 → hostSend m q = .queued { q with outQ := q.outQ ++ [m] }) ∧
    (m.length ≤ 255 → 16 ≤ q.outQ.length → hostSend m q = .full) ∧
    (q.inQ = [] → hostReceive q = none) ∧
    (∀ x rest, q.inQ = x :: rest → hostReceive q = some (x, { q with inQ := rest }))) ∧
  ∀ (q : HostQueues) (s : State) (rst rxIn : Bool),
    let inp := hostInputs rst rxIn q
    let r := queuesAfter inp s q
    r.inQ = (if rst = false ∧ rxValid s = true ∧ q.inQ.length < 16 then q.inQ ++ [message s] else q.inQ) ∧
    (q.inQ.length ≤ 16 → r.inQ.length ≤ 16) ∧ (q.outQ.length ≤ 16 → r.outQ.length ≤ 16) ∧
    (q.outQ = [] → inp.txValid = false ∧ r.outQ = []) ∧
    (∀ x rest, q.outQ = x :: rest → x.length ≤ 255 →
      inp.txValid = true ∧ inp.txLen.toNat = x.length ∧ (∀ n, txBytes inp n = x) ∧
        r.outQ = (if rst = false ∧ txReady s = true then rest else q.outQ))

/-- R142, R148: a link of two blocks that meet the invariant steps on for ever; each block's line is the other's input;
each Inbound Queue stays within its depth, and each Outbound Queue loses its front exactly at a SEND transaction. That
the blocks step in lockstep is the model's choice (log 21), and the host beside them is log 16's. -/
def Obligations.LinkStepsWithinQueues : Prop :=
  ∀ (l : Link) (rstA rstB : Bool), l.a.Inv → l.b.Inv → l.hostA.inQ.length ≤ 16 → l.hostB.inQ.length ≤ 16 →
    ∃ l', Link.step rstA rstB l = .next l' ∧ l'.a.Inv ∧ l'.b.Inv ∧
      l'.hostA.inQ.length ≤ 16 ∧ l'.hostB.inQ.length ≤ 16 ∧
      (rstA = false → l'.a.cru.rxPrev = txOut l.b) ∧ (rstB = false → l'.b.cru.rxPrev = txOut l.a) ∧
      l'.hostA.outQ = (if rstA = false ∧ l.a.enc.state = .idle then l.hostA.outQ.tail else l.hostA.outQ) ∧
      l'.hostB.outQ = (if rstB = false ∧ l.b.enc.state = .idle then l.hostB.outQ.tail else l.hostB.outQ)
end

