-- ==== Sys2Proof/Laws/State.lean ====
section
/-! SUPPORT. One lemma per field per update of State, each true by rfl, so that no later proof unfolds a record update. -/

namespace Sys2Proof.Machine

variable (s : State)

@[simp] theorem State.setCrcR_par (c : Word16) : (s.setCrcR c).par = s.par := rfl
@[simp] theorem State.setCrcR_crcR (c : Word16) : (s.setCrcR c).crcR = c := rfl
@[simp] theorem State.setCrcR_cru (c : Word16) : (s.setCrcR c).cru = s.cru := rfl
@[simp] theorem State.setCrcR_dec (c : Word16) : (s.setCrcR c).dec = s.dec := rfl
@[simp] theorem State.setCrcR_enc (c : Word16) : (s.setCrcR c).enc = s.enc := rfl
@[simp] theorem State.setCrcR_inputs (c : Word16) : (s.setCrcR c).inputs = s.inputs := rfl
@[simp] theorem State.setCrcR_stepIx (c : Word16) : (s.setCrcR c).stepIx = s.stepIx := rfl
@[simp] theorem State.setCrcR_epoch (c : Word16) : (s.setCrcR c).epoch = s.epoch := rfl
@[simp] theorem State.setCrcR_taken (c : Word16) : (s.setCrcR c).taken = s.taken := rfl

@[simp] theorem State.setCru_par (c : Cru) : (s.setCru c).par = s.par := rfl
@[simp] theorem State.setCru_crcR (c : Cru) : (s.setCru c).crcR = s.crcR := rfl
@[simp] theorem State.setCru_cru (c : Cru) : (s.setCru c).cru = c := rfl
@[simp] theorem State.setCru_dec (c : Cru) : (s.setCru c).dec = s.dec := rfl
@[simp] theorem State.setCru_enc (c : Cru) : (s.setCru c).enc = s.enc := rfl
@[simp] theorem State.setCru_inputs (c : Cru) : (s.setCru c).inputs = s.inputs := rfl
@[simp] theorem State.setCru_stepIx (c : Cru) : (s.setCru c).stepIx = s.stepIx := rfl
@[simp] theorem State.setCru_epoch (c : Cru) : (s.setCru c).epoch = s.epoch := rfl
@[simp] theorem State.setCru_taken (c : Cru) : (s.setCru c).taken = s.taken := rfl

@[simp] theorem State.setDec_par (d : Dec) : (s.setDec d).par = s.par := rfl
@[simp] theorem State.setDec_crcR (d : Dec) : (s.setDec d).crcR = s.crcR := rfl
@[simp] theorem State.setDec_cru (d : Dec) : (s.setDec d).cru = s.cru := rfl
@[simp] theorem State.setDec_dec (d : Dec) : (s.setDec d).dec = d := rfl
@[simp] theorem State.setDec_enc (d : Dec) : (s.setDec d).enc = s.enc := rfl
@[simp] theorem State.setDec_inputs (d : Dec) : (s.setDec d).inputs = s.inputs := rfl
@[simp] theorem State.setDec_stepIx (d : Dec) : (s.setDec d).stepIx = s.stepIx := rfl
@[simp] theorem State.setDec_epoch (d : Dec) : (s.setDec d).epoch = s.epoch := rfl
@[simp] theorem State.setDec_taken (d : Dec) : (s.setDec d).taken = s.taken := rfl

@[simp] theorem State.setEnc_par (e : Enc) : (s.setEnc e).par = s.par := rfl
@[simp] theorem State.setEnc_crcR (e : Enc) : (s.setEnc e).crcR = s.crcR := rfl
@[simp] theorem State.setEnc_cru (e : Enc) : (s.setEnc e).cru = s.cru := rfl
@[simp] theorem State.setEnc_dec (e : Enc) : (s.setEnc e).dec = s.dec := rfl
@[simp] theorem State.setEnc_enc (e : Enc) : (s.setEnc e).enc = e := rfl
@[simp] theorem State.setEnc_inputs (e : Enc) : (s.setEnc e).inputs = s.inputs := rfl
@[simp] theorem State.setEnc_stepIx (e : Enc) : (s.setEnc e).stepIx = s.stepIx := rfl
@[simp] theorem State.setEnc_epoch (e : Enc) : (s.setEnc e).epoch = s.epoch := rfl
@[simp] theorem State.setEnc_taken (e : Enc) : (s.setEnc e).taken = s.taken := rfl

@[simp] theorem State.addTaken_par (m : Message) : (s.addTaken m).par = s.par := rfl
@[simp] theorem State.addTaken_crcR (m : Message) : (s.addTaken m).crcR = s.crcR := rfl
@[simp] theorem State.addTaken_cru (m : Message) : (s.addTaken m).cru = s.cru := rfl
@[simp] theorem State.addTaken_dec (m : Message) : (s.addTaken m).dec = s.dec := rfl
@[simp] theorem State.addTaken_enc (m : Message) : (s.addTaken m).enc = s.enc := rfl
@[simp] theorem State.addTaken_inputs (m : Message) : (s.addTaken m).inputs = s.inputs := rfl
@[simp] theorem State.addTaken_stepIx (m : Message) : (s.addTaken m).stepIx = s.stepIx := rfl
@[simp] theorem State.addTaken_epoch (m : Message) : (s.addTaken m).epoch = s.epoch := rfl
@[simp] theorem State.addTaken_taken (m : Message) : (s.addTaken m).taken = s.taken ++ [m] := rfl

@[simp] theorem State.withInputs_par (is : List PortInputs) : (s.withInputs is).par = s.par := rfl
@[simp] theorem State.withInputs_crcR (is : List PortInputs) : (s.withInputs is).crcR = s.crcR := rfl
@[simp] theorem State.withInputs_cru (is : List PortInputs) : (s.withInputs is).cru = s.cru := rfl
@[simp] theorem State.withInputs_dec (is : List PortInputs) : (s.withInputs is).dec = s.dec := rfl
@[simp] theorem State.withInputs_enc (is : List PortInputs) : (s.withInputs is).enc = s.enc := rfl
@[simp] theorem State.withInputs_inputs (is : List PortInputs) : (s.withInputs is).inputs = is := rfl
@[simp] theorem State.withInputs_stepIx (is : List PortInputs) : (s.withInputs is).stepIx = s.stepIx := rfl
@[simp] theorem State.withInputs_epoch (is : List PortInputs) : (s.withInputs is).epoch = s.epoch := rfl
@[simp] theorem State.withInputs_taken (is : List PortInputs) : (s.withInputs is).taken = s.taken := rfl

@[simp] theorem consume_par : (consume s).par = s.par := rfl
@[simp] theorem consume_crcR : (consume s).crcR = s.crcR := rfl
@[simp] theorem consume_cru : (consume s).cru = s.cru := rfl
@[simp] theorem consume_dec : (consume s).dec = s.dec := rfl
@[simp] theorem consume_enc : (consume s).enc = s.enc := rfl
@[simp] theorem consume_inputs : (consume s).inputs = s.inputs.tail := rfl
@[simp] theorem consume_stepIx : (consume s).stepIx = s.stepIx + 1 := rfl
@[simp] theorem consume_epoch : (consume s).epoch = s.epoch := rfl
@[simp] theorem consume_taken : (consume s).taken = s.taken := rfl

@[simp] theorem resetRegs_par : (resetRegs s).par = s.par := rfl
@[simp] theorem resetRegs_crcR : (resetRegs s).crcR = s.par.crcInit := rfl
@[simp] theorem resetRegs_cru : (resetRegs s).cru = Cru.reset := rfl
@[simp] theorem resetRegs_dec : (resetRegs s).dec = Dec.reset := rfl
@[simp] theorem resetRegs_enc : (resetRegs s).enc = Enc.reset := rfl
@[simp] theorem resetRegs_inputs : (resetRegs s).inputs = s.inputs := rfl
@[simp] theorem resetRegs_stepIx : (resetRegs s).stepIx = s.stepIx := rfl
@[simp] theorem resetRegs_epoch : (resetRegs s).epoch = s.epoch + 1 := rfl
@[simp] theorem resetRegs_taken : (resetRegs s).taken = s.taken := rfl

/-- Updates of different parts are kept; of the same part the last one counts. -/
@[simp] theorem State.setCru_setCru (a b : Cru) : (s.setCru a).setCru b = s.setCru b := rfl
@[simp] theorem State.setDec_setDec (a b : Dec) : (s.setDec a).setDec b = s.setDec b := rfl
@[simp] theorem State.setEnc_setEnc (a b : Enc) : (s.setEnc a).setEnc b = s.setEnc b := rfl
@[simp] theorem State.setCrcR_setCrcR (a b : Word16) : (s.setCrcR a).setCrcR b = s.setCrcR b := rfl
@[simp] theorem State.setCru_self : s.setCru s.cru = s := rfl
@[simp] theorem State.setDec_self : s.setDec s.dec = s := rfl
@[simp] theorem State.setEnc_self : s.setEnc s.enc = s := rfl
@[simp] theorem State.setCrcR_self : s.setCrcR s.crcR = s := rfl

/-! ## Going on after a result -/

@[simp] theorem andThen_next (f : State → Result) : andThen (.next s) f = f s := rfl
@[simp] theorem andThen_fault (r : Fault) (f : State → Result) : andThen (.fault r) f = .fault r := rfl
@[simp] theorem andThen_refused (r : Refusal) (f : State → Result) : andThen (.refused r) f = .refused r := rfl

/-- A sequence answers next exactly when both parts do. -/
theorem andThen_eq_next {o : Result} {f : State → Result} {t : State} :
    andThen o f = .next t ↔ ∃ u, o = .next u ∧ f u = .next t := by
  cases o <;> simp

theorem andThen_assoc (o : Result) (f g : State → Result) :
    andThen (andThen o f) g = andThen o (fun s => andThen (f s) g) := by
  cases o <;> rfl

end Sys2Proof.Machine
end

