-- ==== Sys2Proof/Laws/Memory.lean ====
section
/-! SUPPORT. The byte arrays: a read after a write, and the canonical form, which every write inside the array keeps. -/

namespace Sys2Proof.Machine

/-- A read gives the byte last written there, and elsewhere what it gave before. -/
theorem Memory.get?_put (m : Memory) (a b : Nat) (v : Byte) :
    (m.put a v).get? b = if b = a then some v else m.get? b := by
  induction m with
  | nil => rfl
  | cons c rest ih =>
    obtain ⟨i, w⟩ := c
    simp only [Memory.put]
    split
    · simp [Memory.get?]
    · split
      · next h => subst h; simp only [Memory.get?]; split <;> rfl
      · next h1 h2 => simp only [Memory.get?, ih]; split <;> (try split) <;> simp_all

@[simp] theorem Memory.get?_put_same (m : Memory) (a : Nat) (v : Byte) : (m.put a v).get? a = some v := by
  simp [Memory.get?_put]

theorem Memory.get?_put_other (m : Memory) {a b : Nat} (v : Byte) (h : b ≠ a) :
    (m.put a v).get? b = m.get? b := by
  simp [Memory.get?_put, h]

/-- Reading after a sequence of bytes was written from index `a` on. -/
theorem Memory.get?_putAll (vs : List Byte) (m : Memory) (a b : Nat) :
    (m.putAll a vs).get? b = if a ≤ b ∧ b < a + vs.length then vs[b - a]? else m.get? b := by
  induction vs generalizing m a with
  | nil => simp only [Memory.putAll, List.length_nil]; split <;> [omega; rfl]
  | cons v vs ih =>
    rw [Memory.putAll, ih, Memory.get?_put]
    simp only [List.length_cons]
    by_cases hb : b = a
    · subst hb; simp
    · by_cases h : a ≤ b ∧ b < a + (vs.length + 1)
      · have h' : a + 1 ≤ b ∧ b < a + 1 + vs.length := by omega
        obtain ⟨k, rfl⟩ : ∃ k, b = a + 1 + k := ⟨b - (a + 1), by omega⟩
        rw [if_pos h, if_pos h', show a + 1 + k - (a + 1) = k by omega, show a + 1 + k - a = k + 1 by omega,
          List.getElem?_cons_succ]
      · rw [if_neg h, if_neg (by omega), if_neg hb]

/-- All listed indexes are at least `k`. -/
def Memory.from (k : Nat) (m : Memory) : Prop := ∀ c ∈ m, k ≤ c.1

theorem Memory.wf_cons {size a : Nat} {v : Byte} {m : Memory} :
    Memory.wf size ((a, v) :: m) = true ↔ a < size ∧ Memory.wf size m = true ∧ Memory.from (a + 1) m := by
  induction m generalizing a v with
  | nil => simp [Memory.wf, Memory.from]
  | cons c rest ih =>
    obtain ⟨b, w⟩ := c
    simp only [Memory.wf, Bool.and_eq_true, decide_eq_true_eq]
    constructor
    · rintro ⟨hab, hwf⟩
      have h := ih.mp hwf
      refine ⟨by omega, hwf, ?_⟩
      rintro c hc
      rcases List.mem_cons.mp hc with rfl | hc
      · exact hab
      · have := h.2.2 c hc; omega
    · rintro ⟨-, hwf, hfrom⟩
      exact ⟨hfrom (b, w) (List.mem_cons_self ..), hwf⟩

theorem Memory.from_put {k a : Nat} {m : Memory} {v : Byte} (hm : Memory.from k m) (ha : k ≤ a) :
    Memory.from k (m.put a v) := by
  induction m with
  | nil => simpa [Memory.put, Memory.from] using ha
  | cons c rest ih =>
    obtain ⟨b, w⟩ := c
    have hb := hm (b, w) (List.mem_cons_self ..)
    have hrest : Memory.from k rest := fun c hc => hm c (List.mem_cons_of_mem _ hc)
    simp only [Memory.put]
    split
    · intro c hc; rcases List.mem_cons.mp hc with rfl | hc
      · exact ha
      · exact hm c hc
    · split
      · intro c hc; rcases List.mem_cons.mp hc with rfl | hc
        · exact ha
        · exact hrest c hc
      · intro c hc; rcases List.mem_cons.mp hc with rfl | hc
        · exact hb
        · exact ih hrest c hc

/-- A write inside the array keeps the canonical form. -/
theorem Memory.wf_put {size a : Nat} {m : Memory} {v : Byte} (hm : m.wf size = true) (ha : a < size) :
    (m.put a v).wf size = true := by
  induction m with
  | nil => simpa [Memory.put, Memory.wf] using ha
  | cons c rest ih =>
    obtain ⟨b, w⟩ := c
    obtain ⟨hb, hrest, hfrom⟩ := Memory.wf_cons.mp hm
    simp only [Memory.put]
    split
    · next h =>
      refine Memory.wf_cons.mpr ⟨ha, hm, ?_⟩
      intro c hc; rcases List.mem_cons.mp hc with rfl | hc
      · exact h
      · have := hfrom c hc; omega
    · split
      · next h => subst h; exact Memory.wf_cons.mpr ⟨ha, hrest, hfrom⟩
      · exact Memory.wf_cons.mpr ⟨hb, ih hrest, Memory.from_put hfrom (by omega)⟩

/-- Writing a sequence that fits keeps the canonical form. -/
theorem Memory.wf_putAll {size : Nat} (vs : List Byte) {a : Nat} {m : Memory} (hm : m.wf size = true)
    (ha : a + vs.length ≤ size) : (m.putAll a vs).wf size = true := by
  induction vs generalizing m a with
  | nil => exact hm
  | cons v vs ih =>
    simp only [List.length_cons] at ha
    exact ih (Memory.wf_put hm (by omega)) (by omega)

/-- Two canonical arrays that read alike at every index are the same list. -/
theorem Memory.ext_of_wf {size : Nat} {m n : Memory} (hm : m.wf size = true) (hn : n.wf size = true)
    (h : ∀ a, m.get? a = n.get? a) : m = n := by
  have none_of_from : ∀ {k : Nat} {m : Memory} {a : Nat}, Memory.from k m → a < k → m.get? a = none := by
    intro k m
    induction m with
    | nil => intros; rfl
    | cons c rest ih =>
      obtain ⟨b, w⟩ := c
      intro a hf ha
      have hb := hf (b, w) (List.mem_cons_self ..)
      simp only [Memory.get?]
      rw [if_neg (by have : k ≤ b := hb; omega), ih (fun c hc => hf c (List.mem_cons_of_mem _ hc)) ha]
  induction m generalizing n with
  | nil =>
    cases n with
    | nil => rfl
    | cons c rest => obtain ⟨b, w⟩ := c; have := h b; simp [Memory.get?] at this
  | cons c rest ih =>
    obtain ⟨a, v⟩ := c
    obtain ⟨-, hrest, hfrom⟩ := Memory.wf_cons.mp hm
    cases n with
    | nil => have := h a; simp [Memory.get?] at this
    | cons c' rest' =>
      obtain ⟨b, w⟩ := c'
      obtain ⟨-, hrest', hfrom'⟩ := Memory.wf_cons.mp hn
      have hab : a = b := by
        rcases Nat.lt_trichotomy a b with hlt | heq | hgt
        · have h1 := h a
          simp only [Memory.get?, if_pos, if_neg (show ¬ a = b by omega)] at h1
          rw [none_of_from hfrom' (by omega)] at h1; simp at h1
        · exact heq
        · have h1 := h b
          simp only [Memory.get?, if_pos, if_neg (show ¬ b = a by omega)] at h1
          rw [none_of_from hfrom (by omega)] at h1; simp at h1
      subst hab
      have hvw : v = w := by have := h a; simpa [Memory.get?] using this
      subst hvw
      congr 1
      refine ih hrest hrest' fun x => ?_
      by_cases hx : x = a
      · subst hx
        rw [none_of_from hfrom (by omega), none_of_from hfrom' (by omega)]
      · have := h x; simpa [Memory.get?, hx] using this

end Sys2Proof.Machine
end

