-- ==== Sys2Proof/Laws/Ops.lean ====
section
/-! SUPPORT. What each shared operation can do, said once: the parts of the state it leaves alone, and its cases. -/

namespace Sys2Proof.Machine

/-! ## Frames by part -/

/-- Only the encoder's registers may differ. -/
def OnlyEnc (s t : State) : Prop := t = s.setEnc t.enc

/-- Only the registers of the receive side may differ. -/
def OnlyRx (s t : State) : Prop := t = (s.setCru t.cru).setDec t.dec

theorem OnlyEnc.refl (s : State) : OnlyEnc s s := rfl

theorem OnlyEnc.setEnc (s : State) (e : Enc) : OnlyEnc s (s.setEnc e) := rfl

theorem OnlyEnc.trans {s t u : State} (h : OnlyEnc s t) (h' : OnlyEnc t u) : OnlyEnc s u := by
  unfold OnlyEnc at *; rw [h', h]; rfl

theorem OnlyRx.refl (s : State) : OnlyRx s s := rfl

theorem OnlyRx.setCru (s : State) (c : Cru) : OnlyRx s (s.setCru c) := rfl

theorem OnlyRx.setDec (s : State) (d : Dec) : OnlyRx s (s.setDec d) := rfl

theorem OnlyRx.trans {s t u : State} (h : OnlyRx s t) (h' : OnlyRx t u) : OnlyRx s u := by
  unfold OnlyRx at *; rw [h', h]; rfl

/-! ## Arming and ending -/

/-- ARM_CHECK arms under its guard, and otherwise changes nothing (R108). -/
theorem armCheck_cases (q : Nat) (pend : Bool) (s : State) :
    (armCheck q pend s = arm s ∧ s.dec.state = .awaitingPreamble ∧ s.cru.armed = false ∧ pend = false ∧
        s.par.rearmK * s.cru.lastPeriod ≤ q) ∨
      (armCheck q pend s = s ∧ ¬ (s.dec.state = .awaitingPreamble ∧ s.cru.armed = false ∧ pend = false ∧
        s.par.rearmK * s.cru.lastPeriod ≤ q)) := by
  unfold armCheck
  split
  · next h => exact .inl ⟨rfl, h⟩
  · next h => exact .inr ⟨rfl, h⟩

theorem armCheck_onlyRx (q : Nat) (pend : Bool) (s : State) : OnlyRx s (armCheck q pend s) := by
  rcases armCheck_cases q pend s with ⟨h, -⟩ | ⟨h, -⟩ <;> (rw [h]; rfl)

@[simp] theorem armCheck_dec (q : Nat) (pend : Bool) (s : State) : (armCheck q pend s).dec = s.dec := by
  rcases armCheck_cases q pend s with ⟨h, -⟩ | ⟨h, -⟩
  · rw [h]; rfl
  · rw [h]

@[simp] theorem arm_cru (s : State) :
    (arm s).cru = { s.cru with armed := true, edgeCnt := 0, sum := 0, ivl := 1 } := rfl

@[simp] theorem arm_dec (s : State) : (arm s).dec = s.dec := rfl

/-- TERMINAL's writes to the decoder (R123). -/
@[simp] theorem terminal_dec (code : BitVec 3) (pend : Bool) (s : State) :
    (terminal code pend s).dec = { s.dec with state := .awaitingPreamble, val := 0, bitCnt := 0, rxStat := code } := by
  simp [terminal]

theorem terminal_onlyRx (code : BitVec 3) (pend : Bool) (s : State) : OnlyRx s (terminal code pend s) :=
  ((OnlyRx.setCru s _).trans (OnlyRx.setDec _ _)).trans (armCheck_onlyRx ..)

/-- TERMINAL's writes to the CRU: it stays as it was armed, or its re-arm guard is already open (R108, R123). -/
theorem terminal_cru_cases (code : BitVec 3) (pend : Bool) (s : State) :
    ((terminal code pend s).cru =
        { s.cru with armed := true, edgeCnt := 0, sum := 0, ivl := 1, quiet := 0, lastPeriod := s.dec.period } ∧
        s.cru.armed = false ∧ pend = false ∧ s.par.rearmK * s.dec.period = 0) ∨
      ((terminal code pend s).cru = { s.cru with quiet := 0, lastPeriod := s.dec.period } ∧
        ¬ (s.cru.armed = false ∧ pend = false ∧ s.par.rearmK * s.dec.period = 0)) := by
  unfold terminal
  rcases armCheck_cases 0 pend ((s.setCru { s.cru with quiet := 0, lastPeriod := s.dec.period }).setDec
    { s.dec with state := .awaitingPreamble, val := 0, bitCnt := 0, rxStat := code }) with ⟨h, h'⟩ | ⟨h, h'⟩
  · left; rw [h]; simpa using h'
  · right; rw [h]; simpa using h'

/-- With a guard that asks for quiet (`REARM_K` and the period both positive), no attempt re-arms as it ends. -/
theorem terminal_cru_of_guard {code : BitVec 3} {pend : Bool} {s : State}
    (h : pend = true ∨ 0 < s.par.rearmK * s.dec.period) :
    (terminal code pend s).cru = { s.cru with quiet := 0, lastPeriod := s.dec.period } := by
  rcases terminal_cru_cases code pend s with ⟨-, -, hp, h0⟩ | ⟨h', -⟩
  · rcases h with rfl | h
    · simp at hp
    · omega
  · exact h'

/-- The unarmed CRU's step changes only `quiet`, and arms under the guard (R107, R108). -/
theorem quietStep_cases (e pend : Bool) (s : State) :
    ∃ q, q = (if e then 0 else sat s.par.cntW (s.cru.quiet + 1)) ∧
      ((quietStep e pend s = arm (s.setCru { s.cru with quiet := q }) ∧ s.dec.state = .awaitingPreamble ∧
          s.cru.armed = false ∧ pend = false ∧ s.par.rearmK * s.cru.lastPeriod ≤ q) ∨
        (quietStep e pend s = s.setCru { s.cru with quiet := q } ∧
          ¬ (s.dec.state = .awaitingPreamble ∧ s.cru.armed = false ∧ pend = false ∧
            s.par.rearmK * s.cru.lastPeriod ≤ q))) := by
  refine ⟨_, rfl, ?_⟩
  exact armCheck_cases _ pend (s.setCru { s.cru with quiet := if e then 0 else sat s.par.cntW (s.cru.quiet + 1) })

theorem quietStep_onlyRx (e pend : Bool) (s : State) : OnlyRx s (quietStep e pend s) :=
  (OnlyRx.setCru s _).trans (armCheck_onlyRx ..)

@[simp] theorem quietStep_dec (e pend : Bool) (s : State) : (quietStep e pend s).dec = s.dec := by
  simp [quietStep]

/-! ## Counting edges -/

/-- The three things a counted edge does (R94): it starts the timing, it adds an interval, or it is the eighth. -/
theorem countEdge_cases (s : State) :
    (s.cru.edgeCnt = 0 ∧ countEdge s = s.setCru { s.cru with edgeCnt := 1, ivl := 1 }) ∨
      (s.cru.edgeCnt ≠ 0 ∧ s.cru.edgeCnt.toNat < 7 ∧ countEdge s =
        s.setCru { s.cru with sum := s.cru.sum + s.cru.ivl, edgeCnt := s.cru.edgeCnt + 1, ivl := 1 }) ∨
      (7 ≤ s.cru.edgeCnt.toNat ∧
        countEdge s = eighth (s.cru.sum + s.cru.ivl) (s.setCru { s.cru with ivl := 1 })) := by
  unfold countEdge
  split
  · next h => exact .inl ⟨h, rfl⟩
  · next h =>
    split
    · next h' => simp only [Config.syncEdges] at h'; exact .inr (.inl ⟨h, by omega, rfl⟩)
    · next h' => simp only [Config.syncEdges] at h'; exact .inr (.inr ⟨by omega, rfl⟩)

theorem eighth_onlyRx (x : Nat) (s : State) : OnlyRx s (eighth x s) := rfl

theorem countEdge_onlyRx (s : State) : OnlyRx s (countEdge s) := by
  rcases countEdge_cases s with ⟨-, h⟩ | ⟨-, -, h⟩ | ⟨-, h⟩ <;> rw [h] <;> rfl

theorem countQuiet_onlyRx (s : State) : OnlyRx s (countQuiet s) := by
  unfold countQuiet; split <;> rfl

@[simp] theorem countQuiet_dec (s : State) : (countQuiet s).dec = s.dec := by
  unfold countQuiet; split <;> rfl

/-- A saturated count fits its width. -/
theorem sat_lt (n x : Nat) : sat n x < 2 ^ n := by
  have : 0 < 2 ^ n := Nat.two_pow_pos n
  unfold sat; omega

theorem sat_pos {n x : Nat} (hn : 1 ≤ n) (hx : 1 ≤ x) : 1 ≤ sat n x := by
  have : 2 ≤ 2 ^ n := by calc 2 = 2 ^ 1 := rfl
    _ ≤ 2 ^ n := Nat.pow_le_pow_right (by omega) hn
  unfold sat; omega

/-- The spacing is positive and fits its register, whatever the correction (R102, log 8). -/
theorem spacingOf_bounds {par : Params} (n p : Nat) (h : 1 ≤ par.cntW) :
    1 ≤ spacingOf par n p ∧ spacingOf par n p < 2 ^ par.cntW := by
  have h2 : 2 ≤ 2 ^ par.cntW := by calc 2 = 2 ^ 1 := rfl
    _ ≤ 2 ^ par.cntW := Nat.pow_le_pow_right (by omega) h
  simp only [spacingOf]
  split
  · next hx => exact ⟨by omega, hx⟩
  · have := Nat.mod_lt (Config.freeSpacing n) (show 0 < 2 ^ par.cntW - 1 by omega)
    omega

/-- With no correction the spacing is the period (R102). -/
theorem spacingOf_zero {par : Params} {n p : Nat} (h : par.timingCorr = 0) (hp : 1 ≤ p) (hw : p < 2 ^ par.cntW) :
    spacingOf par n p = p := by
  have : (max ((p : Int) - par.timingCorr) 1).toNat = p := by rw [h]; omega
  simp [spacingOf, this, hw]

/-- The rounded seventh of a sum of seven intervals is the nearest natural number (R99). -/
theorem seventh_nearest (x : Nat) : 7 * ((x + 3) / 7) ≤ x + 3 ∧ x ≤ 7 * ((x + 3) / 7) + 3 := by omega

/-! ## Sending -/

theorem beginByte_onlyEnc (pos : BitVec 7) (b : Byte) (s : State) : OnlyEnc s (beginByte pos b s) := rfl

theorem endFrame_onlyEnc (s : State) : OnlyEnc s (endFrame s) := by
  unfold endFrame; split <;> rfl

theorem gapStep_onlyEnc (s : State) : OnlyEnc s (gapStep s) := by
  unfold gapStep; split <;> rfl

theorem beginField_eq {f : Field} (v : Byte) (s : State) (h : f ≠ .preamble) :
    beginField f v s = .next (beginByte (s.enc.pos + 1) v s) := by
  cases f <;> first | rfl | exact absurd rfl h

/-- Past the first byte of a frame no position is the preamble's (R69). -/
theorem fieldAt_succ_ne_preamble (flen i : Nat) : fieldAt flen (i + 1) ≠ .preamble := by
  unfold fieldAt; split_ifs <;> simp_all

/-- What the end of a bit cell does (R135). -/
theorem endCell_cases {s t : State} (h : endCell s = .next t) :
    (s.enc.bitn.toNat < 7 ∧ ∃ w, readFbuf s s.enc.pos.toNat = some w ∧ t = s.setEnc { s.enc with
        hcnt := s.par.txHalf, bitn := s.enc.bitn + 1, hf := false, txLine := streamBit w (s.enc.bitn.toNat + 1) }) ∨
      (7 ≤ s.enc.bitn.toNat ∧ s.enc.pos.toNat + 1 < s.enc.flen.toNat ∧
        ∃ w, readFbuf s (s.enc.pos.toNat + 1) = some w ∧ t = beginByte (s.enc.pos + 1) w s) ∨
      (7 ≤ s.enc.bitn.toNat ∧ s.enc.flen.toNat ≤ s.enc.pos.toNat + 1 ∧ t = endFrame s) := by
  unfold endCell at h
  simp only at h
  split at h
  · next hb =>
    split at h
    · simp at h
    · next w hw => exact .inl ⟨hb, w, hw, by simpa using h.symm⟩
  · next hb =>
    split at h
    · next hp =>
      split at h
      · simp at h
      · next w hw =>
        rw [beginField_eq _ _ (fieldAt_succ_ne_preamble _ _)] at h
        exact .inr (.inl ⟨by omega, hp, w, hw, by simpa using h.symm⟩)
    · next hp => exact .inr (.inr ⟨by omega, by omega, by simpa using h.symm⟩)

/-- The serializer changes only the encoder (R61, R139). -/
theorem serialize_onlyEnc {b : Bool} {s t : State} (h : serialize b s = .next t) : OnlyEnc s t := by
  unfold serialize at h
  split at h
  · split at h
    · obtain rfl := by simpa using h.symm
      rfl
    · split at h
      · obtain rfl := by simpa using h.symm
        rfl
      · rcases endCell_cases h with ⟨-, w, -, rfl⟩ | ⟨-, -, w, -, rfl⟩ | ⟨-, -, rfl⟩
        · rfl
        · rfl
        · exact endFrame_onlyEnc s
  · obtain rfl := by simpa using h.symm
    rfl

/-! ## Sampling -/

/-- A word is its two bytes. -/
theorem hiByte_append_loByte (w : Word16) : hiByte w ++ loByte w = w := by
  ext i h
  simp only [hiByte, loByte, BitVec.getElem_append, BitVec.getElem_extractLsb']
  split
  · simp [BitVec.getLsbD_eq_getElem h]
  · rw [show 8 + (i - 8) = i by omega, BitVec.getLsbD_eq_getElem h]

/-- The bits before a byte and the byte are the value (R71): what a CRC byte's operand leaves out is in `val`. -/
theorem fieldWord_beforeByte (v : Word16) (s : State) :
    fieldWord (beforeByte v s).dec.val (loByte v) = v := by
  have h : ∀ b : Byte, loByte (b.setWidth 16) = b := by
    intro b; ext i hi; simp [loByte, BitVec.getLsbD_eq_getElem hi, show i < 16 by omega]
  simp only [beforeByte, State.setDec_dec, fieldWord, h, hiByte_append_loByte]

theorem beforeByte_onlyRx (v : Word16) (s : State) : OnlyRx s (beforeByte v s) := rfl

/-- What one sample does (R113, R115 to R121), said once: the field goes on, or its last bit completes it. -/
theorem stateRule_cases {v : Word16} {c : Nat} {s t : State} (h : stateRule v c s = .next t) :
    (s.dec.state = .awaitingPreamble ∧ t = s) ∨
    (s.dec.state ≠ .awaitingPreamble ∧ (c < 8 ∨ s.dec.state = .readingCrc ∧ c < 16) ∧ t = keepBits v c s) ∨
    (s.dec.state = .awaitingStart ∧ 8 ≤ c ∧
      (loByte v = 0x7E ∧ t = s.setDec (nextField .readingHeaderType s.dec) ∨
        loByte v ≠ 0x7E ∧ t = raiseError .framingStart s)) ∨
    (s.dec.state = .readingHeaderType ∧ 8 ≤ c ∧
      t = s.setDec { nextField .readingHeaderLength s.dec with typeR := loByte v }) ∨
    (s.dec.state = .readingHeaderLength ∧ 8 ≤ c ∧
      t = s.setDec { nextField (if loByte v = 0 then .readingCrc else .readingPayload) s.dec with
        lenR := loByte v, idx := 0 }) ∨
    (s.dec.state = .readingPayload ∧ 8 ≤ c ∧ s.dec.idx.toNat < 255 ∧
      t = s.setDec
        { nextField (if s.dec.idx.toNat + 1 = s.dec.lenR.toNat then .readingCrc else .readingPayload) s.dec with
          buf := s.dec.buf.put s.dec.idx.toNat (loByte v), idx := s.dec.idx + 1 }) ∨
    (s.dec.state = .readingCrc ∧ 16 ≤ c ∧
      (v = crc16 s.par (s.dec.typeR :: s.dec.lenR :: message s) ∧ t = s.setDec (nextField .awaitingEnd s.dec) ∨
        v ≠ crc16 s.par (s.dec.typeR :: s.dec.lenR :: message s) ∧
          t = raiseError (.integrity v (crc16 s.par (s.dec.typeR :: s.dec.lenR :: message s))) s)) ∨
    (s.dec.state = .awaitingEnd ∧ 8 ≤ c ∧
      (loByte v = 0x7E ∧ t = terminal rxOk true (s.setDec { s.dec with deliverPend := true }) ∨
        loByte v ≠ 0x7E ∧ t = raiseError .framingEnd s)) := by
  have crcHi : execCrcHi .rx (loByte v) (beforeByte v s) = .next (keepBits v 8 s) := by
    rw [execCrcHi, fieldWord_beforeByte]; rfl
  have inj : ∀ {u : State}, (Host.Outcome.next u : Result) = .next t → t = u := fun h => by simpa using h.symm
  cases hd : s.dec.state <;> simp only [stateRule, hd] at h
  case awaitingPreamble => exact .inl ⟨rfl, inj h⟩
  case readingCrc =>
    split at h
    · next h8 =>
      subst h8
      exact .inr (.inl ⟨nofun, by simp, inj (crcHi ▸ h)⟩)
    · split at h
      · next hc => exact .inr (.inl ⟨nofun, .inr ⟨rfl, hc⟩, inj h⟩)
      · simp only [execCrcLo, fieldWord_beforeByte] at h
        split at h
        · next hv => exact .inr (.inr (.inr (.inr (.inr (.inr (.inl ⟨rfl, by omega, .inl ⟨hv, inj h⟩⟩))))))
        · next hv => exact .inr (.inr (.inr (.inr (.inr (.inr (.inl ⟨rfl, by omega, .inr ⟨hv, inj h⟩⟩))))))
  all_goals
    split at h
    · next hc => exact .inr (.inl ⟨nofun, .inl hc, inj h⟩)
  case awaitingStart hc =>
    simp only [execStartFlag] at h
    split at h
    · next hv => exact .inr (.inr (.inl ⟨rfl, by omega, .inl ⟨hv, inj h⟩⟩))
    · next hv => exact .inr (.inr (.inl ⟨rfl, by omega, .inr ⟨hv, inj h⟩⟩))
  case readingHeaderType hc => exact .inr (.inr (.inr (.inl ⟨rfl, by omega, inj h⟩)))
  case readingHeaderLength hc => exact .inr (.inr (.inr (.inr (.inl ⟨rfl, by omega, inj h⟩))))
  case readingPayload hc =>
    simp only [execPayloadByte] at h
    split at h
    · next hi => exact .inr (.inr (.inr (.inr (.inr (.inl ⟨rfl, by omega, hi, by simpa [hd] using inj h⟩)))))
    · simp at h
  case awaitingEnd hc =>
    simp only [execEndFlag] at h
    split at h
    · next hv => exact .inr (.inr (.inr (.inr (.inr (.inr (.inr ⟨rfl, by omega, .inl ⟨hv, inj h⟩⟩))))))
    · next hv => exact .inr (.inr (.inr (.inr (.inr (.inr (.inr ⟨rfl, by omega, .inr ⟨hv, inj h⟩⟩))))))

/-- Every operation of the decoder on a completed field changes only the receive side. -/
theorem stateRule_onlyRx {v : Word16} {c : Nat} {s t : State} (h : stateRule v c s = .next t) : OnlyRx s t := by
  rcases stateRule_cases h with ⟨-, rfl⟩ | ⟨-, -, rfl⟩ | ⟨-, -, ⟨-, rfl⟩ | ⟨-, rfl⟩⟩ | ⟨-, -, rfl⟩ | ⟨-, -, rfl⟩ |
    ⟨-, -, -, rfl⟩ | ⟨-, -, ⟨-, rfl⟩ | ⟨-, rfl⟩⟩ | ⟨-, -, ⟨-, rfl⟩ | ⟨-, rfl⟩⟩
  all_goals first
    | rfl
    | exact terminal_onlyRx _ _ s
    | exact (OnlyRx.setDec s _).trans (terminal_onlyRx ..)

/-- The step of the sampling clock (R111), said once: not in an attempt, between samples, or a sample. -/
theorem readLevel_cases {b : Bool} {s t : State} (h : readLevel b s = .next t) :
    (s.dec.state = .awaitingPreamble ∧ t = s) ∨
    (s.dec.state ≠ .awaitingPreamble ∧ 1 < s.dec.wait ∧ t = s.setDec { s.dec with wait := s.dec.wait - 1 }) ∨
    (s.dec.state ≠ .awaitingPreamble ∧ s.dec.wait ≤ 1 ∧
      stateRule (shiftIn s.dec.val b) (s.dec.bitCnt.toNat + 1) (s.setDec { s.dec with wait := s.dec.spacing }) =
        .next t) := by
  unfold readLevel at h
  split at h
  · next hd => exact .inl ⟨hd, by simpa using h.symm⟩
  · next hd =>
    split at h
    · next hw => exact .inr (.inl ⟨hd, hw, by simpa using h.symm⟩)
    · next hw => exact .inr (.inr ⟨hd, by omega, h⟩)

theorem readLevel_onlyRx {b : Bool} {s t : State} (h : readLevel b s = .next t) : OnlyRx s t := by
  rcases readLevel_cases h with ⟨-, rfl⟩ | ⟨-, -, rfl⟩ | ⟨-, -, h⟩
  · rfl
  · rfl
  · exact (OnlyRx.setDec s _).trans (stateRule_onlyRx h)

end Sys2Proof.Machine
end

