-- ==== Sys2Proof/Laws/PerInstr.lean ====
section
/-! SUPPORT. One family of statements over the syntax, a lemma per constructor: the word of a well-formed operation has the
length its slot's format gives it (30_encoding.md R66, R69, R74, R75; log 22). -/

namespace Sys2Proof.Laws.SlotWord

/-- The bytes of a word in a slot; a SEND has the two port bytes and `tx_len` bytes of data. -/
def slotLength (i : Instr) : Slot → Nat
  | .symbol _ => 1
  | .frame _ _ => 1
  | .crcPort => 2
  | .rxPort => 1
  | .txPort =>
    match i with
    | .send len _ => 2 + len.toNat
    | _ => 2

/-- The word of a well-formed operation fills its slot's format exactly. -/
def Statement (i : Instr) : Prop := i.wellFormed = true → (encode i).length = slotLength i i.slot

theorem sym1 (d : Dir) : Statement (.sym1 d) := fun _ => rfl
theorem sym0 (d : Dir) : Statement (.sym0 d) := fun _ => rfl
theorem preamble (d : Dir) : Statement (.preamble d) := fun _ => rfl
theorem startFlag (d : Dir) (v : Byte) : Statement (.startFlag d v) := fun _ => rfl
theorem typeFlags (d : Dir) (v : Byte) : Statement (.typeFlags d v) := fun _ => rfl
theorem lengthByte (d : Dir) (v : Byte) : Statement (.lengthByte d v) := fun _ => rfl
theorem payloadByte (d : Dir) (v : Byte) : Statement (.payloadByte d v) := fun _ => rfl
theorem crcHi (d : Dir) (v : Byte) : Statement (.crcHi d v) := fun _ => rfl
theorem crcLo (d : Dir) (v : Byte) : Statement (.crcLo d v) := fun _ => rfl
theorem endFlag (d : Dir) (v : Byte) : Statement (.endFlag d v) := fun _ => rfl
theorem crcNop : Statement .crcNop := fun _ => rfl
theorem crcInit : Statement .crcInit := fun _ => rfl
theorem crcUpdate (din : Byte) : Statement (.crcUpdate din) := fun _ => rfl
theorem crcReserved : Statement .crcReserved := fun _ => rfl

theorem send (len : Byte) (data : List Byte) : Statement (.send len data) := by
  intro h
  have h : data.length = len.toNat := by simpa [Instr.wellFormed] using h
  simp only [encode, Instr.slot, slotLength, List.length_cons, h]
  omega

theorem receive : Statement .receive := fun _ => rfl

end Sys2Proof.Laws.SlotWord
end

