-- ==== Sys2Proof/Laws/Units.lean ====
section
/-! SUPPORT. Which operation each unit reads from its port in a step, and what a unit's step can do. -/

namespace Sys2Proof.Machine

/-! ## The words on the ports -/

/-- The operation `crc_op` selects (R75). -/
def crcOperation (op : BitVec 2) (din : Byte) : Instr :=
  if op = 0 then .crcNop else if op = 1 then .crcInit else if op = 2 then .crcUpdate din else .crcReserved

/-- Each of the four codes is an operation (R75). -/
theorem fetch_crcPort (inp : PortInputs) :
    fetch .crcPort (crcWord inp) = some (crcOperation inp.crcOp inp.crcDin) := by
  have : ∀ op : BitVec 2, ∀ din, fetch .crcPort [op.setWidth 8, din] = some (crcOperation op din) := by
    intro op din
    have h : op = 0 ∨ op = 1 ∨ op = 2 ∨ op = 3 := by revert op; decide
    rcases h with rfl | rfl | rfl | rfl <;> rfl
  exact this inp.crcOp inp.crcDin

@[simp] theorem length_txBytes (inp : PortInputs) (n : Nat) : (txBytes inp n).length = inp.txLen.toNat := by
  simp [txBytes]

/-- The TX port carries a SEND exactly when valid and ready are both 1 (R74). -/
theorem fetch_txPort (inp : PortInputs) (s : State) :
    fetch .txPort (txWord inp s) =
      if inp.txValid = true ∧ s.enc.state = .idle then some (.send inp.txLen (txBytes inp s.stepIx)) else none := by
  have hlen := length_txBytes inp s.stepIx
  have htake : (txBytes inp s.stepIx).take inp.txLen.toNat = txBytes inp s.stepIx := by
    rw [← hlen, List.take_length]
  have hs : ∀ v r, decodeHandshake (handshake v r) = if v = true ∧ r = true then .ok () else .error .noTransaction := by
    decide
  have hr : (txReady s = true) ↔ s.enc.state = .idle := by simp [txReady]
  simp only [fetch, txWord, decode, hs, hr]
  by_cases hc : inp.txValid = true ∧ s.enc.state = .idle
  · simp only [if_pos hc, hlen, le_refl, if_true, htake]
  · simp only [if_neg hc]

/-- The RX port carries a RECEIVE exactly when valid and ready are both 1 (R74). -/
theorem fetch_rxPort (inp : PortInputs) (s : State) :
    fetch .rxPort (rxWord inp s) =
      if s.dec.deliverPend = true ∧ inp.rxReady = true then some .receive else none := by
  cases hv : s.dec.deliverPend <;> cases he : inp.rxReady <;>
    simp [fetch, rxWord, hv, he, handshake, decode, decodeHandshake]

/-! ## The units -/

/-- The stand-alone generator's step always answers, and writes only `crc_r` (R88 to R91). -/
theorem crcSide_eq (inp : PortInputs) (s : State) :
    crcSide inp s = exec (crcOperation inp.crcOp inp.crcDin) s := by
  simp [crcSide, fetch_crcPort]

/-- What `crc_r` becomes in a step (R88 to R91). -/
def crcNext (p : Params) (c : Word16) (op : BitVec 2) (din : Byte) : Word16 :=
  if op = 1 then p.crcInit else if op = 2 then crcStep p.crcPoly c din else c

theorem crcSide_next (inp : PortInputs) (s : State) :
    crcSide inp s = .next (s.setCrcR (crcNext s.par s.crcR inp.crcOp inp.crcDin)) := by
  rw [crcSide_eq]
  have h : inp.crcOp = 0 ∨ inp.crcOp = 1 ∨ inp.crcOp = 2 ∨ inp.crcOp = 3 := by
    generalize inp.crcOp = op; revert op; decide
  rcases h with h | h | h | h <;> rw [h] <;> rfl

@[simp] theorem txBegin_par (s : State) : (txBegin s).par = s.par := rfl
@[simp] theorem txBegin_crcR (s : State) : (txBegin s).crcR = s.crcR := rfl
@[simp] theorem txBegin_cru (s : State) : (txBegin s).cru = s.cru := rfl
@[simp] theorem txBegin_dec (s : State) : (txBegin s).dec = s.dec := rfl
@[simp] theorem txBegin_enc (s : State) : (txBegin s).enc = { s.enc with txStat := txNone } := rfl
@[simp] theorem txBegin_stepIx (s : State) : (txBegin s).stepIx = s.stepIx := rfl
@[simp] theorem txBegin_epoch (s : State) : (txBegin s).epoch = s.epoch := rfl

/-- The transmit side's step in `IDLE` (R129, R130). -/
theorem txSide_idle {inp : PortInputs} {s : State} (h : s.enc.state = .idle) :
    txSide inp s = if inp.txValid = true then execSend inp.txLen (txBytes inp s.stepIx) (txBegin s)
      else .next (txBegin s) := by
  have hf : fetch .txPort (txWord inp (txBegin s)) =
      if inp.txValid = true then some (.send inp.txLen (txBytes inp s.stepIx)) else none := by
    rw [fetch_txPort]; simp [h]
  simp only [txSide, h, sendSide, hf]
  cases inp.txValid <;> rfl

theorem txSide_send {inp : PortInputs} {s : State} (h : s.enc.state = .send) :
    txSide inp s = symbolStep (txBegin s) := by
  simp only [txSide, h]

theorem txSide_gap {inp : PortInputs} {s : State} (h : s.enc.state = .gap) :
    txSide inp s = .next (gapStep (txBegin s)) := by
  simp only [txSide, h]

/-- In `SEND` the step is the serializer's, on the bit `fbuf[pos][7 - bitn]` (R134, R135). -/
theorem symbolStep_eq (s : State) :
    symbolStep s = match readFbuf s s.enc.pos.toNat with
      | some w => serialize (streamBit w s.enc.bitn.toNat) s
      | none => .fault .fbufIndex := by
  unfold symbolStep currentBit
  cases readFbuf s s.enc.pos.toNat with
  | none => rfl
  | some w =>
    simp only [Option.map_some]
    cases streamBit w s.enc.bitn.toNat <;> rfl

/-- The transmit side changes only the encoder's registers (R61). -/
theorem txSide_onlyEnc {inp : PortInputs} {s t : State} (h : txSide inp s = .next t) : OnlyEnc s t := by
  cases he : s.enc.state with
  | idle =>
    rw [txSide_idle he] at h
    split at h
    · simp only [execSend, txBegin_enc, he, if_true] at h
      split at h <;> obtain rfl := by simpa using h.symm
      all_goals rfl
    · obtain rfl := by simpa using h.symm
      rfl
  | send =>
    rw [txSide_send he, symbolStep_eq] at h
    split at h
    · exact (show OnlyEnc s (txBegin s) from rfl).trans (serialize_onlyEnc h)
    · simp at h
  | gap =>
    rw [txSide_gap he] at h
    obtain rfl := by simpa using h.symm
    exact (show OnlyEnc s (txBegin s) from rfl).trans (gapStep_onlyEnc _)

@[simp] theorem rxBegin_par (b : Bool) (s : State) : (rxBegin b s).par = s.par := rfl
@[simp] theorem rxBegin_crcR (b : Bool) (s : State) : (rxBegin b s).crcR = s.crcR := rfl
@[simp] theorem rxBegin_cru (b : Bool) (s : State) : (rxBegin b s).cru = { s.cru with rxPrev := b } := rfl
@[simp] theorem rxBegin_dec (b : Bool) (s : State) : (rxBegin b s).dec = { s.dec with rxStat := rxNone } := rfl
@[simp] theorem rxBegin_enc (b : Bool) (s : State) : (rxBegin b s).enc = s.enc := rfl
@[simp] theorem rxBegin_inputs (b : Bool) (s : State) : (rxBegin b s).inputs = s.inputs := rfl
@[simp] theorem rxBegin_stepIx (b : Bool) (s : State) : (rxBegin b s).stepIx = s.stepIx := rfl
@[simp] theorem rxBegin_epoch (b : Bool) (s : State) : (rxBegin b s).epoch = s.epoch := rfl
@[simp] theorem rxBegin_taken (b : Bool) (s : State) : (rxBegin b s).taken = s.taken := rfl

/-- In a decoder state that samples, the receive side's step is the DEC step (R110, R111). -/
theorem rxSide_reading {inp : PortInputs} {s : State} (h : s.dec.state ≠ .awaitingPreamble) :
    rxSide inp s = readLevel inp.rxIn (rxBegin inp.rxIn s) := by
  simp only [rxSide, h, if_false]
  cases inp.rxIn <;> rfl

/-- In `AwaitingPreamble` it is the RECEIVE, if there is one, then the CRU (R110). -/
theorem rxSide_waiting {inp : PortInputs} {s : State} (h : s.dec.state = .awaitingPreamble) :
    rxSide inp s = andThen
      (if s.dec.deliverPend = true ∧ inp.rxReady = true then execReceive (rxBegin inp.rxIn s)
       else .next (rxBegin inp.rxIn s))
      (cruSide (inp.rxIn != s.cru.rxPrev)) := by
  simp only [rxSide, h, if_true, receiveSide, fetch_rxPort, rxBegin_dec]
  congr 1
  by_cases hc : s.dec.deliverPend = true ∧ inp.rxReady = true
  · rw [if_pos hc, if_pos hc]; rfl
  · rw [if_neg hc, if_neg hc]

/-- The CRU's part always answers. -/
theorem cruSide_next (e : Bool) (s : State) (h : s.dec.state = .awaitingPreamble) :
    cruSide e s = .next
      (if s.cru.armed = true then if e = true then countEdge s else countQuiet s
       else quietStep e s.dec.deliverPend s) := by
  unfold cruSide
  split
  · next ha => split <;> simp [exec, execPreamble, h, ha]
  · rfl

/-- The CRU's part changes only the receive side's registers. -/
theorem cruSide_onlyRx {e : Bool} {s t : State} (h : s.dec.state = .awaitingPreamble)
    (ht : cruSide e s = .next t) : OnlyRx s t := by
  rw [cruSide_next e s h] at ht
  obtain rfl := by simpa using ht.symm
  split
  · split
    · exact countEdge_onlyRx s
    · exact countQuiet_onlyRx s
  · exact quietStep_onlyRx ..

/-- The receive side leaves the other units, the parameters and the model's indexes alone (R61). -/
theorem rxSide_frame {inp : PortInputs} {s t : State} (h : rxSide inp s = .next t) :
    t.par = s.par ∧ t.crcR = s.crcR ∧ t.enc = s.enc ∧ t.inputs = s.inputs ∧ t.stepIx = s.stepIx ∧
      t.epoch = s.epoch := by
  by_cases hd : s.dec.state = .awaitingPreamble
  · rw [rxSide_waiting hd, andThen_eq_next] at h
    obtain ⟨u, hu, ht⟩ := h
    have hus : u.dec.state = .awaitingPreamble ∧ u.par = s.par ∧ u.crcR = s.crcR ∧ u.enc = s.enc ∧
        u.inputs = s.inputs ∧ u.stepIx = s.stepIx ∧ u.epoch = s.epoch := by
      split at hu
      · simp only [execReceive] at hu
        split at hu <;> obtain rfl := by simpa using hu.symm
        all_goals simp [hd]
      · obtain rfl := by simpa using hu.symm
        simp [hd]
    obtain ⟨h1, h2⟩ := hus
    rw [cruSide_onlyRx h1 ht]
    simpa using h2
  · rw [rxSide_reading hd] at h
    rw [readLevel_onlyRx h]
    simp

/-! ## The clock step -/

/-- A step with `rst = 1` (R164). -/
theorem clockStep_reset {inp : PortInputs} {s : State} (h : inp.rst = true) :
    clockStep inp s = .next (resetRegs s) := by
  simp [clockStep, h]

/-- A step without reset: each unit's step, said once. If it answers `t`, the generator wrote `crc_r`, the transmit side
took `u`'s encoder, and the receive side ended in `t`. -/
theorem clockStep_cases {inp : PortInputs} {s t : State} (hr : inp.rst = false) (h : clockStep inp s = .next t) :
    ∃ u, txSide inp (s.setCrcR (crcNext s.par s.crcR inp.crcOp inp.crcDin)) = .next u ∧ rxSide inp u = .next t := by
  simp only [clockStep, hr, crcSide_next, andThen_next, andThen_eq_next, Bool.false_eq_true, if_false] at h
  exact h

/-- The next step under placed inputs is the clock step under them. -/
theorem step_withInputs (s : State) (inp : PortInputs) (rest : List PortInputs) :
    step (s.withInputs (inp :: rest)) = clockStep inp (consume (s.withInputs (inp :: rest))) := rfl

end Sys2Proof.Machine
end

