-- ==== Sys2Proof/Tests/Slice0.lean ====
section
/-! SUPPORT. The model's own tests: the checks of WellFormed, words written out from the spec's encodings, one step per
operation with the values of 95_test_vectors.md, and a witness for every statement that has hypotheses. -/

set_option Elab.async false

namespace Sys2Proof.Tests

open Sys2Proof.Machine

/-! ## Helpers -/

/-- The result is a next state of which `f` holds. -/
def nextIs (r : Result) (f : State → Bool) : Bool :=
  match r with
  | .next t => f t
  | _ => false

/-- The result is this fault. -/
def faultIs (r : Result) (x : Fault) : Bool :=
  match r with
  | .fault y => decide (x = y)
  | _ => false

theorem nextIs_exists {r : Result} {f : State → Bool} (h : nextIs r f = true) : ∃ t, r = .next t ∧ f t = true := by
  cases r with
  | next t => exact ⟨t, rfl, h⟩
  | fault x => simp [nextIs] at h
  | refused x => simp [nextIs] at h

/-- A quiet step with the line at a level. -/
def line (b : Bool) : PortInputs := { quietInputs with rxIn := b }

/-- A step of the stand-alone generator. -/
def crcIn (op : BitVec 2) (din : Byte) : PortInputs := { quietInputs with crcOp := op, crcDin := din }

/-- A step in which the host offers a Message. -/
def offer (m : Message) : PortInputs :=
  { quietInputs with txValid := true, txLen := BitVec.ofNat 8 m.length, txData := m }

/-- The reset state with the decoder registers changed, as inside an attempt. -/
def reading (d : DecState) (f : Dec → Dec) : State :=
  (State.reset.setCru { Cru.reset with armed := false }).setDec
    (f { Dec.reset with state := d, wait := 1, spacing := 1 })

/-- The reset state with the encoder registers changed. -/
def sendingState (f : Enc → Enc) : State :=
  State.reset.setEnc (f { Enc.reset with state := .send, hcnt := 1, flen := 8, fbuf := [(0, 0x55), (1, 0x7E)] })

/-- A state in which an empty Message waits on the RX port. -/
def waitingState : State :=
  (State.reset.setCru { Cru.reset with armed := false }).setDec { Dec.reset with deliverPend := true }

/-- A state in the gap after a frame. -/
def gapState (n : Nat) : State := State.reset.setEnc { Enc.reset with state := .gap, gcnt := n }

/-- An armed CRU that has counted `n` edges. -/
def counted (n : BitVec 4) (sum ivl : Nat) : State :=
  State.reset.setCru { Cru.reset with edgeCnt := n, sum := sum, ivl := ivl }

/-- A block of short timing, for runs. -/
def shortParams : Params := { Params.default with txHalf := 1, txGap := 2 }

/-! ## WellFormed: an ill-formed term for each check (R69, R74) -/

theorem test_illformed_start_flag : (Instr.startFlag .tx 0x7F).wellFormed = false := by decide
theorem test_illformed_type : (Instr.typeFlags .tx 0x01).wellFormed = false := by decide
theorem test_illformed_length : (Instr.lengthByte .tx 81).wellFormed = false := by decide
theorem test_illformed_end_flag : (Instr.endFlag .tx 0x00).wellFormed = false := by decide
theorem test_illformed_send : (Instr.send 3 [1, 2]).wellFormed = false := by decide
theorem test_wellformed_received_fields :
    (Instr.startFlag .rx 0x00).wellFormed = true ∧ (Instr.typeFlags .rx 0xFF).wellFormed = true ∧
      (Instr.lengthByte .rx 255).wellFormed = true ∧ (Instr.endFlag .rx 0x00).wellFormed = true := by decide

/-! ## Decode: one word per constructor, written out from the spec's encodings -/

/-- R66: `10` is a 1. -/
theorem test_decode_sym1 : decode (.symbol .tx) [0b10] = .ok (.sym1 .tx, []) := by decide
/-- R66: `01` is a 0. -/
theorem test_decode_sym0 : decode (.symbol .rx) [0b01] = .ok (.sym0 .rx, []) := by decide
/-- R67: `11` is read as 1 and never sent. -/
theorem test_decode_violation :
    decode (.symbol .rx) [0b11] = .ok (.sym1 .rx, []) ∧
      decode (.symbol .tx) [0b11] = .error .manchesterViolation ∧
      decode (.symbol .tx) [0b100] = .error .strayBits := by decide
/-- R69: `01010101`. -/
theorem test_decode_preamble : decode (.frame .tx .preamble) [0b01010101] = .ok (.preamble .tx, []) := by decide
/-- R69: `01111110`. -/
theorem test_decode_start_flag : decode (.frame .tx .startFlag) [0b01111110] = .ok (.startFlag .tx 0x7E, []) := by decide
/-- R73: any type byte is accepted on reception, only `0x00` is sent. -/
theorem test_decode_type :
    decode (.frame .rx .typeFlags) [0xA5] = .ok (.typeFlags .rx 0xA5, []) ∧
      decode (.frame .tx .typeFlags) [0xA5] = .error .notSent := by decide
/-- R69: length 80 is the longest sent. -/
theorem test_decode_length :
    decode (.frame .tx .lengthByte) [0x50] = .ok (.lengthByte .tx 80, []) ∧
      decode (.frame .tx .lengthByte) [0x51] = .error .notSent ∧
      decode (.frame .rx .lengthByte) [0xFF] = .ok (.lengthByte .rx 255, []) := by decide
/-- R53: a payload byte `0x7E` is data. -/
theorem test_decode_payload : decode (.frame .rx .payloadByte) [0x7E, 0x01] = .ok (.payloadByte .rx 0x7E, [0x01]) := by
  decide
theorem test_decode_crc_hi : decode (.frame .rx .crcHi) [0xA7] = .ok (.crcHi .rx 0xA7, []) := by decide
theorem test_decode_crc_lo : decode (.frame .tx .crcLo) [0x48] = .ok (.crcLo .tx 0x48, []) := by decide
theorem test_decode_end_flag :
    decode (.frame .tx .endFlag) [0x7E] = .ok (.endFlag .tx 0x7E, []) ∧
      decode (.frame .tx .endFlag) [0x7F] = .error .notSent := by decide
/-- R75: the four codes. -/
theorem test_decode_crc_ops :
    decode .crcPort [0b00, 0x55] = .ok (.crcNop, []) ∧ decode .crcPort [0b01, 0x55] = .ok (.crcInit, []) ∧
      decode .crcPort [0b10, 0x55] = .ok (.crcUpdate 0x55, []) ∧
      decode .crcPort [0b11, 0x99] = .ok (.crcReserved, []) := by decide
/-- R74: SEND of `48 69`. -/
theorem test_decode_send :
    decode .txPort [0b11, 2, 0x48, 0x69, 0x00] = .ok (.send 2 [0x48, 0x69], [0x00]) ∧
      decode .txPort [0b10, 0] = .error .noTransaction ∧ decode .txPort [0b11, 2, 0x48] = .error .tooShort := by decide
/-- R74: RECEIVE. -/
theorem test_decode_receive :
    decode .rxPort [0b11] = .ok (.receive, []) ∧ decode .rxPort [0b01] = .error .noTransaction := by decide
theorem test_table_words :
    decodeTableWord 8 0 = some .crcNop ∧ decodeTableWord 8 1 = some .crcInit ∧
      decodeTableWord 8 2 = some (.crcUpdate 0) ∧ decodeTableWord 8 3 = some .crcReserved ∧
      decodeTableWord 8 0x55 = some (.preamble .rx) ∧ decodeTableWord 8 0x7E = some (.startFlag .rx 0x7E) := by decide

/-! ## CRC-16 (V-CRC, V-CRCOP) -/

/-- V-CRC-3. -/
theorem test_crc_spans :
    crc16 Params.default [0x00] = 0xE1F0 ∧ crc16 Params.default [0xFF] = 0xFF00 ∧
      crc16 Params.default [0x41] = 0xB915 := by decide +kernel
/-- V-CRC-4. -/
theorem test_crc_frame_spans :
    crc16 Params.default [0x00, 0x01, 0x41] = 0xA748 ∧ crc16 Params.default [0x00, 0x01, 0x7E] = 0x60F4 ∧
      crc16 Params.default [0x00, 0x05, 0x41, 0xA7, 0x48, 0x7E, 0x00] = 0x2DF7 := by decide +kernel
/-- V-CRCOP-1. -/
theorem test_crc_init :
    nextIs (step ((State.reset.setCrcR 0x1234).withInputs [crcIn 0b01 0])) (fun t => t.crcR == 0xFFFF && crcOut t == 0xFFFF) =
      true := by decide +kernel
/-- V-CRCOP-2. -/
theorem test_crc_update :
    nextIs (step (State.reset.withInputs [crcIn 0b10 0x00])) (fun t => t.crcR == 0xE1F0) = true := by decide +kernel
/-- V-CRCOP-3. -/
theorem test_crc_nop :
    nextIs (step ((State.reset.setCrcR 0x1234).withInputs [crcIn 0b00 0x55])) (fun t => t.crcR == 0x1234) = true := by
  decide +kernel
/-- V-CRCOP-4. -/
theorem test_crc_reserved :
    nextIs (step ((State.reset.setCrcR 0x1234).withInputs [crcIn 0b11 0x99])) (fun t => t.crcR == 0x1234) = true := by
  decide +kernel

/-! ## Frames and symbols (V-SYM, V-FRM, V-ENC) -/

/-- V-SYM-3: the halves of `0x7E`. -/
theorem test_halves_of_7E : halfLevels [0x7E] =
    [false, true, true, false, true, false, true, false, true, false, true, false, true, false, false, true] := by
  decide +kernel
/-- V-FRM-1, V-FRM-3. -/
theorem test_frames :
    frame Params.default [] = [0x55, 0x7E, 0x00, 0x00, 0x1D, 0x0F, 0x7E] ∧
      frame Params.default [0x48, 0x69] = [0x55, 0x7E, 0x00, 0x02, 0x48, 0x69, 0x93, 0x4A, 0x7E] := by decide +kernel
/-- V-ENC-1: SEND of `41` at step 0; `fbuf`, and what shows at step 1. -/
theorem test_send_accepted :
    nextIs (step (State.reset.withInputs [offer [0x41]])) (fun t =>
      t.enc.fbuf == [(0, 0x55), (1, 0x7E), (2, 0x00), (3, 0x01), (4, 0x41), (5, 0xA7), (6, 0x48), (7, 0x7E)] &&
        txStatus t == 1 && txReady t == false && txOut t == false && t.enc.hcnt == 10) = true := by decide +kernel
/-- V-ENC-3: SEND of 81 bytes. -/
theorem test_send_rejected :
    nextIs (step (State.reset.withInputs [offer (List.replicate 81 0)])) (fun t =>
      txStatus t == 2 && txReady t == true && t.enc.fbuf == []) = true := by decide +kernel
/-- R135: the second half of a 0 is high. -/
theorem test_sym0_tx : nextIs (exec (.sym0 .tx) (sendingState id)) (fun t => t.enc.hf && txOut t && t.enc.hcnt == 10) =
    true := by decide +kernel
/-- R135: after the second half of the first bit of `0x55`, a 0, comes its second bit, a 1. -/
theorem test_sym0_tx_next_bit :
    nextIs (exec (.sym0 .tx) (sendingState fun e => { e with hf := true, txLine := true })) (fun t =>
      t.enc.bitn == 1 && t.enc.hf == false && txOut t == true) = true := by decide +kernel
/-- R135: after the last bit of `0x55`, a 1, the first bit of `0x7E`, a 0. -/
theorem test_sym1_tx_next_byte :
    nextIs (exec (.sym1 .tx) (sendingState fun e => { e with bitn := 7, hf := true })) (fun t =>
      t.enc.pos == 1 && t.enc.bitn == 0 && txOut t == false) = true := by decide +kernel
/-- R135, R136: the end of a frame, V-ENC-7's values. -/
theorem test_sym0_tx_frame_end :
    nextIs (exec (.sym0 .tx) (sendingState fun e => { e with pos := 7, bitn := 7, hf := true, txLine := true })) (fun t =>
      decide (t.enc.state = .gap) && t.enc.gcnt == 80 && txOut t == false && t.enc.pos == 7 && t.enc.hcnt == 10) = true := by
  decide +kernel
/-- A read past `fbuf` stops (log 9). -/
theorem test_fbuf_index_faults :
    faultIs (exec (.sym0 .tx) (sendingState fun e => { e with pos := 87, hf := true })) .fbufIndex = true := by
  decide +kernel
theorem test_begin_field : nextIs (exec (.crcHi .tx 0xA7) (sendingState id)) (fun t => t.enc.pos == 1 && txOut t) =
    true := by decide +kernel

/-! ## Clock recovery (V-CRU) -/

/-- V-CRU-1: the eighth edge with the sum 140. -/
theorem test_preamble_eighth_edge :
    nextIs (exec (.preamble .rx) (counted 7 120 20)) (fun t =>
      t.dec.period == 20 && t.dec.half == 10 && t.dec.offset == 1 && t.dec.spacing == 20 && t.dec.wait == 11 &&
        decide (t.dec.state = .awaitingStart) && t.cru.armed == false) = true := by decide +kernel
/-- V-CRU-2, V-CRU-4: the sums 7, 136 and 144. -/
theorem test_estimates :
    (eighth 7 State.reset).dec.wait = 1 ∧ (eighth 7 State.reset).dec.spacing = 1 ∧
      (eighth 136 State.reset).dec.wait = 9 ∧ (eighth 136 State.reset).dec.offset = 0 ∧
      (eighth 144 State.reset).dec.period = 21 ∧ (eighth 144 State.reset).dec.wait = 11 := by decide +kernel
/-- V-CRU-7: a level that differs from the step before is an edge, and one that does not is none. -/
theorem test_edge_detection :
    nextIs (step (State.reset.withInputs [line true])) (fun t => t.cru.edgeCnt == 1 && t.cru.rxPrev) = true ∧
      nextIs (step (State.reset.withInputs [line false])) (fun t => t.cru.edgeCnt == 0 && t.cru.ivl == 1) = true := by
  decide +kernel
/-- V-CRU-9: `ivl` saturates. -/
theorem test_ivl_saturates :
    nextIs (step ((counted 3 0 4294967295).withInputs [line false])) (fun t => t.cru.ivl == 4294967295) = true := by
  decide +kernel
/-- V-CRU-11 with `REARM_K` 2: the 40th quiet step arms. -/
theorem test_rearm :
    nextIs (step (((State.reset.setCru { Cru.reset with armed := false, quiet := 39, lastPeriod := 20 })).withInputs
      [line false])) (fun t => t.cru.armed && t.cru.quiet == 40) = true ∧
    nextIs (step (((State.reset.setCru { Cru.reset with armed := false, quiet := 38, lastPeriod := 20 })).withInputs
      [line false])) (fun t => t.cru.armed == false) = true := by decide +kernel

/-! ## The decoder (V-DEC) -/

/-- V-DEC-1, V-DEC-7: the eighth sample of `0x7E`, and of `0xFE`. -/
theorem test_start_flag :
    nextIs (exec (.sym0 .rx) (reading .awaitingStart fun d => { d with bitCnt := 7, val := 0x3F })) (fun t =>
      decide (t.dec.state = .readingHeaderType) && t.dec.val == 0 && t.dec.bitCnt == 0) = true ∧
    nextIs (exec (.sym0 .rx) (reading .awaitingStart fun d => { d with bitCnt := 7, val := 0x7F })) (fun t =>
      decide (t.dec.state = .awaitingPreamble) && rxStatus t == 2) = true := by decide +kernel
/-- R116: any type byte. -/
theorem test_type : nextIs (exec (.typeFlags .rx 0x01) (reading .readingHeaderType id)) (fun t =>
    t.dec.typeR == 0x01 && decide (t.dec.state = .readingHeaderLength)) = true := by decide +kernel
/-- V-DEC-3, V-DEC-10. -/
theorem test_length :
    nextIs (exec (.lengthByte .rx 1) (reading .readingHeaderLength id)) (fun t =>
      t.dec.lenR == 1 && decide (t.dec.state = .readingPayload)) = true ∧
    nextIs (exec (.lengthByte .rx 0) (reading .readingHeaderLength id)) (fun t =>
      decide (t.dec.state = .readingCrc)) = true := by decide +kernel
/-- V-DEC-4: the last sample of `0x41`. -/
theorem test_payload :
    nextIs (exec (.sym1 .rx) (reading .readingPayload fun d => { d with bitCnt := 7, val := 0x20, lenR := 1 })) (fun t =>
      t.dec.buf == [(0, 0x41)] && t.dec.idx == 1 && decide (t.dec.state = .readingCrc)) = true ∧
    faultIs (exec (.payloadByte .rx 0) (reading .readingPayload fun d => { d with idx := 255 })) .bufIndex = true := by
  decide +kernel
/-- V-DEC-5: the sixteenth sample of `0xA748`. -/
theorem test_crc_match :
    nextIs (exec (.sym0 .rx) (reading .readingCrc fun d =>
        { d with bitCnt := 15, val := 0x53A4, lenR := 1, idx := 1, buf := [(0, 0x41)] })) (fun t =>
      decide (t.dec.state = .awaitingEnd)) = true := by decide +kernel
/-- V-DEC-8: `0xA748` against `0x36C0`. -/
theorem test_crc_mismatch :
    nextIs (exec (.sym0 .rx) (reading .readingCrc fun d =>
        { d with bitCnt := 15, val := 0x53A4, lenR := 1, idx := 1, buf := [(0, 0xC1)] })) (fun t =>
      decide (t.dec.state = .awaitingPreamble) && rxStatus t == 3 && rxValid t == false) = true := by decide +kernel
/-- R120: the eighth CRC bit leaves the high byte in `val`. -/
theorem test_crc_hi :
    nextIs (exec (.sym1 .rx) (reading .readingCrc fun d => { d with bitCnt := 7, val := 0x53 })) (fun t =>
      t.dec.val == 0xA7 && t.dec.bitCnt == 8 && decide (t.dec.state = .readingCrc)) = true := by decide +kernel
/-- V-DEC-6, V-DEC-9. -/
theorem test_end_flag :
    nextIs (exec (.endFlag .rx 0x7E) (reading .awaitingEnd id)) (fun t => rxStatus t == 1 && rxValid t) = true ∧
    nextIs (exec (.endFlag .rx 0x7F) (reading .awaitingEnd id)) (fun t => rxStatus t == 4 && rxValid t == false) = true := by
  decide +kernel
/-- R124. -/
theorem test_receive :
    nextIs (exec .receive waitingState) (fun t => rxValid t == false && t.taken == [[]]) = true ∧
      nextIs (exec .receive State.reset) (fun t => decide (t = State.reset)) = true := by decide +kernel
/-- A whole frame of `[41]` with the type byte `0x01`, field by field (V-DEC-11). -/
theorem test_frame_received :
    nextIs (execAll (receptions Params.default 0x01 [0x41]) (reading .awaitingStart id)) (fun t =>
      message t == [0x41] && rxStatus t == 1) = true := by decide +kernel

/-! ## Reset and placing words -/

/-- V-RST-1. -/
theorem test_reset :
    nextIs (step ((sendingState fun e => { e with txLine := true }).withInputs [{ line true with rst := true }])) (fun t =>
      txOut t == false && txReady t && t.cru.edgeCnt == 0 && t.cru.armed && t.epoch == 1) = true := by decide +kernel
theorem test_place_start_flag :
    nextIs (step (State.reset.withFetchWord 8 0x7E)) (fun t => decide (t.dec.state = .readingHeaderType)) = true := by
  decide +kernel
theorem test_place_preamble :
    nextIs (step (State.reset.withFetchWord 8 0x55)) (fun t => t.dec.period == 20) = true := by decide +kernel
theorem test_place_payload :
    nextIs (step (State.reset.withFetchWord 8 0x41)) (fun t => t.dec.buf == [(0, 0x41)]) = true := by decide +kernel
theorem test_place_crc_update :
    nextIs (step (State.reset.withFetchWord 8 2)) (fun t => t.crcR == 0xE1F0) = true := by decide +kernel
/-- R141, V-HOST: a full queue takes no more. -/
theorem test_host_queue :
    hostSend [0x41] { outQ := List.replicate 16 [0x41], inQ := [] } = .full ∧
      hostSend [0x41] { outQ := List.replicate 15 [0x41], inQ := [] } =
        .queued { outQ := List.replicate 16 [0x41], inQ := [] } := by decide +kernel
/-- R80: the program of P6 offers its first Message from step 0. -/
theorem test_program_boundary :
    (HostProgram.start [.readyRx true, .send [1], .wait 2]).boundary.offer = some [1] ∧
      (HostProgram.start [.readyRx true, .send [1], .wait 2]).boundary.ready = true := by decide +kernel

/-- R141, I12: the host refuses a SEND of 256 bytes and takes one of 255 (how it refuses is log 23). -/
theorem test_program_refuses_long_send :
    (HostProgram.start [.send (List.replicate 256 0), .send [1]]).boundary.offer = some [1] ∧
      (HostProgram.start [.send (List.replicate 256 0)]).boundary.refused = [List.replicate 256 0] ∧
      (HostProgram.start [.send (List.replicate 255 0)]).boundary.offer = some (List.replicate 255 0) := by
  decide +kernel

/-! ## Witnesses: a concrete state and operands for the hypotheses of each statement, at a boundary of each clause -/

theorem noReset_line (bs : List Bool) : noReset (bs.map line) := by
  intro x hx
  obtain ⟨b, -, rfl⟩ := List.mem_map.mp hx
  rfl

theorem noReset_replicate (n : Nat) {x : PortInputs} (h : x.rst = false) : noReset (List.replicate n x) := by
  intro y hy
  rw [List.eq_of_mem_replicate hy]
  exact h

theorem map_line_rxIn (bs : List Bool) : (bs.map line).map (·.rxIn) = bs := by
  rw [List.map_map]
  exact List.map_id bs

/-- A block of short timing, idle. -/
def shortState : State := State.resetWith shortParams

/-- A block of short timing with an empty Message waiting. -/
def shortWaiting : State :=
  (shortState.setCru { Cru.reset with armed := false }).setDec { Dec.reset with deliverPend := true }

/-- A block of short timing that has just accepted an empty Message. -/
def shortSending : State :=
  shortState.setEnc { Enc.reset with
    state := .send, hcnt := 1, flen := 7,
    fbuf := [(0, 0x55), (1, 0x7E), (2, 0x00), (3, 0x00), (4, 0x1D), (5, 0x0F), (6, 0x7E)] }

/-- A block of short timing before the last byte of the longest payload. -/
def shortReading : State :=
  (shortState.setCru { Cru.reset with armed := false }).setDec { Dec.reset with
    state := .readingPayload, wait := 1, spacing := 1, lenR := 255, idx := 254,
    buf := (List.range 254).map (fun i => (i, 0x5A)) }

theorem shortState_inv : shortState.Inv := by
  refine ⟨by decide, ?_, ?_, ?_⟩
  · constructor <;> decide +kernel
  · constructor <;> first | decide +kernel | exact fun h => absurd h (by decide)
  · constructor <;> first | decide +kernel | exact fun h => absurd h (by decide)

theorem shortWaiting_inv : shortWaiting.Inv := by
  refine ⟨by decide, ?_, ?_, ?_⟩
  · constructor <;> decide +kernel
  · constructor <;> first | decide +kernel | exact fun h => absurd h (by decide) |
      exact fun _ => ⟨rfl, fun i h => absurd h (Nat.not_lt_zero i)⟩
  · constructor <;> first | decide +kernel | exact fun h => absurd h (by decide)

theorem shortReading_inv : shortReading.Inv := by
  refine ⟨by decide, ?_, ?_, ?_⟩
  · constructor <;> decide +kernel
  · constructor
    case payload => exact fun _ => ⟨by decide, by unfold Memory.written; decide +kernel⟩
    all_goals first | decide +kernel | exact fun h => absurd h (by decide)
  · constructor <;> first | decide +kernel | exact fun h => absurd h (by decide)

theorem shortSending_inv : shortSending.Inv := by
  refine ⟨by decide, ?_, ?_, ?_⟩
  · constructor <;> decide +kernel
  · constructor <;> first | decide +kernel | exact fun h => absurd h (by decide)
  · constructor
    case sending => exact fun _ => ⟨[], by decide +kernel⟩
    all_goals decide +kernel

theorem witness_DecodeAfterEncode :
    (Instr.send 255 (List.replicate 255 0x7E)).wellFormed = true ∧ (Instr.send 0 []).wellFormed = true ∧
      (Instr.lengthByte .tx 80).wellFormed = true ∧ (Instr.startFlag .rx 0xFF).wellFormed = true := by decide +kernel

theorem witness_DecodedIsWellFormed :
    decode .txPort [0b11, 0, 0x99] = .ok (.send 0 [], [0x99]) ∧
      decode (.frame .tx .startFlag) [0x7E, 0x00] = .ok (.startFlag .tx 0x7E, [0x00]) ∧
      decode .crcPort [0b11, 0x01, 0x02] = .ok (.crcReserved, [0x02]) := by decide

theorem witness_StepRunsDecodedOperations :
    decode .crcPort (crcWord (crcIn 0b10 0x41)) = .ok (.crcUpdate 0x41, []) ∧
    (State.reset.enc.state = .idle ∧
      decode .txPort (txWord (offer [0x41]) State.reset) = .ok (.send 1 [0x41], [])) ∧
    (shortSending.enc.state = .send ∧ currentBit shortSending = some false) ∧
    (waitingState.dec.state = .awaitingPreamble ∧
      decode .rxPort (rxWord { quietInputs with rxReady := true } waitingState) = .ok (.receive, [])) ∧
    State.reset.cru.armed = true ∧ shortReading.dec.state ≠ .awaitingPreamble := by decide +kernel

/-- The span `41` and the empty span. -/
theorem witness_CrcPortComputesCrc16 :
    (noReset [crcIn 1 0, crcIn 2 0x41] ∧ (crcIn 1 0).crcOp = 1 ∧
      [crcIn 2 0x41].map (fun x => (x.crcOp, x.crcDin)) = [(0x41 : Byte)].map (fun b => (2, b)) ∧
      ∃ t, runWith [crcIn 1 0, crcIn 2 0x41] State.reset = .next t) ∧
    noReset [crcIn 1 0] ∧ ∃ t, runWith [crcIn 1 0] State.reset = .next t := by
  refine ⟨⟨by unfold noReset; decide, rfl, rfl, ?_⟩, by unfold noReset; decide, ?_⟩
  · obtain ⟨t, h, -⟩ := nextIs_exists (f := fun t => crcOut t == 0xB915)
      (show nextIs (runWith [crcIn 1 0, crcIn 2 0x41] State.reset) _ = true by decide +kernel)
    exact ⟨t, h⟩
  · obtain ⟨t, h, -⟩ := nextIs_exists (f := fun t => crcOut t == 0xFFFF)
      (show nextIs (runWith [crcIn 1 0] State.reset) _ = true by decide +kernel)
    exact ⟨t, h⟩

theorem witness_CrcIsLinear : ([0x41, 0x7E] : List Byte).length = ([0x01, 0xFF] : List Byte).length := by decide

theorem witness_CrcDetectsOneByte :
    Params.default.crcPoly.getLsbD 0 = true ∧ 1 < ([0x41, 0x7E] : List Byte).length ∧
      ([0x41, 0x7E] : List Byte)[1]? ≠ some 0x7F := by decide

theorem witness_SendAcceptsMessage :
    State.reset.enc.state = .idle ∧ (List.replicate 80 (0x5A : Byte)).length = (80 : Byte).toNat ∧
      (80 : Byte).toNat ≤ 80 ∧ ([] : Message).length = (0 : Byte).toNat := by decide

theorem witness_FrameOfMessage : (List.replicate 255 (0x5A : Byte)).length ≤ 255 := by decide +kernel

theorem witness_SendRejectsLongMessage : State.reset.enc.state = .idle ∧ 80 < (81 : Byte).toNat := by decide

theorem witness_NoSendWhileBusy : shortSending.enc.state ≠ .idle ∧ (gapState 1).enc.state ≠ .idle := by decide

/-- Each branch: the half held, the second half, the next bit, the next byte, the end with a gap and without. -/
theorem witness_SerializerStep :
    let held := sendingState fun e => { e with hcnt := 2 }
    let bit := sendingState fun e => { e with hf := true, bitn := 6 }
    let byte := sendingState fun e => { e with hf := true, bitn := 7 }
    let ending := sendingState fun e => { e with hf := true, bitn := 7, pos := 7 }
    (held.enc.state = .send ∧ 1 < held.enc.hcnt) ∧
    ((sendingState id).enc.hcnt ≤ 1 ∧ (sendingState id).enc.hf = false) ∧
    (bit.enc.bitn.toNat < 7 ∧ bit.enc.pos.toNat < 87 ∧ bit.enc.fbuf.get? bit.enc.pos.toNat = some 0x55) ∧
    (byte.enc.bitn.toNat = 7 ∧ byte.enc.pos.toNat + 1 < byte.enc.flen.toNat ∧ byte.enc.pos.toNat + 1 < 87 ∧
      byte.enc.fbuf.get? (byte.enc.pos.toNat + 1) = some 0x7E) ∧
    (ending.enc.hcnt ≤ 1 ∧ ending.enc.hf = true ∧ ending.enc.flen.toNat ≤ ending.enc.pos.toNat + 1 ∧
      0 < ending.par.txGap) ∧
    ({ Params.default with txGap := 0 } : Params).wf := by decide

theorem witness_SymbolsCompleteOnTransmission : shortSending.Inv ∧ shortSending.enc.state = .send :=
  ⟨shortSending_inv, rfl⟩

theorem witness_GapCountsDown :
    (gapState 2).enc.state = .gap ∧ 1 < (gapState 2).enc.gcnt ∧ (gapState 1).enc.gcnt ≤ 1 := by decide

/-- An empty Message of 112 line steps and a gap of 2, seen at the first step, in the last step of the frame, in the
first and last of the gap, and at the first idle step. -/
theorem witness_FrameTimingOnTheLine (n : Nat) (hn : n ∈ [0, 111, 112, 113, 114]) :
    shortState.Inv ∧ shortState.enc.state = .idle ∧ noReset (offer [] :: List.replicate n quietInputs) ∧
      (offer []).txValid = true ∧ (offer []).txLen = BitVec.ofNat 8 ([] : Message).length ∧ (offer []).txData = [] ∧
      ∃ t, runWith (offer [] :: List.replicate n quietInputs) shortState = .next t := by
  refine ⟨shortState_inv, rfl, ?_, rfl, rfl, rfl, ?_⟩
  · intro x hx
    rcases List.mem_cons.mp hx with rfl | hx
    · rfl
    · exact noReset_replicate n rfl x hx
  · have h : ∀ k ∈ [0, 111, 112, 113, 114],
        nextIs (runWith (offer [] :: List.replicate k quietInputs) shortState) (fun t => txOut t || true) = true := by
      decide +kernel
    obtain ⟨t, ht, -⟩ := nextIs_exists (h n hn)
    exact ⟨t, ht⟩

theorem witness_PreambleEdgesCounted :
    ((counted 0 0 1).dec.state = .awaitingPreamble ∧ (counted 0 0 1).cru.armed = true ∧ (counted 0 0 1).cru.edgeCnt = 0) ∧
    (1 ≤ (counted 1 0 20).cru.edgeCnt.toNat ∧ (counted 6 100 20).cru.edgeCnt.toNat < 7) ∧
    ¬ (waitingState.dec.state = .awaitingPreamble ∧ waitingState.cru.armed = true) := by decide

/-- The second clause's value fits in the default 32 bits. -/
theorem witness_EighthEdgeMakesEstimate :
    (counted 7 120 20).dec.state = .awaitingPreamble ∧ (counted 7 120 20).cru.armed = true ∧
      (counted 7 120 20).cru.edgeCnt = 7 ∧
      (max ((((120 + 20 + 3) / 7 : Nat) : Int) - (counted 7 120 20).par.timingCorr) 1).toNat <
        2 ^ (counted 7 120 20).par.cntW := by decide +kernel

theorem witness_OffsetIsCapped : State.reset.par.wf ∧ shortState.par.wf := by decide

/-- Half-bits of one step: sixteen steps. -/
theorem witness_PreambleGivesExactPeriod :
    let ins := ((lineLevels 1 [0x55]).take 16).map line
    (shortState.dec.state = .awaitingPreamble ∧ shortState.cru.armed = true ∧ shortState.cru.edgeCnt = 0 ∧
      shortState.cru.sum = 0 ∧ shortState.cru.rxPrev = false ∧ 2 * 1 < 2 ^ shortState.par.cntW) ∧
    noReset ins ∧ ins.map (·.rxIn) = (lineLevels 1 [0x55]).take (15 * 1 + 1) ∧
    ∃ t, runWith ins shortState = .next t := by
  refine ⟨by decide +kernel, noReset_line _, map_line_rxIn _, ?_⟩
  obtain ⟨t, h, -⟩ := nextIs_exists (f := fun t => t.dec.period == 2)
    (show nextIs (runWith (((lineLevels 1 [0x55]).take 16).map line) shortState) _ = true by decide +kernel)
  exact ⟨t, h⟩

/-- With no edge counted, and with three counted and `ivl` one below its end. -/
theorem witness_NoPreambleTimeout (s : State) (hs : s = State.reset ∨ s = counted 3 40 4294967294) :
    s.dec.state = .awaitingPreamble ∧ s.cru.armed = true ∧ noReset [line false, line false] ∧
      (∀ x ∈ [line false, line false], x.rxIn = s.cru.rxPrev) ∧
      ∃ t, runWith [line false, line false] s = .next t := by
  have run : nextIs (runWith [line false, line false] s)
      (fun t => t.cru.ivl == if s.cru.edgeCnt = 0 then 1 else 4294967295) = true := by
    rcases hs with rfl | rfl <;> decide +kernel
  obtain ⟨t, h, -⟩ := nextIs_exists run
  rcases hs with rfl | rfl <;> exact ⟨rfl, rfl, noReset_line [false, false], by decide, t, h⟩

/-- The guard opens in the first state and not in the second. -/
theorem witness_RearmGuard :
    let open1 := State.reset.setCru { Cru.reset with armed := false, quiet := 39, lastPeriod := 20 }
    let closed := State.reset.setCru { Cru.reset with armed := false, quiet := 38, lastPeriod := 20 }
    open1.dec.state = .awaitingPreamble ∧ open1.cru.armed = false ∧ closed.cru.armed = false ∧
      (∃ t, step (open1.withInputs [line false]) = .next t) ∧ ∃ t, step (closed.withInputs [line false]) = .next t := by
  refine ⟨rfl, rfl, rfl, ?_, ?_⟩
  · obtain ⟨t, h, -⟩ := nextIs_exists test_rearm.1
    exact ⟨t, h⟩
  · obtain ⟨t, h, -⟩ := nextIs_exists test_rearm.2
    exact ⟨t, h⟩

theorem witness_SamplingClockCountsDown :
    ((reading .readingPayload fun d => { d with wait := 2 }).dec.state ≠ .awaitingPreamble ∧
      1 < (reading .readingPayload fun d => { d with wait := 2 }).dec.wait) ∧
    State.reset.dec.state = .awaitingPreamble := by decide

/-- The last bit but one of an 8-bit field and of the CRC field. -/
theorem witness_SampleShiftsBitIn :
    let s := reading .readingPayload fun d => { d with bitCnt := 6, val := 0x3F }
    let c := reading .readingCrc fun d => { d with bitCnt := 14, val := 0x3FFF }
    (s.dec.state ≠ .awaitingPreamble ∧ s.dec.wait ≤ 1 ∧ s.dec.bitCnt.toNat + 1 < s.dec.state.fieldBits ∧
      s.dec.val.toNat < 2 ^ s.dec.bitCnt.toNat) ∧
    (c.dec.bitCnt.toNat + 1 < c.dec.state.fieldBits ∧ c.dec.val.toNat < 2 ^ c.dec.bitCnt.toNat) := by decide

theorem witness_SamplesAssembleFields :
    let s := reading .awaitingEnd id
    (s.dec.wait ≤ 1 ∧ s.dec.spacing ≤ 1 ∧ s.dec.val = 0 ∧ s.dec.bitCnt = 0 ∧
      byteReception s.dec.state 0x7E = some (.endFlag .rx 0x7E)) ∧
    (reading .readingCrc id).dec.state = .readingCrc := by decide

/-- Both cases of the flags (R115, R121). -/
theorem witness_FlagsChecked : (0x7E : Byte) = 0x7E ∧ (0x7F : Byte) ≠ 0x7E := by decide

theorem witness_PayloadByteStored :
    shortReading.dec.state = .readingPayload ∧ shortReading.dec.idx.toNat < 255 ∧ shortReading.dec.idx = 254 := by decide

theorem witness_PayloadIndexPastBufferFaults :
    (reading .readingPayload fun d => { d with idx := 255 }).dec.idx = 255 ∧
      shortReading.Inv ∧ shortReading.dec.state = .readingPayload := ⟨rfl, shortReading_inv, rfl⟩

/-- The span `00 01 41`: the CRC `A7 48`, and another one. -/
theorem witness_CrcFieldChecked :
    let s := reading .readingCrc fun d => { d with lenR := 1, idx := 1, buf := [(0, 0x41)] }
    (s.dec.state = .readingCrc ∧ s.dec.val = 0) ∧
      (0xA7 : Byte) ++ (0x48 : Byte) = crc16 s.par ([s.dec.typeR, s.dec.lenR] ++ bufBytes s s.dec.lenR.toNat) ∧
      (0xA7 : Byte) ++ (0x49 : Byte) ≠ crc16 s.par ([s.dec.typeR, s.dec.lenR] ++ bufBytes s s.dec.lenR.toNat) := by
  decide +kernel

theorem witness_ReceivedFrameDeliversMessage :
    (reading .awaitingStart id).dec.state = .awaitingStart ∧ (List.replicate 255 (0x5A : Byte)).length ≤ 255 := by decide +kernel

theorem witness_CorruptedPayloadAborts :
    (reading .awaitingStart id).dec.state = .awaitingStart ∧ (reading .awaitingStart id).dec.deliverPend = false ∧
      ([0x41] : Message).length ≤ 255 ∧ 0 < ([0x41] : Message).length ∧ ([0x41] : Message)[0]? ≠ some 0xC1 ∧
      (reading .awaitingStart id).par.crcPoly.getLsbD 0 = true := by decide

/-- The shortest frame at half-bits of one step. -/
theorem witness_WellTimedFrameIsDelivered :
    let ins := ((lineLevels 1 (frameWithType shortParams 0x33 [])).take 111).map line
    shortState.Inv ∧ (shortState.dec.state = .awaitingPreamble ∧ shortState.cru.armed = true ∧
      shortState.cru.edgeCnt = 0 ∧ shortState.cru.rxPrev = false ∧ shortState.par.timingCorr = 0 ∧
      2 * 1 < 2 ^ shortState.par.cntW ∧ min (1 / shortState.par.offsetDiv) shortState.par.offsetCap < 1) ∧
    noReset ins ∧
    ins.map (·.rxIn) = (lineLevels 1 (frameWithType shortState.par 0x33 [])).take
      (15 * 1 + max (1 + min (1 / shortState.par.offsetDiv) shortState.par.offsetCap) 1 + (8 * (0 + 6) - 1) * (2 * 1) + 1) ∧
    ∃ t, runWith ins shortState = .next t := by
  refine ⟨shortState_inv, by decide +kernel, noReset_line _, map_line_rxIn _, ?_⟩
  obtain ⟨t, h, -⟩ := nextIs_exists (f := rxValid)
    (show nextIs (runWith (((lineLevels 1 (frameWithType shortParams 0x33 [])).take 111).map line) shortState) _ = true by
      decide +kernel)
  exact ⟨t, h⟩

theorem witness_ReceiveHandsMessageOver :
    waitingState.dec.deliverPend = true ∧ State.reset.dec.deliverPend = false := by decide

theorem witness_WaitingMessageIsStable :
    shortWaiting.Inv ∧ rxValid shortWaiting = true ∧ noReset [line true, line false] ∧
      (∀ x ∈ [line true, line false], x.rxReady = false) ∧ ∃ t, runWith [line true, line false] shortWaiting = .next t := by
  refine ⟨shortWaiting_inv, rfl, noReset_line [true, false], by decide, ?_⟩
  obtain ⟨t, h, -⟩ := nextIs_exists (f := rxValid)
    (show nextIs (runWith [line true, line false] shortWaiting) _ = true by decide +kernel)
  exact ⟨t, h⟩

/-- Every way on: the eighth edge, the start flag, the type, the length 255 and 0, the last payload byte, the CRC and the
end flag. -/
theorem witness_DecoderAdvancesOnlyOnMatch :
    let at8 (d : DecState) (val : Word16) : State := reading d fun d => { d with bitCnt := 7, val := val, lenR := 1 }
    let enters (d : DecState) (t : State) : Bool := decide (t.dec.state = d)
    nextIs (step ((counted 7 120 20).withInputs [line true])) (enters .awaitingStart) = true ∧
    nextIs (step ((at8 .awaitingStart 0x3F).withInputs [line false])) (enters .readingHeaderType) = true ∧
    nextIs (step ((at8 .readingHeaderType 0x7F).withInputs [line true])) (enters .readingHeaderLength) = true ∧
    nextIs (step ((at8 .readingHeaderLength 0x7F).withInputs [line true])) (enters .readingPayload) = true ∧
    nextIs (step ((at8 .readingHeaderLength 0x00).withInputs [line false])) (enters .readingCrc) = true ∧
    nextIs (step ((at8 .readingPayload 0x20).withInputs [line true])) (enters .readingCrc) = true ∧
    nextIs (step ((reading .readingCrc fun d =>
        { d with bitCnt := 15, val := 0x53A4, lenR := 1, idx := 1, buf := [(0, 0x41)] }).withInputs [line false]))
      (enters .awaitingEnd) = true ∧
    nextIs (step ((at8 .awaitingEnd 0x3F).withInputs [line false])) rxValid = true := by decide +kernel

/-- A Message leaves, and the step of a reset in which none does. -/
theorem witness_MessagesLeaveWholeAndInOrder :
    nextIs (step (waitingState.withInputs [{ quietInputs with rxReady := true }])) (fun t => t.taken == [[]]) = true ∧
    nextIs (step (waitingState.withInputs [{ quietInputs with rxReady := true, rst := true }])) (fun t => t.taken == []) =
      true := by decide +kernel

theorem witness_StepKeepsInvariant :
    (shortState.withInputs [line true]).Inv ∧ ∃ t, step (shortState.withInputs [line true]) = .next t := by
  refine ⟨⟨shortState_inv.1, ⟨?_, ?_, ?_, ?_, ?_, ?_, ?_, ?_, ?_⟩, ?_, ?_⟩, ?_⟩
  any_goals decide +kernel
  · constructor <;> first | decide +kernel | exact fun h => absurd h (by decide)
  · constructor <;> first | decide +kernel | exact fun h => absurd h (by decide)
  · obtain ⟨t, h, -⟩ := nextIs_exists (f := fun t => t.cru.rxPrev)
      (show nextIs (step (shortState.withInputs [line true])) _ = true by decide +kernel)
    exact ⟨t, h⟩

theorem witness_NothingStopsTheBlock : shortState.Inv ∧ shortWaiting.Inv ∧ shortReading.Inv ∧ shortSending.Inv :=
  ⟨shortState_inv, shortWaiting_inv, shortReading_inv, shortSending_inv⟩

/-- Reset wins over a SEND, a RECEIVE and an edge in the same step. -/
theorem witness_ResetWins :
    let inp := { offer [0x41] with rst := true, rxReady := true, rxIn := true }
    inp.rst = true ∧ nextIs (step (waitingState.withInputs [inp])) (fun t => txStatus t == 0 && rxValid t == false) = true := by
  decide +kernel

/-- Two machines that agree on the receive side and differ on the other, and the reverse. -/
theorem witness_SidesShareNoState :
    let s := State.reset
    let s' := gapState 3
    let w := waitingState
    (s.par = s'.par ∧ s.epoch = s'.epoch ∧ s.stepIx = s'.stepIx ∧ s.cru = s'.cru ∧ s.dec = s'.dec) ∧
      (s.par = w.par ∧ s.enc = w.enc) ∧
      nextIs (step (s.withInputs [line true])) (fun t => t.cru.rxPrev) = true ∧
      nextIs (step (s'.withInputs [line true])) (fun t => t.cru.rxPrev) = true ∧
      nextIs (step (w.withInputs [line true])) (fun t => t.cru.rxPrev) = true := by decide +kernel

theorem witness_ParametersNeverChange : nextIs (step (shortState.withInputs [line true])) (fun t => t.par == shortParams) =
    true := by decide +kernel

/-- The codes 0, 1, 2 and 4; 3 is seen in test_crc_mismatch. -/
theorem witness_RxStatusHasItsCause :
    nextIs (step (State.reset.withInputs [line true])) (fun t => rxStatus t == 0) = true ∧
    nextIs (step ((reading .awaitingStart fun d => { d with bitCnt := 7, val := 0x7F }).withInputs [line false]))
      (fun t => rxStatus t == 2) = true ∧
    nextIs (step ((reading .awaitingEnd fun d => { d with bitCnt := 7, val := 0x3F }).withInputs [line false]))
      (fun t => rxStatus t == 1) = true ∧
    nextIs (step ((reading .awaitingEnd fun d => { d with bitCnt := 7, val := 0x3F }).withInputs [line true]))
      (fun t => rxStatus t == 4) = true := by decide +kernel

theorem witness_TxStatusHasItsCause :
    nextIs (step (State.reset.withInputs [offer (List.replicate 80 0)])) (fun t => txStatus t == 1) = true ∧
      nextIs (step (State.reset.withInputs [offer (List.replicate 81 0)])) (fun t => txStatus t == 2) = true ∧
      nextIs (step ((gapState 2).withInputs [offer []])) (fun t => txStatus t == 0) = true := by decide +kernel

/-- 255 and 256 bytes, 15 and 16 entries, a front of 255 bytes to offer, and a Message taken and one held back. -/
theorem witness_HostQueuesAreBoundedFifos :
    let longest : Message := List.replicate 255 0
    let room : HostQueues := { outQ := [longest, [1]], inQ := List.replicate 15 [] }
    let full : HostQueues := { outQ := [], inQ := List.replicate 16 [] }
    (255 < (0 :: longest).length ∧ longest.length ≤ 255) ∧ (room.inQ.length < 16 ∧ full.inQ.length = 16) ∧
    (hostInputs false false room).txLen = 255 ∧
    (queuesAfter (hostInputs false false room) waitingState room).outQ = [[1]] ∧
    (queuesAfter (hostInputs false false room) waitingState room).inQ.length = 16 ∧
    (queuesAfter (hostInputs false false full) waitingState full).inQ = full.inQ := by decide +kernel

theorem witness_LinkStepsWithinQueues :
    let l : Link := { a := shortState, b := shortWaiting, hostA := { outQ := [[0x41]], inQ := [] },
                      hostB := { outQ := [], inQ := List.replicate 16 [] } }
    l.a.Inv ∧ l.b.Inv ∧ l.hostA.inQ.length ≤ 16 ∧ l.hostB.inQ.length ≤ 16 :=
  ⟨shortState_inv, shortWaiting_inv, by decide, by decide⟩

end Sys2Proof.Tests
end

section
/-! PROOFS. The invariant of the machine: it holds after reset and every step keeps it (10_state.md). It splits into what
the receive side and what the transmit side keep; the two share no register (20_memory.md R61). -/

namespace Sys2Proof.Machine

/-! ## The two halves of the invariant -/

/-- The part of the invariant that speaks of the receive side. -/
structure RxInv (s : State) : Prop extends CruInv s, DecInv s where
  par : s.par.wf

/-- The part of the invariant that speaks of the transmit side. -/
structure TxInv (s : State) : Prop extends EncInv s where
  par : s.par.wf

theorem State.inv_iff {s : State} : s.Inv ↔ RxInv s ∧ TxInv s :=
  ⟨fun h => ⟨{ h.cru, h.dec with par := h.par }, { h.enc with par := h.par }⟩,
    fun ⟨hr, ht⟩ => ⟨ht.par, hr.toCruInv, hr.toDecInv, ht.toEncInv⟩⟩

theorem RxInv.congr {s t : State} (h : RxInv s) (hp : t.par = s.par) (hc : t.cru = s.cru) (hd : t.dec = s.dec) :
    RxInv t := by
  obtain ⟨p, _, c, d⟩ := t
  subst hp hc hd
  exact { h with }

theorem TxInv.congr {s t : State} (h : TxInv s) (hp : t.par = s.par) (he : t.enc = s.enc) : TxInv t := by
  obtain ⟨p, _, _, _, e⟩ := t
  subst hp he
  exact { h with }

theorem one_lt_cntW {p : Params} (hp : p.wf) : 1 < p.cntW := by
  obtain ⟨-, -, hwidth, -⟩ := hp
  omega

theorem one_lt_two_pow_cntW {p : Params} (hp : p.wf) : 1 < 2 ^ p.cntW :=
  Nat.one_lt_two_pow (Nat.ne_zero_of_lt (one_lt_cntW hp))

/-! ## Reset -/

theorem resetWith_inv {p : Params} (hp : p.wf) : (State.resetWith p).Inv := by
  have hone : 1 < 2 ^ p.cntW := one_lt_two_pow_cntW hp
  refine ⟨hp, ?_, ?_, ?_⟩
  · constructor
    case ivlFits => exact hone
    all_goals simp [State.resetWith, Cru.reset, Dec.reset]
  · constructor <;> simp [State.resetWith, Cru.reset, Dec.reset, Memory.wf, DecState.fieldBits]
  · constructor <;> simp [State.resetWith, Enc.reset, Memory.wf]

theorem resetRegs_inv {s : State} (hp : s.par.wf) : (resetRegs s).Inv := by
  obtain ⟨hr, ht⟩ := State.inv_iff.mp (resetWith_inv hp)
  exact State.inv_iff.mpr ⟨hr.congr rfl rfl rfl, ht.congr rfl rfl⟩

/-! ## The transmit side -/

theorem length_frame (p : Params) (m : Message) : (frame p m).length = m.length + 7 := by
  simp only [frame, List.length_append, List.length_cons, List.length_nil]; omega

theorem txBegin_keeps_txInv {s : State} (h : TxInv s) : TxInv (txBegin s) :=
  { h with statCode := Nat.zero_le 2 }

theorem endFrame_keeps_txInv {s : State} (h : TxInv s) : TxInv (endFrame s) := by
  obtain ⟨-, -, -, -, hhalf, hgap⟩ := h.par
  unfold endFrame
  split
  · exact { h with hcntFits := hhalf, gcntFits := hgap, idleLow := fun _ => rfl, sending := nofun }
  · exact { h with hcntFits := hhalf, idleLow := fun _ => rfl, sending := nofun }

theorem gapStep_keeps_txInv {s : State} (h : TxInv s) (hs : s.enc.state = .gap) : TxInv (gapStep s) := by
  have hlow : s.enc.txLine = false := h.idleLow (by simp [hs])
  unfold gapStep
  split
  · exact { h with gcntFits := (Nat.sub_le _ 1).trans_lt h.gcntFits }
  · exact { h with idleLow := fun _ => hlow, sending := nofun }

theorem reject_keeps_txInv {s : State} (h : TxInv s) : TxInv (reject s) :=
  { h with statCode := Nat.le_refl 2 }

/-- ACCEPT writes the whole frame, so the serializer finds it in `fbuf` (R132). -/
theorem accept_establishes_sending {m : Message} {s : State} (hm : m.length ≤ Config.maxMsgLen) (hp : s.par.wf) :
    Sending (accept m s) := by
  obtain ⟨hhalf, -⟩ := hp
  have hm' : m.length ≤ 80 := hm
  have hfbuf : ∀ i < m.length + 7, (s.enc.fbuf.putAll 0 (frame s.par m)).get? i = (frame s.par m)[i]? := by
    intro i hi
    rw [Memory.get?_putAll, length_frame, if_pos (by omega), Nat.sub_zero]
  exact ⟨m, hm, by simp [accept, beginByte]; omega, hfbuf, by simp [accept, beginByte], hhalf,
    Config.preamble, hfbuf 0 (by omega), by simp [accept, beginByte]⟩

theorem accept_keeps_txInv {m : Message} {s : State} (h : TxInv s) (hm : m.length ≤ Config.maxMsgLen) :
    TxInv (accept m s) := by
  obtain ⟨-, -, -, -, hhalf, -⟩ := h.par
  have hm' : m.length ≤ 80 := hm
  exact { h with
    hcntFits := hhalf
    statCode := by simp [accept, beginByte, txAccepted]
    fbufForm := Memory.wf_putAll _ h.fbufForm (by rw [length_frame, Config.txBufLen]; omega)
    idleLow := fun hi => absurd rfl hi
    sending := fun _ => accept_establishes_sending hm h.par }

theorem execSend_keeps_txInv {len : Byte} {data : List Byte} {s t : State} (h : TxInv s)
    (ht : execSend len data s = .next t) : TxInv t := by
  unfold execSend at ht
  split at ht
  · split at ht
    · next hlen =>
      obtain rfl := by simpa using ht.symm
      exact accept_keeps_txInv h (by rw [List.length_take]; omega)
    · obtain rfl := by simpa using ht.symm
      exact reject_keeps_txInv h
  · obtain rfl := by simpa using ht.symm
    exact h

/-- In `SEND` every byte of the frame is in `fbuf`, so a read of one gives the byte `fbuf` holds. -/
theorem Sending.readFbuf_eq {s : State} (h : Sending s) {i : Nat} (hi : i < s.enc.flen.toNat) :
    readFbuf s i = s.enc.fbuf.get? i := by
  obtain ⟨m, hm, hflen, hfbuf, -⟩ := h
  have hm' : m.length ≤ 80 := hm
  have hlt : i < (frame s.par m).length := by rw [length_frame]; omega
  rw [readFbuf, if_pos (by rw [Config.txBufLen]; omega), hfbuf i (by omega), List.getElem?_eq_getElem hlt]
  rfl

/-- A step of the serializer within a frame: it keeps the frame, and puts the half it goes to on the line. -/
theorem Sending.moveTo {s : State} (h : Sending s) {w : Byte} {pos : BitVec 7} {bitn : BitVec 3} {hf : Bool} {n : Nat}
    (hpos : pos.toNat < s.enc.flen.toNat) (hw : readFbuf s pos.toNat = some w) (hn : 1 ≤ n) :
    Sending (s.setEnc { s.enc with
      pos := pos, bitn := bitn, hf := hf, hcnt := n, txLine := (streamBit w bitn.toNat ^^ hf) }) := by
  rw [h.readFbuf_eq hpos] at hw
  obtain ⟨m, hm, hflen, hfbuf, -⟩ := h
  exact ⟨m, hm, hflen, hfbuf, hflen ▸ hpos, hn, w, hw, rfl⟩

theorem Sending.pos_lt {s : State} (h : Sending s) : s.enc.pos.toNat < s.enc.flen.toNat := by
  obtain ⟨m, -, hflen, -, hpos, -⟩ := h
  omega

/-- The serializer's move keeps the transmit side's invariant. -/
theorem moveTo_keeps_txInv {s : State} (h : TxInv s) (hs : s.enc.state = .send) {w : Byte} {pos : BitVec 7}
    {bitn : BitVec 3} {hf line : Bool} {n : Nat} (hpos : pos.toNat < s.enc.flen.toNat)
    (hw : readFbuf s pos.toNat = some w) (hn : 1 ≤ n) (hfits : n < 2 ^ s.par.cntW)
    (hline : line = (streamBit w bitn.toNat ^^ hf)) :
    TxInv (s.setEnc { s.enc with pos := pos, bitn := bitn, hf := hf, hcnt := n, txLine := line }) := by
  subst hline
  exact { h with
    hcntFits := hfits
    idleLow := fun hi => absurd hs hi
    sending := fun _ => (h.sending hs).moveTo hpos hw hn }

theorem endCell_keeps_txInv {s t : State} (h : TxInv s) (hs : s.enc.state = .send) (ht : endCell s = .next t) :
    TxInv t := by
  obtain ⟨hhalf, -, -, -, hfits, -⟩ := h.par
  have hpos := (h.sending hs).pos_lt
  rcases endCell_cases ht with ⟨hbit, w, hw, rfl⟩ | ⟨-, hnext, w, hw, rfl⟩ | ⟨-, -, rfl⟩
  · refine moveTo_keeps_txInv h hs hpos hw hhalf hfits ?_
    rw [Bool.xor_false, show (s.enc.bitn + 1).toNat = s.enc.bitn.toNat + 1 by bv_omega]
  · have hsucc : (s.enc.pos + 1).toNat = s.enc.pos.toNat + 1 := by bv_omega
    exact moveTo_keeps_txInv h hs (hsucc ▸ hnext) (hsucc ▸ hw) hhalf hfits (by simp)
  · exact endFrame_keeps_txInv h

theorem serialize_keeps_txInv {w : Byte} {s t : State} (h : TxInv s) (hs : s.enc.state = .send)
    (hw : readFbuf s s.enc.pos.toNat = some w) (ht : serialize (streamBit w s.enc.bitn.toNat) s = .next t) :
    TxInv t := by
  obtain ⟨hhalf, -, -, -, hfits, -⟩ := h.par
  have hpos := (h.sending hs).pos_lt
  rw [serialize, if_pos hs] at ht
  split at ht
  · next hcnt =>
    obtain rfl := by simpa using ht.symm
    obtain ⟨m, hm, hflen, hfbuf, hlt, -, hline⟩ := h.sending hs
    exact { h with
      hcntFits := (Nat.sub_le _ 1).trans_lt h.hcntFits
      sending := fun _ => ⟨m, hm, hflen, hfbuf, hlt, Nat.le_sub_one_of_lt hcnt, hline⟩ }
  · split at ht
    · obtain rfl := by simpa using ht.symm
      exact moveTo_keeps_txInv h hs hpos hw hhalf hfits (by simp)
    · exact endCell_keeps_txInv h hs ht

theorem txSide_keeps_txInv {inp : PortInputs} {s t : State} (h : TxInv s) (ht : txSide inp s = .next t) : TxInv t := by
  have hb := txBegin_keeps_txInv h
  cases hs : s.enc.state with
  | idle =>
    rw [txSide_idle hs] at ht
    split at ht
    · exact execSend_keeps_txInv hb ht
    · obtain rfl := by simpa using ht.symm
      exact hb
  | send =>
    rw [txSide_send hs, symbolStep_eq] at ht
    split at ht
    · next w hw => exact serialize_keeps_txInv hb hs hw ht
    · simp at ht
  | gap =>
    rw [txSide_gap hs] at ht
    obtain rfl := by simpa using ht.symm
    exact gapStep_keeps_txInv hb hs

/-! ## The receive side, while a preamble is awaited -/

theorem rxBegin_keeps_rxInv {level : Bool} {s : State} (h : RxInv s) : RxInv (rxBegin level s) :=
  { h with statCode := Nat.zero_le 4 }

theorem setQuiet_keeps_rxInv {s : State} (h : RxInv s) {q : Nat} (hq : q < 2 ^ s.par.cntW) :
    RxInv (s.setCru { s.cru with quiet := q }) :=
  { h with quietFits := hq }

theorem arm_keeps_rxInv {s : State} (h : RxInv s) (hs : s.dec.state = .awaitingPreamble)
    (hpend : s.dec.deliverPend = false) : RxInv (arm s) :=
  { h with
    edges := Nat.zero_le _
    ivlPos := Nat.le_refl 1
    ivlFits := one_lt_two_pow_cntW h.par
    sumFits := Nat.zero_le _
    armedEdges := fun _ => Nat.zero_le _
    armedSum := fun _ => Nat.zero_le _
    armedWaits := fun _ => ⟨hs, hpend⟩
    attempt := fun hne => absurd hs hne }

theorem quietStep_keeps_rxInv {e : Bool} {s : State} (h : RxInv s) : RxInv (quietStep e s.dec.deliverPend s) := by
  obtain ⟨q, hq, hcases⟩ := quietStep_cases e s.dec.deliverPend s
  have hfits : q < 2 ^ s.par.cntW := by
    rw [hq]; split
    · exact Nat.two_pow_pos _
    · exact sat_lt ..
  have hquiet := setQuiet_keeps_rxInv h hfits
  rcases hcases with ⟨heq, hs, -, hpend, -⟩ | ⟨heq, -⟩
  · rw [heq]; exact arm_keeps_rxInv hquiet hs hpend
  · rw [heq]; exact hquiet

theorem countQuiet_keeps_rxInv {s : State} (h : RxInv s) : RxInv (countQuiet s) := by
  unfold countQuiet
  split
  · exact { h with
      ivlPos := sat_pos (one_lt_cntW h.par).le (Nat.le_add_left ..)
      ivlFits := sat_lt .. }
  · exact h

/-- The eighth edge's estimate fits its registers, since its sum is that of seven intervals that fit (R98 to R103). -/
theorem eighth_keeps_rxInv {s : State} (h : RxInv s) (ha : s.cru.armed = true) {sum : Nat}
    (hsum : sum ≤ 7 * (2 ^ s.par.cntW - 1)) : RxInv (eighth sum s) := by
  obtain ⟨-, -, hwidth, hcap, -, -⟩ := h.par
  obtain ⟨-, hpend⟩ := h.armedWaits ha
  have hM : 2 ^ 8 ≤ 2 ^ s.par.cntW := Nat.pow_le_pow_right (by omega) hwidth
  have hperiod : (sum + 3) / 7 < 2 ^ s.par.cntW := by omega
  have hoffset : min ((sum + 3) / 7 / 2 / s.par.offsetDiv) s.par.offsetCap ≤ 1 := hcap ▸ Nat.min_le_right ..
  have hspacing := spacingOf_bounds (par := s.par) s.stepIx ((sum + 3) / 7) (by omega)
  exact { h with
    edges := Nat.le_refl 8
    sumFits := hsum
    armedEdges := nofun
    armedSum := nofun
    armedWaits := nofun
    periodFits := hperiod
    halfFits := (Nat.div_le_self ..).trans_lt hperiod
    offsetFits := hoffset.trans_lt (one_lt_two_pow_cntW h.par)
    spacingFits := hspacing.2
    waitFits := by simp only [eighth, State.setDec_dec, State.setDec_par, State.setCru_par]; omega
    bits := Nat.zero_lt_succ 7
    value := Nat.one_pos
    attempt := fun _ => ⟨rfl, hpend, Nat.le_max_right .., hspacing.1⟩
    payload := nofun
    complete := by simp [eighth, hpend] }

/-- Before the eighth edge the sum has one interval fewer than there were edges, each of which fits (R94). -/
theorem countEdge_keeps_rxInv {s : State} (h : RxInv s) (ha : s.cru.armed = true) : RxInv (countEdge s) := by
  have hone := one_lt_two_pow_cntW h.par
  have hivl := h.ivlFits
  have hedges := h.armedEdges ha
  have hsum := h.armedSum ha
  have hivlOne : RxInv (s.setCru { s.cru with ivl := 1 }) := { h with ivlPos := Nat.le_refl 1, ivlFits := hone }
  rcases countEdge_cases s with ⟨h0, heq⟩ | ⟨h0, h7, heq⟩ | ⟨h7, heq⟩
  · have hzero : s.cru.sum = 0 := by simpa [h0] using hsum
    rw [heq]
    exact { hivlOne with
      edges := by simp
      armedEdges := by simp
      armedSum := by simp [hzero] }
  · have hpos : 1 ≤ s.cru.edgeCnt.toNat := by bv_omega
    have hsucc : (s.cru.edgeCnt + 1).toNat = s.cru.edgeCnt.toNat + 1 := by bv_omega
    have hnext : s.cru.sum + s.cru.ivl ≤ s.cru.edgeCnt.toNat * (2 ^ s.par.cntW - 1) := by
      calc s.cru.sum + s.cru.ivl
          ≤ (s.cru.edgeCnt.toNat - 1) * (2 ^ s.par.cntW - 1) + (2 ^ s.par.cntW - 1) := by omega
        _ = (s.cru.edgeCnt.toNat - 1 + 1) * (2 ^ s.par.cntW - 1) := (Nat.succ_mul ..).symm
        _ = s.cru.edgeCnt.toNat * (2 ^ s.par.cntW - 1) := by rw [Nat.sub_add_cancel hpos]
    rw [heq]
    exact { hivlOne with
      edges := by simp only [State.setCru_cru, hsucc]; omega
      sumFits := hnext.trans (Nat.mul_le_mul_right _ hedges)
      armedEdges := by simp only [State.setCru_cru, hsucc]; omega
      armedSum := by simpa only [State.setCru_cru, State.setCru_par, hsucc, Nat.add_sub_cancel] using fun _ => hnext }
  · rw [heq]
    refine eighth_keeps_rxInv hivlOne ha ?_
    have hsix : s.cru.sum ≤ 6 * (2 ^ s.par.cntW - 1) := hsum.trans (Nat.mul_le_mul_right _ (by omega))
    simp only [State.setCru_par]
    omega

theorem cruSide_keeps_rxInv {e : Bool} {s t : State} (h : RxInv s) (hs : s.dec.state = .awaitingPreamble)
    (ht : cruSide e s = .next t) : RxInv t := by
  rw [cruSide_next e s hs] at ht
  obtain rfl := by simpa using ht.symm
  split
  · next ha =>
    split
    · exact countEdge_keeps_rxInv h ha
    · exact countQuiet_keeps_rxInv h
  · exact quietStep_keeps_rxInv h

/-- RECEIVE takes the Message away, and the decoder stays where it was (R124). -/
theorem execReceive_keeps_rxInv {s t : State} (h : RxInv s) (ht : execReceive s = .next t) :
    RxInv t ∧ t.dec.state = s.dec.state := by
  unfold execReceive at ht
  split at ht
  · obtain rfl := by simpa using ht.symm
    exact ⟨{ h with
      armedWaits := fun ha => ⟨(h.armedWaits ha).1, rfl⟩
      attempt := fun hne =>
        have ⟨harmed, _, hwait⟩ := h.attempt hne
        ⟨harmed, rfl, hwait⟩
      complete := fun hc => h.complete (hc.imp_right (·.imp_right nofun)) }, rfl⟩
  · obtain rfl := by simpa using ht.symm
    exact ⟨h, rfl⟩

/-! ## The receive side, while it samples -/

theorem setWait_keeps_rxInv {s : State} (h : RxInv s) {n : Nat} (hfits : n < 2 ^ s.par.cntW)
    (hpos : s.dec.state ≠ .awaitingPreamble → 1 ≤ n) : RxInv (s.setDec { s.dec with wait := n }) :=
  { h with
    waitFits := hfits
    attempt := fun hne =>
      have ⟨harmed, hpend, _, hspacing⟩ := h.attempt hne
      ⟨harmed, hpend, hpos hne, hspacing⟩ }

theorem shiftIn_toNat_lt {val : Word16} {b : Bool} {k : Nat} (h : val.toNat < 2 ^ k) :
    (shiftIn val b).toNat < 2 ^ (k + 1) := by
  have hshift : (val <<< 1).toNat < 2 ^ (k + 1) := by
    rw [BitVec.toNat_shiftLeft, Nat.shiftLeft_eq, Nat.pow_succ]
    exact (Nat.mod_le ..).trans_lt (by omega)
  have hbit : ((BitVec.ofBool b).setWidth 16).toNat < 2 ^ (k + 1) := by
    have hle : ((BitVec.ofBool b).setWidth 16).toNat ≤ 1 := by revert b; decide
    exact hle.trans_lt (Nat.one_lt_two_pow (by omega))
  rw [shiftIn, BitVec.toNat_or]
  exact Nat.or_lt_two_pow hshift hbit

theorem DecState.fieldBits_le (d : DecState) : d.fieldBits ≤ 16 := by
  cases d <;> decide

theorem keepBits_keeps_rxInv {v : Word16} {c : Nat} {s : State} (h : RxInv s) (hc : c < s.dec.state.fieldBits)
    (hv : v.toNat < 2 ^ c) : RxInv (keepBits v c s) := by
  have hcount : (BitVec.ofNat 5 c).toNat = c := by
    have := s.dec.state.fieldBits_le
    simp only [BitVec.toNat_ofNat]; omega
  exact { h with
    bits := by simpa only [keepBits, State.setDec_dec, hcount] using hc
    value := by simpa only [keepBits, State.setDec_dec, hcount] using hv }

/-- A completed field goes on to the next one, whatever it wrote, if that is what the next state asks of the payload. -/
theorem nextField_keeps_rxInv {s : State} (h : RxInv s) (hs : s.dec.state ≠ .awaitingPreamble) {next : DecState}
    {type len idx : Byte} {buf : Memory} (hform : buf.wf Config.rxBufLen = true)
    (hpayload : next = .readingPayload → idx.toNat < len.toNat ∧ buf.written idx.toNat)
    (hcomplete : next = .readingCrc ∨ next = .awaitingEnd → idx = len ∧ buf.written len.toNat) :
    RxInv (s.setDec { nextField next s.dec with typeR := type, lenR := len, idx := idx, buf := buf }) := by
  obtain ⟨harmed, hpend, hwait, hspacing⟩ := h.attempt hs
  exact { h with
    armedWaits := fun ha => absurd (harmed.symm.trans ha) nofun
    bufForm := hform
    bits := by cases next <;> exact Nat.zero_lt_succ _
    value := Nat.one_pos
    attempt := fun _ => ⟨harmed, hpend, hwait, hspacing⟩
    payload := hpayload
    complete := fun hc => hcomplete (hc.imp_right (·.resolve_right (by simp [nextField, hpend]))) }

theorem Memory.written_put {m : Memory} {k : Nat} (h : m.written k) (v : Byte) : (m.put k v).written (k + 1) := by
  intro i hi
  rw [Memory.get?_put]
  split
  · rfl
  · exact h i (by omega)

/-- The end of an attempt, with or without a Message (R123): a Message waits only after the end flag. -/
theorem terminal_keeps_rxInv {s : State} (h : RxInv s) (hs : s.dec.state ≠ .awaitingPreamble) {code : BitVec 3}
    (hcode : code.toNat ≤ 4) {pend : Bool} (hpend : pend = true → s.dec.state = .awaitingEnd) :
    RxInv (terminal code pend (s.setDec { s.dec with deliverPend := pend })) := by
  obtain ⟨harmed, -, -, -⟩ := h.attempt hs
  have hended : RxInv ((s.setCru { s.cru with quiet := 0, lastPeriod := s.dec.period }).setDec { s.dec with
      state := .awaitingPreamble, val := 0, bitCnt := 0, rxStat := code, deliverPend := pend }) :=
    { h with
      quietFits := Nat.two_pow_pos _
      lastPeriodFits := h.periodFits
      armedWaits := fun ha => absurd (harmed.symm.trans ha) nofun
      statCode := hcode
      bits := Nat.one_pos
      value := Nat.one_pos
      attempt := fun hne => absurd rfl hne
      payload := nofun
      complete := fun hc => h.complete (.inr (.inl (hpend (by simpa using hc)))) }
  unfold terminal
  rcases armCheck_cases 0 pend _ with ⟨heq, -, -, hno, -⟩ | ⟨heq, -⟩
  · rw [heq]; exact arm_keeps_rxInv hended rfl hno
  · rw [heq]; exact hended

theorem raiseError_keeps_rxInv {e : DecError} {s : State} (h : RxInv s) (hs : s.dec.state ≠ .awaitingPreamble) :
    RxInv (raiseError e s) := by
  have hcode : e.code.toNat ≤ 4 := by cases e <;> simp [DecError.code]
  obtain ⟨-, hpend, -⟩ := h.attempt hs
  have hno : { s.dec with deliverPend := false } = s.dec := by rw [← hpend]
  simpa [raiseError, hno] using terminal_keeps_rxInv h hs hcode (pend := false) nofun

theorem DecState.lt_fieldBits {d : DecState} (hd : d ≠ .awaitingPreamble) {c : Nat}
    (hc : c < 8 ∨ d = .readingCrc ∧ c < 16) : c < d.fieldBits := by
  rcases hc with hc | ⟨rfl, hc⟩
  · cases d with
    | awaitingPreamble => exact absurd rfl hd
    | _ => exact hc.trans_le (by decide)
  · exact hc

/-- A length of 0 has no payload to wait for (R117, R118). -/
theorem lengthByte_keeps_rxInv {s : State} (h : RxInv s) (hs : s.dec.state ≠ .awaitingPreamble) (v : Byte) :
    RxInv (s.setDec { nextField (if v = 0 then .readingCrc else .readingPayload) s.dec with lenR := v, idx := 0 }) := by
  have hnone : s.dec.buf.written 0 := fun i hi => absurd hi (Nat.not_lt_zero i)
  split
  · next hv =>
    subst hv
    exact nextField_keeps_rxInv h hs h.bufForm nofun fun _ => ⟨rfl, hnone⟩
  · next hv =>
    have hpos : 0 < v.toNat := by bv_omega
    exact nextField_keeps_rxInv h hs h.bufForm (fun _ => ⟨hpos, hnone⟩) (by simp)

/-- The bytes written so far are followed by one more, the last of which completes the payload (R119). -/
theorem payloadByte_keeps_rxInv {s : State} (h : RxInv s) (hs : s.dec.state = .readingPayload) (v : Byte) :
    RxInv (s.setDec
      { nextField (if s.dec.idx.toNat + 1 = s.dec.lenR.toNat then .readingCrc else .readingPayload) s.dec with
        buf := s.dec.buf.put s.dec.idx.toNat v, idx := s.dec.idx + 1 }) := by
  obtain ⟨hidx, hwritten⟩ := h.payload hs
  have hne : s.dec.state ≠ .awaitingPreamble := by simp [hs]
  have hsucc : (s.dec.idx + 1).toNat = s.dec.idx.toNat + 1 := by bv_omega
  have hform : (s.dec.buf.put s.dec.idx.toNat v).wf Config.rxBufLen = true :=
    Memory.wf_put h.bufForm (show s.dec.idx.toNat < 255 by omega)
  have hwritten' := Memory.written_put hwritten v
  split
  · next hlast =>
    have hfull : s.dec.idx + 1 = s.dec.lenR := BitVec.eq_of_toNat_eq (hsucc.trans hlast)
    exact nextField_keeps_rxInv h hne hform nofun fun _ => ⟨hfull, hlast ▸ hwritten'⟩
  · next hmore =>
    have hlt : (s.dec.idx + 1).toNat < s.dec.lenR.toNat := by omega
    exact nextField_keeps_rxInv h hne hform (fun _ => ⟨hlt, hsucc ▸ hwritten'⟩) (by simp)

/-- A sample keeps the receive side's invariant, field by field (R113, R115 to R121). -/
theorem stateRule_keeps_rxInv {v : Word16} {c : Nat} {s t : State} (h : RxInv s) (hv : v.toNat < 2 ^ c)
    (ht : stateRule v c s = .next t) : RxInv t := by
  rcases stateRule_cases ht with ⟨-, rfl⟩ | ⟨hs, hc, rfl⟩ | ⟨hs, -, ⟨-, rfl⟩ | ⟨-, rfl⟩⟩ | ⟨hs, -, rfl⟩ |
    ⟨hs, -, rfl⟩ | ⟨hs, -, -, rfl⟩ | ⟨hs, -, ⟨-, rfl⟩ | ⟨-, rfl⟩⟩ | ⟨hs, -, ⟨-, rfl⟩ | ⟨-, rfl⟩⟩
  · exact h
  · exact keepBits_keeps_rxInv h (DecState.lt_fieldBits hs hc) hv
  · exact nextField_keeps_rxInv h (by simp [hs]) h.bufForm nofun (by simp)
  · exact raiseError_keeps_rxInv h (by simp [hs])
  · exact nextField_keeps_rxInv h (by simp [hs]) h.bufForm nofun (by simp)
  · exact lengthByte_keeps_rxInv h (by simp [hs]) _
  · exact payloadByte_keeps_rxInv h hs _
  · exact nextField_keeps_rxInv h (by simp [hs]) h.bufForm nofun fun _ => h.complete (.inl hs)
  · exact raiseError_keeps_rxInv h (by simp [hs])
  · exact terminal_keeps_rxInv h (by simp [hs]) (by decide) fun _ => hs
  · exact raiseError_keeps_rxInv h (by simp [hs])

theorem readLevel_keeps_rxInv {b : Bool} {s t : State} (h : RxInv s) (ht : readLevel b s = .next t) : RxInv t := by
  rcases readLevel_cases ht with ⟨-, rfl⟩ | ⟨-, hwait, rfl⟩ | ⟨-, -, hsample⟩
  · exact h
  · exact setWait_keeps_rxInv h ((Nat.sub_le _ 1).trans_lt h.waitFits) fun _ => Nat.le_sub_one_of_lt hwait
  · have hspacing : s.dec.state ≠ .awaitingPreamble → 1 ≤ s.dec.spacing := fun hne =>
      have ⟨_, _, _, hpos⟩ := h.attempt hne
      hpos
    exact stateRule_keeps_rxInv (setWait_keeps_rxInv h h.spacingFits hspacing) (shiftIn_toNat_lt h.value) hsample

theorem rxSide_keeps_rxInv {inp : PortInputs} {s t : State} (h : RxInv s) (ht : rxSide inp s = .next t) : RxInv t := by
  have hb : RxInv (rxBegin inp.rxIn s) := rxBegin_keeps_rxInv h
  by_cases hs : s.dec.state = .awaitingPreamble
  · rw [rxSide_waiting hs, andThen_eq_next] at ht
    obtain ⟨u, hu, hcru⟩ := ht
    have hreceived : RxInv u ∧ u.dec.state = (rxBegin inp.rxIn s).dec.state := by
      split at hu
      · exact execReceive_keeps_rxInv hb hu
      · obtain rfl := by simpa using hu.symm
        exact ⟨hb, rfl⟩
    obtain ⟨hinv, hstate⟩ := hreceived
    exact cruSide_keeps_rxInv hinv (hstate.trans hs) hcru
  · rw [rxSide_reading hs] at ht
    exact readLevel_keeps_rxInv hb ht

/-! ## The clock step -/

theorem clockStep_keeps_inv {inp : PortInputs} {s t : State} (h : s.Inv) (ht : clockStep inp s = .next t) : t.Inv := by
  obtain ⟨hrx, htx⟩ := State.inv_iff.mp h
  cases hr : inp.rst with
  | true =>
    rw [clockStep_reset hr] at ht
    obtain rfl := by simpa using ht.symm
    exact resetRegs_inv h.par
  | false =>
    obtain ⟨u, hu, hut⟩ := clockStep_cases hr ht
    have hcrc : TxInv (s.setCrcR (crcNext s.par s.crcR inp.crcOp inp.crcDin)) := htx.congr rfl rfl
    have htxu : TxInv u := txSide_keeps_txInv hcrc hu
    have hrxu : RxInv u := by
      rw [txSide_onlyEnc hu]
      exact hrx.congr rfl rfl rfl
    obtain ⟨hpar, -, henc, -⟩ := rxSide_frame hut
    exact State.inv_iff.mpr ⟨rxSide_keeps_rxInv hrxu hut, htxu.congr hpar henc⟩

theorem clockStep_keeps_par {inp : PortInputs} {s t : State} (ht : clockStep inp s = .next t) : t.par = s.par := by
  cases hr : inp.rst with
  | true =>
    rw [clockStep_reset hr] at ht
    obtain rfl := by simpa using ht.symm
    rfl
  | false =>
    obtain ⟨u, hu, hut⟩ := clockStep_cases hr ht
    obtain ⟨hpar, -⟩ := rxSide_frame hut
    rw [hpar, txSide_onlyEnc hu]
    rfl

/-! ## The statements -/

/-- Settles O50: the receive side and the transmit side each keep their half of the invariant, and neither writes the
other's registers. -/
theorem stepKeepsInvariant : Obligations.StepKeepsInvariant := by
  unfold Obligations.StepKeepsInvariant
  intro s t h ht
  obtain ⟨hrx, htx⟩ := State.inv_iff.mp h
  have hconsume : (consume s).Inv := State.inv_iff.mpr ⟨hrx.congr rfl rfl rfl, htx.congr rfl rfl⟩
  exact clockStep_keeps_inv hconsume ht

/-- Settles O55: a reset keeps the parameters, and no unit writes them. -/
theorem parametersNeverChange : Obligations.ParametersNeverChange := by
  unfold Obligations.ParametersNeverChange
  intro s t ht
  exact clockStep_keeps_par (s := consume s) ht

/-- Settles O37: the index is below the length byte while a payload is read, and no byte is above 255. -/
theorem payloadIndexPastBufferFaults : Obligations.PayloadIndexPastBufferFaults := by
  unfold Obligations.PayloadIndexPastBufferFaults
  constructor
  · intro s v hidx
    simp [exec, execPayloadByte, hidx, Config.rxBufLen]
  · intro s h hs
    obtain ⟨hlt, -⟩ := h.dec.payload hs
    have hlen := s.dec.lenR.isLt
    omega

/-- Settles O49: the default parameters are well formed, and the reset registers fit whatever the parameters are. -/
theorem resetMeetsInvariant : Obligations.ResetMeetsInvariant := by
  unfold Obligations.ResetMeetsInvariant
  exact ⟨resetWith_inv (by decide), fun _ hp => resetWith_inv hp⟩

end Sys2Proof.Machine
end

section
/-! PROOFS. The two ports and the two sides (20_memory.md): a Message leaves only through the RX port and only in its
transaction, a waiting one is kept until then, and the receive side and the transmit side share no state (R55, R57, R61). -/

namespace Sys2Proof.Machine

/-! ## The Message on the RX port -/

/-- A read of `buf` depends on what was written since the last reset, and on which reset that was (log 5). -/
theorem readBuf_congr {s t : State} (hbuf : t.dec.buf = s.dec.buf) (hepoch : t.epoch = s.epoch) :
    readBuf t = readBuf s := by
  funext i
  simp only [readBuf, hbuf, hepoch]

/-- While a Message waits, `rx_data` shows its bytes (R46). -/
theorem rxData_of_pend {s : State} {i : Nat} (hpend : s.dec.deliverPend = true) (hi : i < s.dec.lenR.toNat) :
    rxData s i = readBuf s i :=
  if_pos ⟨hpend, hi⟩

/-- RECEIVE records the Message it hands over (R124). -/
theorem execReceive_pend {s : State} (hpend : s.dec.deliverPend = true) :
    execReceive s = .next ((s.addTaken (message s)).setDec { s.dec with deliverPend := false }) :=
  if_pos hpend

/-- The receive side hands over the waiting Message in a RECEIVE transaction, and no other (R74, R124). -/
theorem rxSide_taken {inp : PortInputs} {s t : State} (h : rxSide inp s = .next t) :
    t.taken = if s.dec.state = .awaitingPreamble ∧ s.dec.deliverPend = true ∧ inp.rxReady = true then
      s.taken ++ [message s] else s.taken := by
  by_cases hs : s.dec.state = .awaitingPreamble
  · rw [rxSide_waiting hs, andThen_eq_next] at h
    obtain ⟨u, hu, hut⟩ := h
    have hrecord : u.dec.state = .awaitingPreamble ∧
        u.taken = if s.dec.deliverPend = true ∧ inp.rxReady = true then s.taken ++ [message s] else s.taken := by
      split at hu
      · next hc =>
        rw [execReceive_pend (s := rxBegin inp.rxIn s) hc.1] at hu
        obtain rfl := by simpa using hu.symm
        exact ⟨hs, (if_pos hc).symm⟩
      · next hc =>
        obtain rfl := by simpa using hu.symm
        exact ⟨hs, (if_neg hc).symm⟩
    obtain ⟨hstate, htaken⟩ := hrecord
    rw [cruSide_onlyRx hstate hut]
    simpa [hs] using htaken
  · rw [rxSide_reading hs] at h
    rw [readLevel_onlyRx h, if_neg fun h => hs h.1]
    rfl

/-- What a step without reset does to the record of departed Messages (R55, R59). -/
theorem clockStep_taken {inp : PortInputs} {s t : State} (hr : inp.rst = false) (h : clockStep inp s = .next t) :
    t.taken = if s.dec.state = .awaitingPreamble ∧ s.dec.deliverPend = true ∧ inp.rxReady = true then
      s.taken ++ [message s] else s.taken := by
  obtain ⟨u, hu, hut⟩ := clockStep_cases hr h
  rw [rxSide_taken hut, txSide_onlyEnc hu]
  rfl

/-! ## A waiting Message -/

/-- The decoder holds a Message for the host, and the CRU rests meanwhile (R62, R110). -/
structure MessageWaits (s : State) : Prop where
  state : s.dec.state = .awaitingPreamble
  pend : s.dec.deliverPend = true
  armed : s.cru.armed = false

/-- From `s` to `t` nothing has changed that a waiting Message is made of. -/
structure KeepsMessage (s t : State) : Prop where
  dec : t.dec = { s.dec with rxStat := t.dec.rxStat }
  armed : t.cru.armed = s.cru.armed
  epoch : t.epoch = s.epoch
  taken : t.taken = s.taken

theorem State.Inv.messageWaits {s : State} (h : s.Inv) (hpend : s.dec.deliverPend = true) : MessageWaits s where
  state := by
    by_contra hne
    obtain ⟨-, hnone, -⟩ := h.dec.attempt hne
    simp [hpend] at hnone
  pend := hpend
  armed := by
    by_contra harmed
    obtain ⟨-, hnone⟩ := h.cru.armedWaits (by simpa using harmed)
    simp [hpend] at hnone

theorem KeepsMessage.refl (s : State) : KeepsMessage s s := ⟨rfl, rfl, rfl, rfl⟩

theorem KeepsMessage.trans {s t u : State} (h : KeepsMessage s t) (h' : KeepsMessage t u) : KeepsMessage s u where
  dec := by rw [h'.dec, h.dec]
  armed := h'.armed.trans h.armed
  epoch := h'.epoch.trans h.epoch
  taken := h'.taken.trans h.taken

theorem KeepsMessage.messageWaits {s t : State} (h : KeepsMessage s t) (hs : MessageWaits s) : MessageWaits t where
  state := by rw [h.dec]; exact hs.state
  pend := by rw [h.dec]; exact hs.pend
  armed := h.armed.trans hs.armed

/-- While a Message waits, `deliver_pend` keeps the unarmed CRU from arming (R108). -/
theorem quietStep_pend (e : Bool) (s : State) :
    quietStep e true s = s.setCru { s.cru with quiet := if e then 0 else sat s.par.cntW (s.cru.quiet + 1) } := by
  simp [quietStep, armCheck]

/-- While a Message waits and the host does not take it, the receive side only counts quiet steps (R107, R110). -/
theorem rxSide_keepsMessage {inp : PortInputs} {s t : State} (hs : MessageWaits s) (hready : inp.rxReady = false)
    (h : rxSide inp s = .next t) : KeepsMessage s t := by
  rw [rxSide_waiting hs.state, if_neg (by simp [hready]), andThen_next,
    cruSide_next _ (rxBegin inp.rxIn s) hs.state, if_neg (by simp [hs.armed]), rxBegin_dec, hs.pend, quietStep_pend] at h
  obtain rfl := by simpa using h.symm
  exact ⟨rfl, rfl, rfl, rfl⟩

theorem step_keepsMessage {inp : PortInputs} {s t : State} (hs : MessageWaits s) (hr : inp.rst = false)
    (hready : inp.rxReady = false) (h : step (s.withInputs [inp]) = .next t) : KeepsMessage s t := by
  rw [step_withInputs] at h
  obtain ⟨u, hu, hut⟩ := clockStep_cases hr h
  have hsu : KeepsMessage s u := by
    rw [txSide_onlyEnc hu]
    exact ⟨rfl, rfl, rfl, rfl⟩
  exact hsu.trans (rxSide_keepsMessage (hsu.messageWaits hs) hready hut)

/-- The host decides when a waiting Message leaves: until then no run changes it (R57). -/
theorem runWith_keepsMessage {ins : List PortInputs} {s t : State} (hs : MessageWaits s) (hr : noReset ins)
    (hready : ∀ x ∈ ins, x.rxReady = false) (h : runWith ins s = .next t) : KeepsMessage s t := by
  induction ins generalizing s with
  | nil =>
    obtain rfl := by simpa [runWith] using h.symm
    exact .refl t
  | cons inp rest ih =>
    rw [runWith, andThen_eq_next] at h
    obtain ⟨u, hu, hut⟩ := h
    obtain ⟨hr1, hrest⟩ := List.forall_mem_cons.mp hr
    obtain ⟨hready1, hreadyRest⟩ := List.forall_mem_cons.mp hready
    have hsu : KeepsMessage s u := step_keepsMessage hs hr1 hready1 hu
    exact hsu.trans (ih (hsu.messageWaits hs) hrest hreadyRest hut)

/-! ## What each side sees -/

/-- What the receive side may read: every register of another unit is blanked out. -/
def State.rxView (s : State) : State := { s with crcR := 0, enc := Enc.reset, inputs := [], taken := [] }

/-- What the transmit side may read: every register of another unit is blanked out. -/
def State.txView (s : State) : State :=
  { s with crcR := 0, cru := Cru.reset, dec := Dec.reset, inputs := [], taken := [] }

/-- A result as one side sees it. -/
def seenBy (view : State → State) (o : Result) : Result := andThen o fun s => .next (view s)

@[simp] theorem seenBy_next (view : State → State) (s : State) : seenBy view (.next s) = .next (view s) := rfl
@[simp] theorem seenBy_fault (view : State → State) (r : Fault) : seenBy view (.fault r) = .fault r := rfl

theorem rxView_eq_iff {s t : State} : s.rxView = t.rxView ↔
    s.par = t.par ∧ s.cru = t.cru ∧ s.dec = t.dec ∧ s.stepIx = t.stepIx ∧ s.epoch = t.epoch := by
  simp [State.rxView]

theorem txView_eq_iff {s t : State} : s.txView = t.txView ↔
    s.par = t.par ∧ s.enc = t.enc ∧ s.stepIx = t.stepIx ∧ s.epoch = t.epoch := by
  simp [State.txView]

@[simp] theorem rxView_cru (s : State) : s.rxView.cru = s.cru := rfl
@[simp] theorem rxView_dec (s : State) : s.rxView.dec = s.dec := rfl
@[simp] theorem rxView_setCru (s : State) (c : Cru) : (s.setCru c).rxView = s.rxView.setCru c := rfl
@[simp] theorem rxView_setDec (s : State) (d : Dec) : (s.setDec d).rxView = s.rxView.setDec d := rfl

@[simp] theorem txView_par (s : State) : s.txView.par = s.par := rfl
@[simp] theorem txView_enc (s : State) : s.txView.enc = s.enc := rfl
@[simp] theorem txView_setEnc (s : State) (e : Enc) : (s.setEnc e).txView = s.txView.setEnc e := rfl
@[simp] theorem txView_txBegin (s : State) : (txBegin s).txView = txBegin s.txView := rfl

/-! ## The receive side runs on what it sees -/

@[simp] theorem armCheck_rxView (q : Nat) (pend : Bool) (s : State) :
    (armCheck q pend s).rxView = armCheck q pend s.rxView := apply_ite State.rxView ..

@[simp] theorem quietStep_rxView (e pend : Bool) (s : State) :
    (quietStep e pend s).rxView = quietStep e pend s.rxView := armCheck_rxView ..

@[simp] theorem terminal_rxView (code : BitVec 3) (pend : Bool) (s : State) :
    (terminal code pend s).rxView = terminal code pend s.rxView := armCheck_rxView ..

@[simp] theorem raiseError_rxView (e : DecError) (s : State) : (raiseError e s).rxView = raiseError e s.rxView :=
  terminal_rxView ..

@[simp] theorem countQuiet_rxView (s : State) : (countQuiet s).rxView = countQuiet s.rxView :=
  apply_ite State.rxView ..

@[simp] theorem countEdge_rxView (s : State) : (countEdge s).rxView = countEdge s.rxView := by
  simp only [countEdge, apply_ite State.rxView, rxView_cru, rxView_setCru]
  rfl

@[simp] theorem keepBits_rxView (v : Word16) (c : Nat) (s : State) : (keepBits v c s).rxView = keepBits v c s.rxView :=
  rfl

@[simp] theorem beforeByte_rxView (v : Word16) (s : State) : (beforeByte v s).rxView = beforeByte v s.rxView := rfl

@[simp] theorem execStartFlag_rxView (v : Byte) (s : State) :
    seenBy State.rxView (execStartFlag .rx v s) = execStartFlag .rx v s.rxView := by
  simp [execStartFlag, apply_ite (seenBy State.rxView)]

@[simp] theorem execTypeFlags_rxView (v : Byte) (s : State) :
    seenBy State.rxView (execTypeFlags .rx v s) = execTypeFlags .rx v s.rxView := rfl

@[simp] theorem execLengthByte_rxView (v : Byte) (s : State) :
    seenBy State.rxView (execLengthByte .rx v s) = execLengthByte .rx v s.rxView := rfl

@[simp] theorem execPayloadByte_rxView (v : Byte) (s : State) :
    seenBy State.rxView (execPayloadByte .rx v s) = execPayloadByte .rx v s.rxView := by
  simp only [execPayloadByte, apply_ite (seenBy State.rxView)]
  rfl

@[simp] theorem execCrcHi_rxView (v : Byte) (s : State) :
    seenBy State.rxView (execCrcHi .rx v s) = execCrcHi .rx v s.rxView := rfl

@[simp] theorem execCrcLo_rxView (v : Byte) (s : State) :
    seenBy State.rxView (execCrcLo .rx v s) = execCrcLo .rx v s.rxView := by
  simp only [execCrcLo, apply_ite (seenBy State.rxView), seenBy_next, raiseError_rxView]
  rfl

@[simp] theorem execEndFlag_rxView (v : Byte) (s : State) :
    seenBy State.rxView (execEndFlag .rx v s) = execEndFlag .rx v s.rxView := by
  simp [execEndFlag, apply_ite (seenBy State.rxView)]

/-- A field that goes on or is completed reads only the receive side's registers, whichever field it is. -/
theorem stateRule_rxView (v : Word16) (c : Nat) (s : State) :
    seenBy State.rxView (stateRule v c s) = stateRule v c s.rxView := by
  cases hs : s.dec.state <;> simp [stateRule, hs, apply_ite (seenBy State.rxView)]

theorem readLevel_rxView (b : Bool) (s : State) :
    seenBy State.rxView (readLevel b s) = readLevel b s.rxView := by
  simp only [readLevel, sample, apply_ite (seenBy State.rxView), stateRule_rxView, seenBy_next, rxView_setDec, rxView_dec]
  rfl

theorem cruSide_rxView {e : Bool} {s : State} (hs : s.dec.state = .awaitingPreamble) :
    seenBy State.rxView (cruSide e s) = cruSide e s.rxView := by
  rw [cruSide_next e s hs, cruSide_next e s.rxView hs]
  simp only [seenBy_next, apply_ite State.rxView, countEdge_rxView, countQuiet_rxView, quietStep_rxView]
  rfl

theorem cruSide_congr_rxView {e : Bool} {s t : State} (hs : s.dec.state = .awaitingPreamble)
    (hview : s.rxView = t.rxView) : seenBy State.rxView (cruSide e s) = seenBy State.rxView (cruSide e t) := by
  obtain ⟨-, -, hdec, -⟩ := rxView_eq_iff.mp hview
  rw [cruSide_rxView hs, cruSide_rxView (hdec ▸ hs), hview]

/-- The receive side's step, as the receive side sees it, is that of its own registers. Both sides of the equation are
seen through the view, since a RECEIVE appends to the record of departed Messages, which the view leaves out. -/
theorem rxSide_rxView (inp : PortInputs) (s : State) :
    seenBy State.rxView (rxSide inp s) = seenBy State.rxView (rxSide inp s.rxView) := by
  by_cases hs : s.dec.state = .awaitingPreamble
  · rw [rxSide_waiting hs, rxSide_waiting (s := s.rxView) hs]
    by_cases hc : s.dec.deliverPend = true ∧ inp.rxReady = true
    · rw [if_pos hc, if_pos (show s.rxView.dec.deliverPend = true ∧ _ from hc),
        execReceive_pend (s := rxBegin _ s) hc.1, execReceive_pend (s := rxBegin _ s.rxView) hc.1, andThen_next,
        andThen_next]
      exact cruSide_congr_rxView hs rfl
    · rw [if_neg hc, if_neg (show ¬ (s.rxView.dec.deliverPend = true ∧ _) from hc), andThen_next, andThen_next]
      exact cruSide_congr_rxView hs rfl
  · rw [rxSide_reading hs, rxSide_reading (s := s.rxView) hs, readLevel_rxView, readLevel_rxView]
    rfl

/-- The receive side reads two of the input ports. -/
theorem rxSide_congr_inputs {inp inp' : PortInputs} (hline : inp.rxIn = inp'.rxIn) (hready : inp.rxReady = inp'.rxReady)
    (s : State) : rxSide inp s = rxSide inp' s := by
  simp only [rxSide, receiveSide, rxWord, hline, hready]

/-! ## The transmit side runs on what it sees -/

theorem readFbuf_txView (s : State) (i : Nat) : readFbuf s.txView i = readFbuf s i := rfl

@[simp] theorem endFrame_txView (s : State) : (endFrame s).txView = endFrame s.txView := apply_ite State.txView ..

@[simp] theorem gapStep_txView (s : State) : (gapStep s).txView = gapStep s.txView := apply_ite State.txView ..

@[simp] theorem beginField_txView (f : Field) (v : Byte) (s : State) :
    seenBy State.txView (beginField f v s) = beginField f v s.txView := by
  cases f <;> rfl

theorem endCell_txView (s : State) : seenBy State.txView (endCell s) = endCell s.txView := by
  simp only [endCell, readFbuf_txView, txView_enc, txView_par, apply_ite (seenBy State.txView)]
  refine if_congr Iff.rfl ?_ (if_congr Iff.rfl ?_ ?_)
  · cases readFbuf s s.enc.pos.toNat <;> rfl
  · cases readFbuf s (s.enc.pos.toNat + 1) <;> simp
  · simp

theorem serialize_txView (b : Bool) (s : State) : seenBy State.txView (serialize b s) = serialize b s.txView := by
  simp only [serialize, apply_ite (seenBy State.txView), endCell_txView, seenBy_next, txView_setEnc, txView_enc,
    txView_par]
  rfl

theorem execSend_txView (len : Byte) (data : List Byte) (s : State) :
    seenBy State.txView (execSend len data s) = execSend len data s.txView := by
  simp only [execSend, apply_ite (seenBy State.txView), seenBy_next]
  rfl

theorem symbolStep_txView (s : State) : seenBy State.txView (symbolStep s) = symbolStep s.txView := by
  rw [symbolStep_eq, symbolStep_eq, readFbuf_txView, txView_enc]
  cases readFbuf s s.enc.pos.toNat with
  | none => rfl
  | some w => exact serialize_txView ..

/-- The transmit side's step, as the transmit side sees it, is that of its own registers. -/
theorem txSide_txView (inp : PortInputs) (s : State) :
    seenBy State.txView (txSide inp s) = txSide inp s.txView := by
  cases hs : s.enc.state with
  | idle =>
    rw [txSide_idle hs, txSide_idle (s := s.txView) hs, apply_ite (seenBy State.txView), execSend_txView]
    rfl
  | send =>
    rw [txSide_send hs, txSide_send (s := s.txView) hs, symbolStep_txView, txView_txBegin]
  | gap =>
    rw [txSide_gap hs, txSide_gap (s := s.txView) hs, seenBy_next, gapStep_txView, txView_txBegin]

/-- The transmit side reads three of the input ports. -/
theorem txSide_congr_inputs {inp inp' : PortInputs} (hvalid : inp.txValid = inp'.txValid)
    (hlen : inp.txLen = inp'.txLen) (hdata : inp.txData = inp'.txData) (s : State) :
    txSide inp s = txSide inp' s := by
  have hbyte : txByte inp = txByte inp' := by
    funext n i
    simp only [txByte, hdata]
  simp only [txSide, sendSide, txWord, txBytes, hbyte, hvalid, hlen]

/-! ## One clock step of each side -/

/-- What the receive side becomes in a step depends on its own registers and ports alone (R61). -/
theorem clockStep_congr_rxView {inp inp' : PortInputs} {s s' t t' : State} (hr : inp.rst = inp'.rst)
    (hline : inp.rxIn = inp'.rxIn) (hready : inp.rxReady = inp'.rxReady) (hview : s.rxView = s'.rxView)
    (h : clockStep inp s = .next t) (h' : clockStep inp' s' = .next t') : t.rxView = t'.rxView := by
  cases hrst : inp.rst with
  | true =>
    rw [clockStep_reset hrst] at h
    rw [clockStep_reset (hr ▸ hrst)] at h'
    obtain rfl := by simpa using h.symm
    obtain rfl := by simpa using h'.symm
    obtain ⟨hpar, -, -, hix, hepoch⟩ := rxView_eq_iff.mp hview
    exact rxView_eq_iff.mpr ⟨hpar, rfl, rfl, hix, congrArg (· + 1) hepoch⟩
  | false =>
    obtain ⟨u, hu, hut⟩ := clockStep_cases hrst h
    obtain ⟨u', hu', hut'⟩ := clockStep_cases (hr ▸ hrst) h'
    have huview : u.rxView = s.rxView := by rw [txSide_onlyEnc hu]; rfl
    have huview' : u'.rxView = s'.rxView := by rw [txSide_onlyEnc hu']; rfl
    have heq : (Host.Outcome.next t.rxView : Result) = .next t'.rxView := by
      calc (Host.Outcome.next t.rxView : Result)
          = seenBy State.rxView (rxSide inp u) := by rw [hut]; rfl
        _ = seenBy State.rxView (rxSide inp' u') := by
          rw [rxSide_rxView, huview, hview, ← huview', rxSide_congr_inputs hline hready, ← rxSide_rxView]
        _ = .next t'.rxView := by rw [hut']; rfl
    simpa using heq

/-- What the transmit side becomes in a step depends on its own registers and ports alone (R61). -/
theorem clockStep_congr_txView {inp inp' : PortInputs} {s s' t t' : State} (hr : inp.rst = inp'.rst)
    (hvalid : inp.txValid = inp'.txValid) (hlen : inp.txLen = inp'.txLen) (hdata : inp.txData = inp'.txData)
    (hview : s.txView = s'.txView)
    (h : clockStep inp s = .next t) (h' : clockStep inp' s' = .next t') : t.enc = t'.enc := by
  cases hrst : inp.rst with
  | true =>
    rw [clockStep_reset hrst] at h
    rw [clockStep_reset (hr ▸ hrst)] at h'
    obtain rfl := by simpa using h.symm
    obtain rfl := by simpa using h'.symm
    rfl
  | false =>
    obtain ⟨u, hu, hut⟩ := clockStep_cases hrst h
    obtain ⟨u', hu', hut'⟩ := clockStep_cases (hr ▸ hrst) h'
    have heq : (Host.Outcome.next u.txView : Result) = .next u'.txView := by
      calc (Host.Outcome.next u.txView : Result)
          = txSide inp s.txView := by rw [← seenBy_next, ← hu, txSide_txView]; rfl
        _ = txSide inp' s'.txView := by rw [hview, txSide_congr_inputs hvalid hlen hdata]
        _ = .next u'.txView := by rw [← seenBy_next, ← hu', txSide_txView]; rfl
    obtain ⟨-, henc, -⟩ := txView_eq_iff.mp (by simpa using heq)
    obtain ⟨-, -, ht, -⟩ := rxSide_frame hut
    obtain ⟨-, -, ht', -⟩ := rxSide_frame hut'
    rw [ht, ht', henc]

/-! ## The statements -/

/-- Settles O46: while a Message waits, `deliver_pend` holds the CRU back, and no unit writes what the Message is made
of. -/
theorem waitingMessageIsStable : Obligations.WaitingMessageIsStable := by
  unfold Obligations.WaitingMessageIsStable
  intro s t ins hinv hpend hr hready h
  have hwaits : MessageWaits s := hinv.messageWaits hpend
  have hkeeps : KeepsMessage s t := runWith_keepsMessage hwaits hr hready h
  have ⟨_, hpend', harmed⟩ := hkeeps.messageWaits hwaits
  have hlen : t.dec.lenR = s.dec.lenR := by rw [hkeeps.dec]
  have hbuf : t.dec.buf = s.dec.buf := by rw [hkeeps.dec]
  have hread : readBuf t = readBuf s := readBuf_congr hbuf hkeeps.epoch
  have hdata : ∀ i < s.dec.lenR.toNat, rxData t i = rxData s i := fun i hi => by
    rw [rxData_of_pend hpend' (hlen ▸ hi), rxData_of_pend hpend hi, hread]
  exact ⟨hpend', hlen, hbuf, by rw [message, message, bufBytes, bufBytes, hread, hlen], hdata, harmed, hkeeps.taken⟩

/-- Settles O48: RECEIVE alone writes the list, it runs only in `AwaitingPreamble`, and a reset leaves the list alone. -/
theorem messagesLeaveWholeAndInOrder : Obligations.MessagesLeaveWholeAndInOrder := by
  unfold Obligations.MessagesLeaveWholeAndInOrder
  intro s t inp h
  rw [step_withInputs] at h
  cases hr : inp.rst with
  | true =>
    rw [clockStep_reset hr] at h
    obtain rfl := by simpa using h.symm
    simp
  | false =>
    rw [clockStep_taken hr h]
    simp only [true_and]
    rfl

/-- Settles O54: each side's step is the step of its own registers and ports, with everything else blanked out. -/
theorem sidesShareNoState : Obligations.SidesShareNoState := by
  unfold Obligations.SidesShareNoState
  intro s s' t t' inp inp' hpar hepoch hix hr h h'
  have hix' : (consume (s.withInputs [inp])).stepIx = (consume (s'.withInputs [inp'])).stepIx := congrArg (· + 1) hix
  constructor
  · intro hcru hdec hline hready
    have hview : (consume (s.withInputs [inp])).rxView = (consume (s'.withInputs [inp'])).rxView :=
      rxView_eq_iff.mpr ⟨hpar, hcru, hdec, hix', hepoch⟩
    obtain ⟨-, hcru', hdec', -⟩ := rxView_eq_iff.mp (clockStep_congr_rxView hr hline hready hview h h')
    exact ⟨hcru', hdec'⟩
  · intro henc hvalid hlen hdata
    have hview : (consume (s.withInputs [inp])).txView = (consume (s'.withInputs [inp'])).txView :=
      txView_eq_iff.mpr ⟨hpar, henc, hix', hepoch⟩
    exact clockStep_congr_txView hr hvalid hlen hdata hview h h'

end Sys2Proof.Machine
end

section
/-! PROOFS. The formats (30_encoding.md): decoding undoes encoding, the decoder answers well-formed operations of its slot,
a step runs the operations decoded at the ports, and the samples of a field are its reception (R66 to R78). -/

namespace Sys2Proof.Machine

/-! ## Decoding a word of each format -/

theorem decode_symbol {d : Dir} {b : Byte} {i : Instr} (rest : List Byte) (h : decodeSymbol d b = .ok i) :
    decode (.symbol d) (b :: rest) = .ok (i, rest) := by
  simp only [decode, h]

theorem decode_frame {d : Dir} {f : Field} {b : Byte} {i : Instr} (rest : List Byte)
    (h : decodeFrameByte d f b = .ok i) : decode (.frame d f) (b :: rest) = .ok (i, rest) := by
  simp only [decode, h]

/-- A SEND takes exactly the `tx_len` bytes after the length (R74). -/
theorem decode_send {len : Byte} {data : List Byte} (rest : List Byte) (h : data.length = len.toNat) :
    decode .txPort (0b11 :: len :: (data ++ rest)) = .ok (.send len data, rest) := by
  have hfits : len.toNat ≤ (data ++ rest).length := by rw [List.length_append]; omega
  simp only [decode, decodeHandshake, if_true, if_pos hfits, List.take_left' h, List.drop_left' h]

/-- Settles O1: a format at a time; the decoder's checks of a sent byte are the ones well-formedness makes, and the length
byte of a SEND says where its data end. -/
theorem decodeAfterEncode : Obligations.DecodeAfterEncode := by
  unfold Obligations.DecodeAfterEncode
  intro i rest hwf
  cases i with
  | sym1 d => exact decode_symbol rest rfl
  | sym0 d => exact decode_symbol rest rfl
  | preamble d => cases d <;> exact decode_frame rest rfl
  | startFlag d v | typeFlags d v | lengthByte d v | endFlag d v =>
    cases d <;> exact decode_frame rest (by simp_all [Instr.wellFormed, decodeFrameByte])
  | payloadByte d v | crcHi d v | crcLo d v => cases d <;> exact decode_frame rest rfl
  | crcNop | crcInit | crcUpdate din | crcReserved | receive => rfl
  | send len data => exact decode_send rest (by simpa [Instr.wellFormed] using hwf)

/-! ## What the decoder answers -/

/-- A well-formed operation of a slot. -/
def IsOperationOf (slot : Slot) (i : Instr) : Prop := i.wellFormed = true ∧ i.slot = slot

/-- A symbol's four words are SYM1 and SYM0, the violations only on reception (R66, R67). -/
theorem decodeSymbol_isOperation {d : Dir} {b : Byte} {i : Instr} (h : decodeSymbol d b = .ok i) :
    IsOperationOf (.symbol d) i := by
  cases d <;> simp only [decodeSymbol] at h <;> split_ifs at h <;> cases h <;> exact ⟨rfl, rfl⟩

/-- The decoder takes any byte of a received field, and of a sent one those the encoder sends (R69, R73). -/
theorem decodeFrameByte_isOperation {d : Dir} {f : Field} {b : Byte} {i : Instr} (h : decodeFrameByte d f b = .ok i) :
    IsOperationOf (.frame d f) i := by
  cases d <;> cases f <;> simp only [decodeFrameByte] at h
  case tx.preamble | tx.startFlag | tx.typeFlags | tx.lengthByte | tx.endFlag =>
    split at h
    · next hsent => cases h; exact ⟨by simp [Instr.wellFormed, hsent], rfl⟩
    · cases h
  all_goals cases h; exact ⟨rfl, rfl⟩

theorem decodeCrcOp_isOperation {op din : Byte} {i : Instr} (h : decodeCrcOp op din = .ok i) :
    IsOperationOf .crcPort i := by
  unfold decodeCrcOp at h
  split_ifs at h <;> cases h <;> exact ⟨rfl, rfl⟩

/-- The answer of the decoder, format by format: an operation of the slot, in front of the bytes that are left. -/
theorem decode_isOperation {slot : Slot} {word rest : List Byte} {i : Instr} (h : decode slot word = .ok (i, rest)) :
    IsOperationOf slot i ∧ ∃ used, word = used ++ rest ∧ used.length = Laws.SlotWord.slotLength i slot := by
  unfold decode at h
  split at h
  next d b _ =>
    split at h <;> cases h
    next hi => exact ⟨decodeSymbol_isOperation hi, [b], rfl, rfl⟩
  next d f b _ =>
    split at h <;> cases h
    next hi => exact ⟨decodeFrameByte_isOperation hi, [b], rfl, rfl⟩
  next op din _ =>
    split at h <;> cases h
    next hi => exact ⟨decodeCrcOp_isOperation hi, [op, din], rfl, rfl⟩
  next hs len data =>
    split at h
    · cases h
    · split at h <;> cases h
      next hfits =>
        have hlen : (data.take len.toNat).length = len.toNat := List.length_take_of_le hfits
        refine ⟨⟨by simpa [Instr.wellFormed] using hfits, rfl⟩, hs :: len :: data.take len.toNat, ?_, ?_⟩
        · simp
        · simp only [List.length_cons, hlen, Laws.SlotWord.slotLength]; omega
  next hs _ =>
    split at h <;> cases h
    exact ⟨⟨rfl, rfl⟩, [hs], rfl, rfl⟩
  next => cases h

/-- The word of a well-formed operation has the length of its slot's format, whatever the operation. -/
theorem length_encode {i : Instr} (h : i.wellFormed = true) : (encode i).length = Laws.SlotWord.slotLength i i.slot := by
  cases i with
  | send len data => exact Laws.SlotWord.send len data h
  | _ => rfl

/-- Settles O2: the decoder used as many bytes as the slot's format has, and so does the operation's own word. -/
theorem decodedIsWellFormed : Obligations.DecodedIsWellFormed := by
  unfold Obligations.DecodedIsWellFormed
  intro slot word rest i h
  obtain ⟨⟨hwf, rfl⟩, used, hword, hlen⟩ := decode_isOperation h
  exact ⟨hwf, rfl, used, hword, hlen.trans (length_encode hwf).symm⟩

/-- Settles O3: each word decoded. -/
theorem writtenOutWordsDecode : Obligations.WrittenOutWordsDecode := by
  unfold Obligations.WrittenOutWordsDecode
  decide

/-- Settles O4: each violation decoded in each direction. -/
theorem violationsReadAsFirstHalf : Obligations.ViolationsReadAsFirstHalf := by
  unfold Obligations.ViolationsReadAsFirstHalf
  decide

/-! ## The operations of a step -/

theorem fetch_of_decode {slot : Slot} {word rest : List Byte} {i : Instr} (h : decode slot word = .ok (i, rest)) :
    fetch slot word = some i := by
  simp only [fetch, h]

/-- Settles O5: each unit fetches the operation decoded from its port's word; the defaults a side writes first leave that
word and the bit on the line as they are. -/
theorem stepRunsDecodedOperations : Obligations.StepRunsDecodedOperations := by
  unfold Obligations.StepRunsDecodedOperations
  refine ⟨fun _ _ _ => rfl, fun s inp i r => ⟨?crc, ?idle, ?send, ?waiting, ?edge, ?reading⟩⟩
  case crc =>
    intro h
    simp only [crcSide, fetch_of_decode h]
  case idle =>
    intro hs h
    have hfetch : fetch .txPort (txWord inp (txBegin s)) = some i := fetch_of_decode h
    simp only [txSide, hs, sendSide, hfetch]
  case send =>
    intro hs b hb
    have hbit : currentBit (txBegin s) = some b := hb
    simp only [txSide_send hs, symbolStep, hbit]
  case waiting =>
    intro hs h
    have hfetch : fetch .rxPort (rxWord inp (rxBegin inp.rxIn s)) = some i := fetch_of_decode h
    simp only [rxSide, if_pos hs, receiveSide, hfetch]
  case edge =>
    intro harmed
    simp only [cruSide, if_pos harmed, if_true]
  case reading =>
    intro hs
    simp only [rxSide, if_neg hs]

/-! ## Samples -/

theorem execAll_append (is js : List Instr) (s : State) :
    execAll (is ++ js) s = andThen (execAll is s) (execAll js) := by
  induction is generalizing s with
  | nil => rfl
  | cons i is ih =>
    simp only [List.cons_append, execAll, andThen_assoc]
    exact congrArg (andThen (exec i s)) (funext ih)

@[simp] theorem execAll_singleton (i : Instr) (s : State) : execAll [i] s = exec i s := by
  simp only [execAll]
  cases exec i s <;> rfl

/-- The bit goes in at the bottom, and the others move up (R111). -/
theorem getLsbD_shiftIn (v : Word16) (b : Bool) (i : Nat) :
    (shiftIn v b).getLsbD i = if i = 0 then b else decide (i < 16) && v.getLsbD (i - 1) := by
  cases i with
  | zero => simp [shiftIn]
  | succ i => simp [shiftIn]

@[simp] theorem length_byteBits (b : Byte) : (byteBits b).length = 8 := by
  rw [byteBits, List.length_map, List.length_range]

/-- Eight bits of a byte, most significant first, put it below the value's low byte (R71). -/
theorem foldl_shiftIn_byteBits (v : Word16) (b : Byte) : (byteBits b).foldl shiftIn v = fieldWord v b := by
  have hbits : byteBits b = [b.getLsbD 7, b.getLsbD 6, b.getLsbD 5, b.getLsbD 4, b.getLsbD 3, b.getLsbD 2,
    b.getLsbD 1, b.getLsbD 0] := rfl
  apply BitVec.eq_of_getLsbD_eq
  intro i hi
  rw [hbits]
  simp only [List.foldl, fieldWord, loByte, getLsbD_shiftIn, BitVec.getLsbD_append, BitVec.getLsbD_extractLsb']
  interval_cases i <;> simp

@[simp] theorem hiByte_append (hi lo : Byte) : hiByte (hi ++ lo) = hi := BitVec.extractLsb'_append_eq_left

@[simp] theorem loByte_append (hi lo : Byte) : loByte (hi ++ lo) = lo := BitVec.extractLsb'_append_eq_right

/-- The state in a field after a sample: `c` bits of value `v`, the next sample `spacing` steps away (R111, R113). -/
def inField (v : Word16) (c : Nat) (s : State) : State :=
  s.setDec { s.dec with wait := s.dec.spacing, val := v, bitCnt := BitVec.ofNat 5 c }

@[simp] theorem inField_state (v : Word16) (c : Nat) (s : State) : (inField v c s).dec.state = s.dec.state := rfl
@[simp] theorem inField_val (v : Word16) (c : Nat) (s : State) : (inField v c s).dec.val = v := rfl

theorem exec_symbolOf_rx (b : Bool) (s : State) : exec (symbolOf .rx b) s = readLevel b s := by
  cases b <;> rfl

/-- With the sampling clock run out, the step is a sample (R111). -/
theorem exec_symbolOf_rx_of_wait {s : State} (hs : s.dec.state ≠ .awaitingPreamble) (hw : s.dec.wait ≤ 1) (b : Bool) :
    exec (symbolOf .rx b) s = sample b s := by
  rw [exec_symbolOf_rx, readLevel, if_neg hs, if_neg (by omega)]

/-- A field that is not complete goes on (R113): CRC_HI too only keeps its bits (log 18). -/
theorem stateRule_of_lt {v : Word16} {c : Nat} {s : State} (hs : s.dec.state ≠ .awaitingPreamble)
    (hc : c < s.dec.state.fieldBits) : stateRule v c s = .next (keepBits v c s) := by
  cases hd : s.dec.state <;> simp only [hd, DecState.fieldBits] at hc <;> simp only [stateRule, hd, if_pos hc]
  case awaitingPreamble => exact absurd hd hs
  case readingCrc =>
    split
    · next h8 => rw [execCrcHi, fieldWord_beforeByte, h8]; rfl
    · rfl

section
variable {s : State} (hs : s.dec.state ≠ .awaitingPreamble) (hspacing : s.dec.spacing ≤ 1)
include hs hspacing

/-- Inside a field every step at a spacing of one is a sample, and it is the next bit (R111). -/
theorem exec_symbolOf_inField (v : Word16) {c : Nat} (hc : c < s.dec.state.fieldBits) (b : Bool) :
    exec (symbolOf .rx b) (inField v c s) = stateRule (shiftIn v b) (c + 1) (inField v c s) := by
  have hbits : (inField v c s).dec.bitCnt.toNat = c := by
    have := s.dec.state.fieldBits_le
    exact Nat.mod_eq_of_lt (by omega)
  have hsample : exec (symbolOf .rx b) (inField v c s) = sample b (inField v c s) :=
    exec_symbolOf_rx_of_wait (s := inField v c s) hs hspacing b
  rw [hsample, sample, hbits]
  rfl

/-- Samples that do not complete the field shift their bits in. -/
theorem execAll_samples_of_lt (bits : List Bool) (v : Word16) {c : Nat}
    (hc : c + bits.length < s.dec.state.fieldBits) :
    execAll (bits.map (symbolOf .rx)) (inField v c s) =
      .next (inField (bits.foldl shiftIn v) (c + bits.length) s) := by
  induction bits generalizing v c with
  | nil => rfl
  | cons b bits ih =>
    rw [List.length_cons] at hc
    have hfirst : exec (symbolOf .rx b) (inField v c s) = .next (inField (shiftIn v b) (c + 1) s) := by
      have hc' : c + 1 < s.dec.state.fieldBits := by omega
      rw [exec_symbolOf_inField hs hspacing v (by omega)]
      exact stateRule_of_lt hs hc'
    rw [List.map_cons, execAll, hfirst, andThen_next, ih _ (by omega), List.length_cons, List.foldl_cons,
      Nat.add_right_comm, Nat.add_assoc]

/-- The samples of a field's last byte end in the rule of its state (R113, R115 to R121). -/
theorem execAll_byteSamples_last (b : Byte) (v : Word16) {c : Nat} (hc : c + 8 = s.dec.state.fieldBits) :
    ∃ w, execAll (byteSamples b) (inField v c s) = stateRule (fieldWord v b) (c + 8) (inField w (c + 7) s) := by
  have hsplit : byteSamples b = ((byteBits b).take 7).map (symbolOf .rx) ++ [symbolOf .rx (streamBit b 7)] := rfl
  have hbits : shiftIn (((byteBits b).take 7).foldl shiftIn v) (streamBit b 7) = fieldWord v b :=
    foldl_shiftIn_byteBits v b
  have hlen : ((byteBits b).take 7).length = 7 := rfl
  refine ⟨((byteBits b).take 7).foldl shiftIn v, ?_⟩
  rw [hsplit, execAll_append, execAll_samples_of_lt hs hspacing _ v (by omega), hlen, andThen_next, execAll_singleton,
    exec_symbolOf_inField hs hspacing _ (by omega), hbits]

end

/-- The start of a field, with the sampling clock loaded. -/
theorem setWait_eq_inField {s : State} (hval : s.dec.val = 0) (hbits : s.dec.bitCnt = 0) :
    s.setDec { s.dec with wait := s.dec.spacing } = inField 0 0 s := by
  rw [inField, show (0 : Word16) = s.dec.val from hval.symm, show BitVec.ofNat 5 0 = s.dec.bitCnt from hbits.symm]

/-- The first sample loads the sampling clock, so nothing depends on how far it had run out (R111). -/
theorem execAll_byteSamples_setWait {s : State} (hs : s.dec.state ≠ .awaitingPreamble) (hwait : s.dec.wait ≤ 1)
    (hspacing : s.dec.spacing ≤ 1) (b : Byte) :
    execAll (byteSamples b) s = execAll (byteSamples b) (s.setDec { s.dec with wait := s.dec.spacing }) := by
  have hfirst (x : Bool) :
      exec (symbolOf .rx x) s = exec (symbolOf .rx x) (s.setDec { s.dec with wait := s.dec.spacing }) :=
    (exec_symbolOf_rx_of_wait hs hwait x).trans
      (exec_symbolOf_rx_of_wait (s := s.setDec { s.dec with wait := s.dec.spacing }) hs hspacing x).symm
  exact congrArg (andThen · _) (hfirst _)

/-! ## Fields -/

theorem fieldBits_of_byteReception {d : DecState} {b : Byte} {i : Instr} (h : byteReception d b = some i) :
    d ≠ .awaitingPreamble ∧ d.fieldBits = 8 := by
  cases d <;> cases h <;> exact ⟨nofun, rfl⟩

/-- The last bit of an 8-bit field completes it with its low byte (R115 to R121). -/
theorem stateRule_byteReception {v : Word16} {s : State} {i : Instr}
    (hi : byteReception s.dec.state (loByte v) = some i) : stateRule v 8 s = exec i s := by
  cases hd : s.dec.state <;> rw [hd] at hi <;> cases hi <;> simp only [stateRule, hd] <;> rfl

/-- A completed byte clears the value and the count of its bits, so its reception does not depend on them (R113). -/
theorem exec_byteReception_inField {d : DecState} {b : Byte} {i : Instr} (hi : byteReception d b = some i)
    (v w : Word16) (c k : Nat) (s : State) : exec i (inField v c s) = exec i (inField w k s) := by
  cases d <;> cases hi <;> rfl

/-- CRC_LO reads of the bits before it those of the byte before it (R120, log 18). -/
theorem execCrcLo_congr {v w : Word16} (h : loByte v = loByte w) (b : Byte) (c k : Nat) (s : State) :
    execCrcLo .rx b (inField v c s) = execCrcLo .rx b (inField w k s) := by
  simp only [execCrcLo, inField_val, fieldWord, h]
  rfl

/-- CRC_LO, as the sixteenth sample runs it, reads the high byte where CRC_HI leaves it (R120, log 18). -/
theorem stateRule_crcLo {s : State} (hs : s.dec.state = .readingCrc) (hi lo : Byte) (w : Word16) :
    stateRule (fieldWord (fieldWord 0 hi) lo) 16 (inField w 15 s) =
      execCrcLo .rx lo (inField (fieldWord 0 hi) 8 s) := by
  have hword : fieldWord (fieldWord 0 hi) lo = hi ++ lo := by rw [fieldWord, fieldWord, loByte_append]
  have hbefore : loByte ((hiByte (hi ++ lo)).setWidth 16) = loByte (fieldWord 0 hi) := by
    have h := congrArg hiByte (fieldWord_beforeByte (hi ++ lo) s)
    rw [fieldWord, hiByte_append, hiByte_append] at h
    rw [fieldWord, loByte_append]
    exact h
  have hrule : stateRule (hi ++ lo) 16 (inField w 15 s) =
      execCrcLo .rx (loByte (hi ++ lo)) (beforeByte (hi ++ lo) (inField w 15 s)) := by
    simp [stateRule, hs]
  rw [hword, hrule, loByte_append]
  exact execCrcLo_congr hbefore lo 15 8 s

/-- Eight samples of an 8-bit field are the reception of its byte (R71). -/
theorem execAll_byteSamples_of_byteReception {s : State} (hspacing : s.dec.spacing ≤ 1) {b : Byte} {i : Instr}
    (hi : byteReception s.dec.state b = some i) : execAll (byteSamples b) (inField 0 0 s) = exec i (inField 0 0 s) := by
  obtain ⟨hs, hwidth⟩ := fieldBits_of_byteReception hi
  obtain ⟨w, hlast⟩ := execAll_byteSamples_last hs hspacing b 0 (c := 0) hwidth.symm
  have hbyte : loByte (fieldWord 0 b) = b := loByte_append ..
  calc execAll (byteSamples b) (inField 0 0 s)
      = stateRule (fieldWord 0 b) 8 (inField w 7 s) := hlast
    _ = exec i (inField w 7 s) := stateRule_byteReception (by rw [hbyte]; exact hi)
    _ = exec i (inField 0 0 s) := exec_byteReception_inField hi ..

/-- Sixteen samples of the CRC field are the reception of its two bytes (R71, log 18). -/
theorem execAll_byteSamples_crc {s : State} (hs : s.dec.state = .readingCrc) (hspacing : s.dec.spacing ≤ 1)
    (hi lo : Byte) : execAll (byteSamples hi ++ byteSamples lo) (inField 0 0 s) =
      execAll [.crcHi .rx hi, .crcLo .rx lo] (inField 0 0 s) := by
  have hne : s.dec.state ≠ .awaitingPreamble := by rw [hs]; nofun
  have hwidth : s.dec.state.fieldBits = 16 := by rw [hs]; rfl
  have hhigh : execAll (byteSamples hi) (inField 0 0 s) = .next (inField (fieldWord 0 hi) 8 s) := by
    have h := execAll_samples_of_lt hne hspacing (byteBits hi) 0 (c := 0) (by rw [hwidth, length_byteBits]; decide)
    rwa [foldl_shiftIn_byteBits, length_byteBits] at h
  obtain ⟨w, hlow⟩ := execAll_byteSamples_last hne hspacing lo (fieldWord 0 hi) (c := 8) hwidth.symm
  calc execAll (byteSamples hi ++ byteSamples lo) (inField 0 0 s)
      = execAll (byteSamples lo) (inField (fieldWord 0 hi) 8 s) := by rw [execAll_append, hhigh, andThen_next]
    _ = stateRule (fieldWord (fieldWord 0 hi) lo) 16 (inField w 15 s) := hlow
    _ = execCrcLo .rx lo (inField (fieldWord 0 hi) 8 s) := stateRule_crcLo hs hi lo w
    _ = execAll [.crcHi .rx hi, .crcLo .rx lo] (inField 0 0 s) := (execAll_singleton (.crcLo .rx lo) _).symm

/-- Settles O32: the samples before the last leave the field's bits in `val`, and the last one runs the rule of the state
on them. -/
theorem samplesAssembleFields : Obligations.SamplesAssembleFields := by
  unfold Obligations.SamplesAssembleFields
  intro s hwait hspacing hval hbits s1
  have hs1 : s1 = inField 0 0 s := setWait_eq_inField hval hbits
  have hstart (hs : s.dec.state ≠ .awaitingPreamble) (b : Byte) :
      execAll (byteSamples b) s = execAll (byteSamples b) (inField 0 0 s) :=
    hs1 ▸ execAll_byteSamples_setWait hs hwait hspacing b
  rw [hs1]
  constructor
  · intro b i hi
    rw [hstart (fieldBits_of_byteReception hi).1]
    exact execAll_byteSamples_of_byteReception hspacing hi
  · intro hi lo hs
    rw [execAll_append, hstart (by rw [hs]; nofun), ← execAll_append]
    exact execAll_byteSamples_crc hs hspacing hi lo

end Sys2Proof.Machine
end

section
/-! PROOFS. The CRC-16 generator (40_crc16.md): each of its operations, the generator's register over a run of the block,
and the two error-detection facts of R87, linearity and the detection of any change of one byte. -/

namespace Sys2Proof.Machine

/-! ## The CRC of a span -/

/-- The register after the bytes of a span, before the final XOR (R82). -/
def crcReg (p : Params) (bs : List Byte) : Word16 := bs.foldl (crcStep p.crcPoly) p.crcInit

theorem crc16_eq (p : Params) (bs : List Byte) : crc16 p bs = crcReg p bs ^^^ p.crcXorout := rfl

/-- A span goes on from the register the bytes before it leave (R86). -/
theorem crcReg_append (p : Params) (bs cs : List Byte) :
    crcReg p (bs ++ cs) = cs.foldl (crcStep p.crcPoly) (crcReg p bs) :=
  List.foldl_append

theorem crc16_nil (p : Params) : crc16 p [] = p.crcInit ^^^ p.crcXorout := rfl

/-- `crc_out` shows the CRC of a span exactly when `crc_r` is the span's register, since the two differ by the constant
`CRC_XOROUT` (R92). -/
theorem crcOut_eq_crc16_iff (s : State) (bs : List Byte) : crcOut s = crc16 s.par bs ↔ s.crcR = crcReg s.par bs :=
  BitVec.xor_left_inj s.par.crcXorout

/-- Settles O11: the published check value is computed; the empty span leaves the initial value. -/
theorem crcCheckValue : Obligations.CrcCheckValue := by
  unfold Obligations.CrcCheckValue
  exact ⟨by decide +kernel, by decide, crc16_nil⟩

/-! ## The operations -/

@[simp] theorem exec_crcNop (s : State) : exec .crcNop s = .next s := rfl
@[simp] theorem exec_crcInit (s : State) : exec .crcInit s = .next (s.setCrcR s.par.crcInit) := rfl
@[simp] theorem exec_crcUpdate (din : Byte) (s : State) :
    exec (.crcUpdate din) s = .next (s.setCrcR (crcStep s.par.crcPoly s.crcR din)) := rfl
@[simp] theorem exec_crcReserved (s : State) : exec .crcReserved s = .next s := rfl

theorem decode_crcPort {op din : Byte} {i : Instr} (rest : List Byte) (h : decodeCrcOp op din = .ok i) :
    decode .crcPort (op :: din :: rest) = .ok (i, rest) := by
  simp only [decode, h]

/-- Settles O6: the code alone selects CRC_NOP, and its meaning keeps the state. -/
theorem crcNopKeepsRegister : Obligations.CrcNopKeepsRegister := by
  unfold Obligations.CrcNopKeepsRegister
  exact ⟨fun _ rest => decode_crcPort rest rfl, exec_crcNop⟩

/-- Settles O7: `crc_r` becomes the register of the empty span. -/
theorem crcInitLoadsInitialValue : Obligations.CrcInitLoadsInitialValue := by
  unfold Obligations.CrcInitLoadsInitialValue
  refine ⟨fun _ rest => decode_crcPort rest rfl, fun s => ⟨s.setCrcR s.par.crcInit, exec_crcInit s, rfl, ?_, ?_⟩⟩
  · exact (crcOut_eq_crc16_iff (s.setCrcR s.par.crcInit) []).mpr rfl
  · intro hpar
    rw [crcOut, State.setCrcR_crcR, State.setCrcR_par, hpar]
    decide

/-- Settles O8: the register of the span takes one more `crc_step`. -/
theorem crcUpdateExtendsSpan : Obligations.CrcUpdateExtendsSpan := by
  unfold Obligations.CrcUpdateExtendsSpan
  intro s din
  refine ⟨s.setCrcR (crcStep s.par.crcPoly s.crcR din), exec_crcUpdate din s, rfl, rfl, fun bs hspan => ?_⟩
  have hreg : s.crcR = crcReg s.par bs := (crcOut_eq_crc16_iff s bs).mp hspan
  refine (crcOut_eq_crc16_iff (s.setCrcR _) (bs ++ [din])).mpr ?_
  rw [State.setCrcR_crcR, State.setCrcR_par, crcReg_append, hreg, List.foldl_cons, List.foldl_nil]

/-- Settles O9: the code alone selects the reserved operation, and its meaning keeps the state, as CRC_NOP does. -/
theorem crcReservedActsAsNop : Obligations.CrcReservedActsAsNop := by
  unfold Obligations.CrcReservedActsAsNop
  exact ⟨fun _ rest => decode_crcPort rest rfl, fun s => ⟨exec_crcReserved s, rfl⟩⟩

/-! ## The generator's register over a run -/

/-- No other unit writes `crc_r`, so a step leaves it as the operation on the generator's port does (R61, R88 to R91). -/
theorem clockStep_crcR {inp : PortInputs} {s t : State} (hr : inp.rst = false) (h : clockStep inp s = .next t) :
    t.crcR = crcNext s.par s.crcR inp.crcOp inp.crcDin := by
  obtain ⟨u, hu, hut⟩ := clockStep_cases hr h
  obtain ⟨-, hcrc, -⟩ := rxSide_frame hut
  rw [hcrc, txSide_onlyEnc hu]
  rfl

/-- A run without reset takes `crc_r` through the operations on the generator's port, one each step. -/
theorem runWith_crcR {ins : List PortInputs} {s t : State} (hr : noReset ins) (h : runWith ins s = .next t) :
    t.par = s.par ∧
      t.crcR = (ins.map fun x => (x.crcOp, x.crcDin)).foldl (fun c x => crcNext s.par c x.1 x.2) s.crcR := by
  induction ins generalizing s with
  | nil =>
    obtain rfl := by simpa [runWith] using h.symm
    exact ⟨rfl, rfl⟩
  | cons inp rest ih =>
    rw [runWith, andThen_eq_next] at h
    obtain ⟨u, hu, hut⟩ := h
    obtain ⟨hr1, hrest⟩ := List.forall_mem_cons.mp hr
    rw [step_withInputs] at hu
    have hpar : u.par = s.par := clockStep_keeps_par (s := consume (s.withInputs [inp])) hu
    have hcrc : u.crcR = crcNext s.par s.crcR inp.crcOp inp.crcDin :=
      clockStep_crcR (s := consume (s.withInputs [inp])) hr1 hu
    obtain ⟨hpar', hcrc'⟩ := ih hrest hut
    rw [hpar, hcrc] at hcrc'
    exact ⟨hpar'.trans hpar, hcrc'⟩

/-- Settles O10: the first step loads `CRC_INIT`, and every further one is a `crc_step`, as in R82. -/
theorem crcPortComputesCrc16 : Obligations.CrcPortComputesCrc16 := by
  unfold Obligations.CrcPortComputesCrc16
  refine ⟨fun _ => rfl, fun s t inp ins bs hr hinit hupdates h => ?_⟩
  obtain ⟨hpar, hcrc⟩ := runWith_crcR hr h
  rw [List.map_cons, hinit, hupdates, List.foldl_cons, List.foldl_map] at hcrc
  have hspan : t.crcR = crcReg s.par bs := hcrc
  rw [← hpar] at hspan ⊢
  exact (crcOut_eq_crc16_iff t bs).mpr hspan

/-! ## Linearity -/

/-- The shift's feedback depends linearly on the top bit (R82). -/
theorem crcShift_xor (poly c d : Word16) : crcShift poly (c ^^^ d) = crcShift poly c ^^^ crcShift poly d := by
  unfold crcShift
  rw [BitVec.msb_xor, BitVec.shiftLeft_xor_distrib]
  cases c.msb <;> cases d.msb <;> simp only [Bool.xor_false, Bool.false_xor, Bool.xor_self, Bool.false_eq_true,
    if_true, if_false]
  case false.true => ac_rfl
  case true.false => ac_rfl
  case true.true =>
    calc c <<< 1 ^^^ d <<< 1
        = c <<< 1 ^^^ d <<< 1 ^^^ (poly ^^^ poly) := by rw [BitVec.xor_self, BitVec.xor_zero]
      _ = c <<< 1 ^^^ poly ^^^ (d <<< 1 ^^^ poly) := by ac_rfl

theorem crcShifts_xor (poly : Word16) (k : Nat) (c d : Word16) :
    crcShifts poly k (c ^^^ d) = crcShifts poly k c ^^^ crcShifts poly k d := by
  induction k generalizing c d with
  | zero => rfl
  | succ k ih => rw [crcShifts, crcShift_xor, ih]; rfl

theorem crcStep_xor (poly c d : Word16) (a b : Byte) :
    crcStep poly (c ^^^ d) (a ^^^ b) = crcStep poly c a ^^^ crcStep poly d b := by
  unfold crcStep
  rw [← crcShifts_xor, BitVec.setWidth_xor, BitVec.shiftLeft_xor_distrib]
  congr 1
  ac_rfl

/-- The register after the byte-wise XOR of two spans of one length, from the XOR of two registers. -/
theorem foldl_crcStep_zipWith_xor (poly : Word16) {a b : List Byte} (h : a.length = b.length) (c d : Word16) :
    (List.zipWith (· ^^^ ·) a b).foldl (crcStep poly) (c ^^^ d) =
      a.foldl (crcStep poly) c ^^^ b.foldl (crcStep poly) d := by
  induction a generalizing b c d with
  | nil =>
    obtain rfl := List.length_eq_zero_iff.mp h.symm
    rfl
  | cons x a ih =>
    obtain ⟨y, b, rfl⟩ := List.exists_cons_of_length_eq_add_one h.symm
    have htail : a.length = b.length := by simpa using h
    rw [List.zipWith_cons_cons, List.foldl_cons, crcStep_xor, ih htail, List.foldl_cons, List.foldl_cons]

theorem zipWith_xor_replicate_zero (a : List Byte) : List.zipWith (· ^^^ ·) a (List.replicate a.length 0) = a := by
  induction a with
  | nil => rfl
  | cons x a ih =>
    rw [List.length_cons, List.replicate_succ, List.zipWith_cons_cons, ih, show x ^^^ 0 = x from BitVec.xor_zero]

/-- Two spans and the all-zero one fold into their XOR, and of the three `CRC_INIT` one remains. -/
theorem crcReg_zipWith_xor (p : Params) {a b : List Byte} (h : a.length = b.length) :
    crcReg p a ^^^ crcReg p b ^^^ crcReg p (List.replicate a.length 0) = crcReg p (List.zipWith (· ^^^ ·) a b) := by
  have hlen : a.length = (List.zipWith (· ^^^ ·) a b).length := by simp [h]
  unfold crcReg
  rw [← foldl_crcStep_zipWith_xor _ h, hlen, ← foldl_crcStep_zipWith_xor _ List.length_replicate.symm,
    zipWith_xor_replicate_zero, BitVec.xor_self, BitVec.zero_xor]

/-- Settles O12: the registers are linear, and of the three `CRC_XOROUT` one remains. -/
theorem crcIsLinear : Obligations.CrcIsLinear := by
  unfold Obligations.CrcIsLinear
  intro p a b h
  simp only [crc16_eq, ← crcReg_zipWith_xor p h]
  generalize crcReg p a = x, crcReg p b = y, crcReg p (List.replicate a.length 0) = z, p.crcXorout = o
  calc (x ^^^ o) ^^^ (y ^^^ o) ^^^ (z ^^^ o)
      = (x ^^^ y ^^^ z ^^^ o) ^^^ (o ^^^ o) := by ac_rfl
    _ = x ^^^ y ^^^ z ^^^ o := by rw [BitVec.xor_self, BitVec.xor_zero]

/-! ## Detection of a changed byte -/

section
variable {poly : Word16} (hpoly : poly.getLsbD 0 = true)
include hpoly

/-- With an `x^0` term the bit that a shift drops comes back in bit 0. -/
theorem getLsbD_zero_crcShift (c : Word16) : (crcShift poly c).getLsbD 0 = c.msb := by
  unfold crcShift
  cases c.msb <;> simp [hpoly]

/-- So a shift loses nothing: bit 0 gives the top bit and with it the feedback, and the rest is the other bits. -/
theorem crcShift_injective : Function.Injective (crcShift poly) := by
  intro c d h
  have hmsb : c.msb = d.msb := by rw [← getLsbD_zero_crcShift hpoly c, h, getLsbD_zero_crcShift hpoly d]
  have hshift : c <<< 1 = d <<< 1 := by
    unfold crcShift at h
    rw [hmsb] at h
    split at h
    · exact (BitVec.xor_left_inj poly).mp h
    · exact h
  rw [BitVec.msb_eq_decide, BitVec.msb_eq_decide, decide_eq_decide] at hmsb
  bv_omega

theorem crcShifts_injective (k : Nat) : Function.Injective (crcShifts poly k) := by
  induction k with
  | zero => exact Function.injective_id
  | succ k ih => exact ih.comp (crcShift_injective hpoly)

/-- One byte step keeps registers that differ apart. -/
theorem crcStep_left_injective (b : Byte) : Function.Injective fun c => crcStep poly c b := fun _ _ h =>
  (BitVec.xor_left_inj _).mp (crcShifts_injective hpoly 8 h)

/-- One byte step takes bytes that differ to registers that differ. -/
theorem crcStep_right_injective (c : Word16) : Function.Injective (crcStep poly c) := by
  intro a b h
  have hhigh : a.setWidth 16 <<< 8 = b.setWidth 16 <<< 8 := (BitVec.xor_right_inj c).mp (crcShifts_injective hpoly 8 h)
  bv_omega

theorem foldl_crcStep_injective (bs : List Byte) : Function.Injective (bs.foldl (crcStep poly)) := by
  induction bs with
  | nil => exact Function.injective_id
  | cons b bs ih => exact ih.comp (crcStep_left_injective hpoly b)

end

/-- Settles O13: the two registers differ after the changed byte, and the same bytes follow in both spans. -/
theorem crcDetectsOneByte : Obligations.CrcDetectsOneByte := by
  unfold Obligations.CrcDetectsOneByte
  intro p bs i v hpoly hi hv heq
  obtain ⟨before, after, hbs, -, hset⟩ := List.exists_of_set (a' := v) hi
  have hreg : crcReg p (before ++ v :: after) = crcReg p (before ++ bs[i] :: after) := by
    rw [← hset, ← hbs]
    exact (BitVec.xor_left_inj p.crcXorout).mp heq
  rw [crcReg_append, crcReg_append, List.foldl_cons, List.foldl_cons] at hreg
  have hbyte : v = bs[i] := crcStep_right_injective hpoly _ (foldl_crcStep_injective hpoly after hreg)
  exact hv (hbyte ▸ List.getElem?_eq_getElem hi)

end Sys2Proof.Machine
end

section
/-! PROOFS. The receive side over the steps of a run, and clock recovery (41_clock_recovery.md): an edge counted or not,
the estimate of the eighth, the wait without limit, the re-arm guard, and the exact estimate of an exact preamble. -/

namespace Sys2Proof.Machine

/-! ## One step of the receive side -/

/-- A step without reset is a step of the receive side: no other unit writes what it reads (R61). -/
theorem step_rxSide {inp : PortInputs} {s t : State} (hr : inp.rst = false) (h : step (s.withInputs [inp]) = .next t) :
    ∃ u, u.par = s.par ∧ u.cru = s.cru ∧ u.dec = s.dec ∧ rxSide inp u = .next t := by
  rw [step_withInputs] at h
  obtain ⟨u, hu, hut⟩ := clockStep_cases hr h
  have honly := txSide_onlyEnc hu
  exact ⟨u, by rw [honly]; rfl, by rw [honly]; rfl, by rw [honly]; rfl, hut⟩

/-- The CRU's part of a step, once the rest of the receive side has done its own (R110). -/
def cruStep (e : Bool) (s : State) : State :=
  if s.cru.armed = true then if e = true then countEdge s else countQuiet s else quietStep e s.dec.deliverPend s

/-- In `AwaitingPreamble` the RECEIVE, if there is one, drops `deliver_pend`, and the CRU makes its step (R110). -/
theorem step_awaiting {inp : PortInputs} {s t : State} (hr : inp.rst = false) (hs : s.dec.state = .awaitingPreamble)
    (h : step (s.withInputs [inp]) = .next t) :
    ∃ u, u.par = s.par ∧ u.cru = { s.cru with rxPrev := inp.rxIn } ∧
      u.dec = { s.dec with rxStat := rxNone, deliverPend := s.dec.deliverPend && !inp.rxReady } ∧
      t = cruStep (inp.rxIn != s.cru.rxPrev) u := by
  obtain ⟨v, hpar, hcru, hdec, hv⟩ := step_rxSide hr h
  rw [rxSide_waiting (hdec ▸ hs), andThen_eq_next] at hv
  obtain ⟨u, hu, hut⟩ := hv
  have hreceived : u.par = s.par ∧ u.cru = { s.cru with rxPrev := inp.rxIn } ∧
      u.dec = { s.dec with rxStat := rxNone, deliverPend := s.dec.deliverPend && !inp.rxReady } := by
    split at hu
    · next hc =>
      rw [execReceive_pend (s := rxBegin inp.rxIn v) hc.1] at hu
      obtain rfl := by simpa using hu.symm
      exact ⟨hpar, by simp [hcru], by simp [hdec, hc.2]⟩
    · next hc =>
      obtain rfl := by simpa using hu.symm
      have hkept : (s.dec.deliverPend && !inp.rxReady) = s.dec.deliverPend := by
        rw [hdec] at hc
        cases hp : s.dec.deliverPend <;> simp_all
      exact ⟨hpar, by simp [hcru], by rw [hkept, rxBegin_dec, hdec]⟩
  obtain ⟨hpar', hcru', hdec'⟩ := hreceived
  have hstate : u.dec.state = .awaitingPreamble := by rw [hdec']; exact hs
  rw [cruSide_next _ u hstate, hcru] at hut
  exact ⟨u, hpar', hcru', hdec', by simpa [cruStep] using hut.symm⟩

/-- In a decoder state that samples, the step is the DEC step (R110, R111). -/
theorem step_reading {inp : PortInputs} {s t : State} (hr : inp.rst = false) (hs : s.dec.state ≠ .awaitingPreamble)
    (h : step (s.withInputs [inp]) = .next t) :
    ∃ u, u.par = s.par ∧ u.dec = { s.dec with rxStat := rxNone } ∧ readLevel inp.rxIn u = .next t := by
  obtain ⟨v, hpar, -, hdec, hv⟩ := step_rxSide hr h
  rw [rxSide_reading (hdec ▸ hs)] at hv
  exact ⟨rxBegin inp.rxIn v, hpar, by rw [rxBegin_dec, hdec], hv⟩

/-! ## Runs -/

theorem runWith_append (is js : List PortInputs) (s : State) :
    runWith (is ++ js) s = andThen (runWith is s) (runWith js) := by
  induction is generalizing s with
  | nil => rfl
  | cons inp is ih =>
    simp only [List.cons_append, runWith, andThen_assoc]
    exact congrArg (andThen (step (s.withInputs [inp]))) (funext ih)

@[simp] theorem runWith_singleton (inp : PortInputs) (s : State) : runWith [inp] s = step (s.withInputs [inp]) := by
  simp only [runWith]
  cases step (s.withInputs [inp]) <;> rfl

/-- A run without reset under these line levels leads from one state to the other. -/
def LineRun (levels : List Bool) (s t : State) : Prop :=
  ∃ ins, noReset ins ∧ ins.map (·.rxIn) = levels ∧ runWith ins s = .next t

theorem lineRun_nil {s t : State} : LineRun [] s t ↔ t = s := by
  constructor
  · rintro ⟨ins, -, hlevels, h⟩
    obtain rfl := List.map_eq_nil_iff.mp hlevels
    simpa [runWith] using h.symm
  · rintro rfl
    exact ⟨[], by simp [noReset], rfl, rfl⟩

/-- A run under levels in a row is a run under the first ones, then one under the others. -/
theorem LineRun.append {as bs : List Bool} {s t : State} (h : LineRun (as ++ bs) s t) :
    ∃ u, LineRun as s u ∧ LineRun bs u t := by
  obtain ⟨ins, hr, hlevels, h⟩ := h
  obtain ⟨is, js, rfl, his, hjs⟩ := List.map_eq_append_iff.mp hlevels
  rw [runWith_append, andThen_eq_next] at h
  obtain ⟨u, hu, hut⟩ := h
  obtain ⟨hri, hrj⟩ := List.forall_mem_append.mp hr
  exact ⟨u, ⟨is, hri, his, hu⟩, ⟨js, hrj, hjs, hut⟩⟩

theorem LineRun.singleton {b : Bool} {s t : State} (h : LineRun [b] s t) :
    ∃ inp : PortInputs, inp.rst = false ∧ inp.rxIn = b ∧ step (s.withInputs [inp]) = .next t := by
  obtain ⟨ins, hr, hlevels, h⟩ := h
  obtain ⟨inp, rfl, hb⟩ := List.map_eq_singleton_iff.mp hlevels
  exact ⟨inp, hr inp (List.mem_singleton_self inp), hb, by rwa [runWith_singleton] at h⟩

theorem LineRun.cons {b : Bool} {bs : List Bool} {s t : State} (h : LineRun (b :: bs) s t) :
    ∃ u, LineRun [b] s u ∧ LineRun bs u t :=
  LineRun.append (as := [b]) h

/-! ## The estimate -/

theorem exec_preamble_rx {s : State} (hs : s.dec.state = .awaitingPreamble) (ha : s.cru.armed = true) :
    exec (.preamble .rx) s = .next (countEdge s) :=
  if_pos ⟨hs, ha⟩

theorem countEdge_of_first {s : State} (h : s.cru.edgeCnt = 0) :
    countEdge s = s.setCru { s.cru with edgeCnt := 1, ivl := 1 } :=
  if_pos h

theorem countEdge_of_next {s : State} (h : 1 ≤ s.cru.edgeCnt.toNat) (h7 : s.cru.edgeCnt.toNat < 7) :
    countEdge s = s.setCru { s.cru with sum := s.cru.sum + s.cru.ivl, edgeCnt := s.cru.edgeCnt + 1, ivl := 1 } := by
  rcases countEdge_cases s with ⟨h0, -⟩ | ⟨-, -, heq⟩ | ⟨h8, -⟩
  · simp [h0] at h
  · exact heq
  · omega

theorem countEdge_of_eighth {s : State} (h : s.cru.edgeCnt = 7) :
    countEdge s = eighth (s.cru.sum + s.cru.ivl) (s.setCru { s.cru with ivl := 1 }) := by
  rcases countEdge_cases s with ⟨h0, -⟩ | ⟨-, h7, -⟩ | ⟨-, heq⟩
  · simp [h] at h0
  · simp [h] at h7
  · exact heq

/-- Where the spacing of R102 fits its register, that is what it holds. -/
theorem spacingOf_of_fits {par : Params} (n p : Nat)
    (h : (max ((p : Int) - par.timingCorr) 1).toNat < 2 ^ par.cntW) :
    (spacingOf par n p : Int) = max ((p : Int) - par.timingCorr) 1 := by
  rw [spacingOf, if_pos h]
  omega

/-- Settles O23: the three things a counted edge does, and the edge the CRU does not count. -/
theorem preambleEdgesCounted : Obligations.PreambleEdgesCounted := by
  unfold Obligations.PreambleEdgesCounted
  intro s
  refine ⟨fun hs ha h0 => ?_, fun hs ha h1 h7 => ?_, fun h => if_neg h⟩
  · rw [exec_preamble_rx hs ha, countEdge_of_first h0]; rfl
  · rw [exec_preamble_rx hs ha, countEdge_of_next h1 h7]; rfl

/-- Settles O24: the eighth edge is EIGHTH of the sum with the last interval. -/
theorem eighthEdgeMakesEstimate : Obligations.EighthEdgeMakesEstimate := by
  unfold Obligations.EighthEdgeMakesEstimate
  intro s hs ha h7 x p o
  refine ⟨eighth x (s.setCru { s.cru with ivl := 1 }), ?_, rfl, spacingOf_of_fits _ p⟩
  rw [exec_preamble_rx hs ha, countEdge_of_eighth h7]

/-- Settles O25: the rounded seventh, and the examples computed. -/
theorem periodIsRounded : Obligations.PeriodIsRounded := by
  unfold Obligations.PeriodIsRounded
  refine ⟨fun x s => ?_, fun s => ⟨rfl, rfl, rfl, rfl, rfl⟩⟩
  obtain ⟨hlow, hhigh⟩ := seventh_nearest x
  exact ⟨rfl, hlow, hhigh, rfl⟩

/-- A fraction capped at 1 is 0 exactly when the fraction is. -/
theorem min_div_one_eq_zero_iff {h d : Nat} (hd : 1 ≤ d) : min (h / d) 1 = 0 ↔ h < d := by
  have hzero : h / d = 0 ↔ h < d := Nat.div_eq_zero_iff_lt hd
  omega

/-- Settles O26: the fraction is capped at the 1 that well-formed parameters have. -/
theorem offsetIsCapped : Obligations.OffsetIsCapped := by
  unfold Obligations.OffsetIsCapped
  refine ⟨fun x s hwf => ?_, rfl, rfl⟩
  obtain ⟨-, hdiv, -, hcap, -⟩ := hwf
  have hoffset : (eighth x s).dec.offset = min ((eighth x s).dec.half / s.par.offsetDiv) 1 := by rw [← hcap]; rfl
  refine ⟨rfl, hcap, ?_, ?_⟩
  · rw [hoffset]; omega
  · rw [hoffset]; exact min_div_one_eq_zero_iff hdiv

/-! ## The re-arm guard -/

/-- Settles O29: the step of an unarmed CRU counts `quiet` and arms under the guard; RECEIVE goes before it. -/
theorem rearmGuard : Obligations.RearmGuard := by
  unfold Obligations.RearmGuard
  intro s t inp hr hs ha h q
  obtain ⟨u, hpar, hcru, hdec, rfl⟩ := step_awaiting hr hs h
  have harmed : u.cru.armed = false := by rw [hcru]; exact ha
  have hstate : u.dec.state = .awaitingPreamble := by rw [hdec]; exact hs
  have hpend : u.dec.deliverPend = (s.dec.deliverPend && !inp.rxReady) := by rw [hdec]
  have hstep : cruStep (inp.rxIn != s.cru.rxPrev) u = quietStep (inp.rxIn != s.cru.rxPrev) u.dec.deliverPend u :=
    if_neg (by simp [harmed])
  obtain ⟨q', hq', hcases⟩ := quietStep_cases (inp.rxIn != s.cru.rxPrev) u.dec.deliverPend u
  have hquiet : q' = q := by
    rw [hq', hpar, hcru]
    by_cases he : inp.rxIn = s.cru.rxPrev <;> simp [q, he, sat]
  subst hquiet
  rw [hstep]
  refine ⟨by rw [quietStep_dec]; exact hstate, ?_⟩
  rw [hpend, hpar, hcru] at hcases
  rcases hcases with ⟨heq, -, -, hguard⟩ | ⟨heq, hguard⟩
  · rw [hpend, heq, if_pos hguard]
    rfl
  · rw [hpend, heq, if_neg fun hopen => hguard ⟨hstate, ha, hopen⟩]
    rfl

/-! ## An armed CRU over a run -/

/-- A preamble is awaited, and the CRU holds `c`. -/
structure Awaits (p : Params) (c : Cru) (s : State) : Prop where
  par : s.par = p
  state : s.dec.state = .awaitingPreamble
  cru : s.cru = c

section
variable {p : Params} {c : Cru} {s t : State} (hs : Awaits p c s) (ha : c.armed = true)
include hs ha

/-- The step of an armed CRU: an edge is counted, and between edges the time is (R94). -/
theorem Awaits.step {b : Bool} (h : LineRun [b] s t) :
    ∃ u, Awaits p { c with rxPrev := b } u ∧ u.dec.rxStat = rxNone ∧
      t = if b = c.rxPrev then countQuiet u else countEdge u := by
  obtain ⟨rfl, hstate, rfl⟩ := hs
  obtain ⟨inp, hr, rfl, hstep⟩ := h.singleton
  obtain ⟨u, hpar, hcru, hdec, rfl⟩ := step_awaiting hr hstate hstep
  refine ⟨u, ⟨hpar, by rw [hdec]; exact hstate, hcru⟩, by rw [hdec], ?_⟩
  rw [cruStep, if_pos (by rw [hcru]; exact ha)]
  by_cases he : inp.rxIn = s.cru.rxPrev <;> simp [he]

theorem Awaits.edge {b : Bool} (hb : b ≠ c.rxPrev) (h : LineRun [b] s t) :
    ∃ u, Awaits p { c with rxPrev := b } u ∧ u.dec.rxStat = rxNone ∧ t = countEdge u := by
  obtain ⟨u, hu, hstat, rfl⟩ := hs.step ha h
  exact ⟨u, hu, hstat, if_neg hb⟩

/-- What a step without an edge makes of `ivl` (R94, R95): nothing is timed before the first edge. -/
theorem Awaits.quiet_step (h : LineRun [c.rxPrev] s t) :
    Awaits p { c with ivl := if c.edgeCnt = 0 then c.ivl else min (c.ivl + 1) (2 ^ p.cntW - 1) } t ∧
      rxStatus t = rxNone := by
  obtain ⟨u, ⟨rfl, hstate, hcru⟩, hstat, rfl⟩ := hs.step ha h
  rw [if_pos rfl]
  have hstarted : 1 ≤ u.cru.edgeCnt.toNat ↔ ¬ c.edgeCnt = 0 := by
    rw [hcru]
    constructor
    · rintro h1 h0
      simp [h0] at h1
    · intro h0
      bv_omega
  refine ⟨⟨?_, by rw [countQuiet_dec]; exact hstate, ?_⟩, by rw [rxStatus, countQuiet_dec]; exact hstat⟩
  · rw [countQuiet_onlyRx u]; rfl
  · by_cases h0 : c.edgeCnt = 0
    · rw [countQuiet, if_neg (by rw [hstarted]; simp [h0]), hcru, if_pos h0]
    · rw [countQuiet, if_pos (hstarted.mpr h0), if_neg h0, State.setCru_cru, hcru]
      rfl

/-- However long the line holds its level, an armed CRU goes on waiting, and only `ivl` moves, saturating (R95, R96). -/
theorem Awaits.quiet {n : Nat} (h : LineRun (List.replicate (n + 1) c.rxPrev) s t) :
    Awaits p { c with ivl := if c.edgeCnt = 0 then c.ivl else min (c.ivl + (n + 1)) (2 ^ p.cntW - 1) } t ∧
      rxStatus t = rxNone := by
  induction n generalizing c s with
  | zero => exact hs.quiet_step ha h
  | succ n ih =>
    obtain ⟨u, hu, hut⟩ := LineRun.cons h
    obtain ⟨ht, hstat⟩ := ih (hs.quiet_step ha hu).1 ha hut
    refine ⟨?_, hstat⟩
    convert ht using 2
    by_cases h0 : c.edgeCnt = 0
    · simp only [if_pos h0]
    · simp only [if_neg h0]
      omega

/-- The time since the last edge is exact while it fits its register. -/
theorem Awaits.timed (h0 : c.edgeCnt ≠ 0) {n : Nat} (hn : c.ivl + n < 2 ^ p.cntW)
    (h : LineRun (List.replicate n c.rxPrev) s t) : Awaits p { c with ivl := c.ivl + n } t := by
  cases n with
  | zero =>
    obtain rfl := lineRun_nil.mp h
    exact hs
  | succ n =>
    have ht := (hs.quiet ha h).1
    rwa [if_neg h0, min_eq_left (by omega)] at ht

end

/-- What counting an edge before the eighth makes of the CRU: the interval it ends is added, if it ends one (R94). -/
def Cru.count (c : Cru) : Cru :=
  { c with edgeCnt := c.edgeCnt + 1, sum := if c.edgeCnt = 0 then c.sum else c.sum + c.ivl, ivl := 1 }

theorem countEdge_of_lt {s : State} (h : s.cru.edgeCnt.toNat < 7) : countEdge s = s.setCru s.cru.count := by
  by_cases h0 : s.cru.edgeCnt = 0
  · rw [countEdge_of_first h0, Cru.count, if_pos h0, h0]; rfl
  · rw [countEdge_of_next (by bv_omega) h, Cru.count, if_neg h0]

/-- An edge before the eighth, and the level held after it: the edge is counted and the time since it known. -/
theorem Awaits.halfPeriod {p : Params} {c : Cru} {s t : State} {b : Bool} {w : Nat} (hs : Awaits p c s)
    (ha : c.armed = true) (h7 : c.edgeCnt.toNat < 7) (hb : b ≠ c.rxPrev) (hw : 1 ≤ w) (hfits : w < 2 ^ p.cntW)
    (h : LineRun (List.replicate w b) s t) : Awaits p { c.count with rxPrev := b, ivl := w } t := by
  obtain ⟨n, rfl⟩ : ∃ n, w = 1 + n := ⟨w - 1, by omega⟩
  rw [List.replicate_add] at h
  obtain ⟨u, hu, hut⟩ := h.append
  obtain ⟨v, ⟨hpar, hstate, hcru⟩, -, rfl⟩ := hs.edge ha hb hu
  have hcount : countEdge v = v.setCru { c.count with rxPrev := b } := by
    rw [countEdge_of_lt (by rw [hcru]; exact h7), hcru]
    rfl
  have hedge : Awaits p { c.count with rxPrev := b } (countEdge v) := by
    rw [hcount]
    exact ⟨hpar, hstate, rfl⟩
  have hcounted : c.edgeCnt + 1 ≠ 0 := by bv_omega
  exact hedge.timed ha hcounted hfits hut

/-- A preamble under way on a line at `level`: `n` edges counted, the last two `w` steps apart, and `w` steps since. -/
structure InPreamble (p : Params) (level : Bool) (n w : Nat) (s : State) : Prop where
  par : s.par = p
  state : s.dec.state = .awaitingPreamble
  armed : s.cru.armed = true
  level : s.cru.rxPrev = level
  edges : s.cru.edgeCnt.toNat = n
  sum : s.cru.sum = (n - 1) * w
  ivl : 1 ≤ n → s.cru.ivl = w

section
variable {p : Params} {level : Bool} {n w : Nat} {s t : State} (hw : 1 ≤ w) (hfits : w < 2 ^ p.cntW)
include hw hfits

/-- The next edge comes at once, and then the line holds its level for `w` steps (R94). -/
theorem InPreamble.halfPeriod {b : Bool} (hs : InPreamble p level n w s) (hn : n < 7) (hb : level ≠ b)
    (h : LineRun (List.replicate w b) s t) : InPreamble p b (n + 1) w t := by
  obtain ⟨hpar, hstate, ha, rfl, rfl, hsum, hivl⟩ := hs
  have hstart : Awaits p s.cru s := ⟨hpar, hstate, rfl⟩
  obtain ⟨hpar', hstate', hcru⟩ := hstart.halfPeriod ha hn hb.symm hw hfits h
  have hsucc : (s.cru.edgeCnt + 1).toNat = s.cru.edgeCnt.toNat + 1 := by bv_omega
  refine ⟨hpar', hstate', by rw [hcru]; exact ha, by rw [hcru], by rw [hcru]; exact hsucc, ?_, fun _ => by rw [hcru]⟩
  rw [hcru, Nat.add_sub_cancel]
  show (if s.cru.edgeCnt = 0 then s.cru.sum else s.cru.sum + s.cru.ivl) = _
  split
  · next h0 => simp [hsum, h0]
  · next h0 =>
    have h1 : 1 ≤ s.cru.edgeCnt.toNat := by bv_omega
    rw [hsum, hivl h1, ← Nat.succ_mul, Nat.succ_eq_add_one, Nat.sub_add_cancel h1]

/-- Edges before the eighth, each followed by `w` steps at its level. -/
theorem InPreamble.halfPeriods {bs : List Bool} (hs : InPreamble p level n w s) (hn : n + bs.length ≤ 7)
    (hbs : (level :: bs).IsChain (· ≠ ·)) (h : LineRun (bs.flatMap (List.replicate w)) s t) :
    InPreamble p (bs.getLastD level) (n + bs.length) w t := by
  induction bs generalizing level n s with
  | nil =>
    obtain rfl := lineRun_nil.mp h
    exact hs
  | cons b bs ih =>
    obtain ⟨u, hu, hut⟩ := h.append
    obtain ⟨hb, hrest⟩ := List.isChain_cons_cons.mp hbs
    rw [List.length_cons] at hn
    have hedge : InPreamble p b (n + 1) w u := hs.halfPeriod hw hfits (by omega) hb hu
    rw [List.getLastD_cons, List.length_cons, Nat.add_comm bs.length, ← Nat.add_assoc]
    exact ih hedge (by omega) hrest hut

end

/-! ## An exact preamble -/

/-- The line of a preamble of half-bit `h` up to its eighth edge: low for a half-bit, seven edges a period apart, and
the eighth (R104). -/
def toEighthEdge (h : Nat) : List Bool :=
  List.replicate h false ++ [true, false, true, false, true, false, true].flatMap (List.replicate (2 * h)) ++ [false]

@[simp] theorem length_toEighthEdge (h : Nat) : (toEighthEdge h).length = 15 * h + 1 := by
  simp only [toEighthEdge, List.flatMap_cons, List.flatMap_nil, List.length_append, List.length_replicate,
    List.length_singleton, List.length_nil]
  omega

/-- After the eighth edge the line holds the last half-bit of the preamble to its end. -/
theorem lineLevels_preamble {h : Nat} (hh : 1 ≤ h) :
    lineLevels h [Config.preamble] = toEighthEdge h ++ List.replicate (h - 1) false := by
  have hhalves : halfLevels [Config.preamble] = [false, true, true, false, false, true, true, false, false, true, true,
    false, false, true, true, false] := by decide
  have hlast : List.replicate h false = [false] ++ List.replicate (h - 1) false := by
    rw [List.singleton_append, ← List.replicate_succ, Nat.sub_add_cancel hh]
  have hperiod (b : Bool) : List.replicate (2 * h) b = List.replicate h b ++ List.replicate h b := by
    rw [List.replicate_append_replicate, two_mul]
  simp only [lineLevels, hhalves, toEighthEdge, List.flatMap_cons, List.flatMap_nil, List.append_assoc, hperiod,
    List.append_nil, ← hlast]

/-- From the sum of seven intervals of `2h` the estimate is exact (R99, R104). -/
theorem eighth_exact_period (h : Nat) (s : State) : (eighth (14 * h) s).dec.period = 2 * h := by
  show (14 * h + 3) / 7 = 2 * h
  omega

theorem eighth_exact_half (h : Nat) (s : State) : (eighth (14 * h) s).dec.half = h := by
  show (14 * h + 3) / 7 / 2 = h
  omega

/-- A preamble of half-bit `h`, up to its eighth edge, ends in EIGHTH of the sum `14h` (R104). -/
theorem preamble_makes_estimate {s t : State} {h : Nat} (hstate : s.dec.state = .awaitingPreamble)
    (ha : s.cru.armed = true) (h0 : s.cru.edgeCnt = 0) (hsum : s.cru.sum = 0) (hlow : s.cru.rxPrev = false)
    (hh : 1 ≤ h) (hfits : 2 * h < 2 ^ s.par.cntW)
    (hrun : LineRun (toEighthEdge h) s t) :
    ∃ u, u.par = s.par ∧ u.dec.rxStat = rxNone ∧ t = eighth (14 * h) u := by
  obtain ⟨v, hv, hlast⟩ := hrun.append
  obtain ⟨u, hu, huv⟩ := hv.append
  have hstart : Awaits s.par s.cru s := ⟨rfl, hstate, rfl⟩
  obtain ⟨n, rfl⟩ : ∃ n, h = n + 1 := ⟨h - 1, by omega⟩
  obtain ⟨⟨hpar', hstate', hcru⟩, -⟩ := hstart.quiet ha (hlow ▸ hu)
  rw [if_pos h0] at hcru
  have hidle : InPreamble s.par false 0 (2 * (n + 1)) u :=
    ⟨hpar', hstate', by rw [hcru]; exact ha, by rw [hcru]; exact hlow, by rw [hcru, h0]; rfl,
      by rw [hcru, hsum]; simp, nofun⟩
  have hseven : InPreamble s.par true 7 (2 * (n + 1)) v :=
    hidle.halfPeriods (by omega) hfits (by decide) (by decide) huv
  obtain ⟨hpar7, hstate7, ha7, hlevel7, hedges7, hsum7, hivl7⟩ := hseven
  have hstart7 : Awaits s.par v.cru v := ⟨hpar7, hstate7, rfl⟩
  obtain ⟨w, ⟨hparw, hstatew, hcruw⟩, hstat, rfl⟩ := hstart7.edge ha7 (by rw [hlevel7]; decide) hlast
  have h7 : w.cru.edgeCnt = 7 := by rw [hcruw]; exact BitVec.eq_of_toNat_eq hedges7
  have hfourteen : w.cru.sum + w.cru.ivl = 14 * (n + 1) := by
    rw [hcruw]
    show v.cru.sum + v.cru.ivl = _
    rw [hsum7, hivl7 (by decide)]
    omega
  refine ⟨w.setCru { w.cru with ivl := 1 }, hparw, hstat, ?_⟩
  rw [countEdge_of_eighth h7, hfourteen]

/-! ## The statements -/

/-- Settles O28: an armed CRU on a level that holds counts no edge, and counts the steps once an edge was counted. -/
theorem noPreambleTimeout : Obligations.NoPreambleTimeout := by
  unfold Obligations.NoPreambleTimeout
  intro s t inp ins hs ha hr hline h
  have hlevels : (inp :: ins).map (·.rxIn) = List.replicate (ins.length + 1) s.cru.rxPrev :=
    List.map_eq_replicate_iff.mpr hline
  have hstart : Awaits s.par s.cru s := ⟨rfl, hs, rfl⟩
  obtain ⟨⟨-, hstate, hcru⟩, hstat⟩ := hstart.quiet ha ⟨inp :: ins, hr, hlevels, h⟩
  rw [hcru]
  exact ⟨hstate, ha, rfl, rfl, hstat, rfl⟩

/-- Settles O27: the eighth edge makes the estimate from the sum `14h`, whose rounded seventh is `2h`. -/
theorem preambleGivesExactPeriod : Obligations.PreambleGivesExactPeriod := by
  unfold Obligations.PreambleGivesExactPeriod
  intro s t ins h hs ha h0 hsum hlow hh hfits hr hlevels hrun
  have htake : (lineLevels h [0x55]).take (15 * h + 1) = toEighthEdge h := by
    rw [show [0x55] = [Config.preamble] from rfl, lineLevels_preamble hh, List.take_left' (length_toEighthEdge h)]
  obtain ⟨u, -, -, rfl⟩ := preamble_makes_estimate hs ha h0 hsum hlow hh hfits ⟨ins, hr, hlevels.trans htake, hrun⟩
  exact ⟨rfl, rfl, eighth_exact_period h u, eighth_exact_half h u, rfl⟩

end Sys2Proof.Machine
end

section
/-! PROOFS. A well-timed frame on the line is delivered (41_clock_recovery.md R105, 42_frame_decoder.md R126, R127): the
line after the eighth edge is sampled in the first half of each bit cell, and the samples are the frame's fields. -/

namespace Sys2Proof.Machine

/-! ## Samples over a run -/

/-- A run of the line whose level `w` steps on is the first of `bits`, and `p` steps on from each bit is the next; it
ends with the last of them. -/
def Sampled (p : Nat) : Nat → List Bool → State → State → Prop
  | _, [], s, t => t = s
  | w, b :: bits, s, t => ∃ before u, before.length + 1 = w ∧ LineRun (before ++ [b]) s u ∧ Sampled p p bits u t

theorem Sampled.append {p w : Nat} {as bs : List Bool} {s t : State} (h : Sampled p w (as ++ bs) s t)
    (hw : as = [] → w = p) : ∃ u, Sampled p w as s u ∧ Sampled p p bs u t := by
  induction as generalizing w s with
  | nil =>
    obtain rfl := hw rfl
    exact ⟨s, rfl, h⟩
  | cons a as ih =>
    obtain ⟨before, v, hlen, hrun, hrest⟩ := h
    obtain ⟨u, hu, hut⟩ := ih hrest fun _ => rfl
    exact ⟨u, ⟨before, v, hlen, hrun, hu⟩, hut⟩

/-- A count of bits of a field fits `bit_cnt` (R30). -/
theorem DecState.toNat_count_of_lt {d : DecState} {c : Nat} (hc : c < d.fieldBits) : (BitVec.ofNat 5 c).toNat = c := by
  have hwidth := d.fieldBits_le
  exact Nat.mod_eq_of_lt (by omega)

/-- An attempt is under way, and no status code is shown. -/
structure Attempt (p w : Nat) (d : Dec) : Prop where
  reading : d.state ≠ .awaitingPreamble
  stat : d.rxStat = rxNone
  spacing : d.spacing = p
  wait : d.wait = w

section
variable {p w : Nat} {s t : State} (hs : Attempt p w s.dec)
include hs

theorem Attempt.step {b : Bool} (h : LineRun [b] s t) :
    ∃ u, u.par = s.par ∧ u.dec = s.dec ∧ readLevel b u = .next t := by
  obtain ⟨inp, hr, rfl, hstep⟩ := h.singleton
  obtain ⟨u, hpar, hdec, hu⟩ := step_reading hr hs.reading hstep
  exact ⟨u, hpar, by rw [hdec, ← hs.stat], hu⟩

/-- Until the sample the sampling clock counts down, whatever the levels (R111). -/
theorem Attempt.countDown {levels : List Bool} (hlen : levels.length < w) (h : LineRun levels s t) :
    t.par = s.par ∧ t.dec = { s.dec with wait := w - levels.length } := by
  induction levels generalizing w s with
  | nil =>
    obtain rfl := lineRun_nil.mp h
    exact ⟨rfl, by rw [List.length_nil, Nat.sub_zero, ← hs.wait]⟩
  | cons b levels ih =>
    rw [List.length_cons] at hlen
    obtain ⟨v, hv, hvt⟩ := h.cons
    obtain ⟨u, hpar, hdec, hu⟩ := hs.step hv
    have hwait : 1 < u.dec.wait := by rw [hdec, hs.wait]; omega
    rw [readLevel, if_neg (by rw [hdec]; exact hs.reading), if_pos hwait] at hu
    obtain rfl := by simpa using hu.symm
    have hcounted : (u.setDec { u.dec with wait := u.dec.wait - 1 }).dec = { s.dec with wait := w - 1 } := by
      rw [State.setDec_dec, hdec, hs.wait]
    have hnext : Attempt p (w - 1) (u.setDec { u.dec with wait := u.dec.wait - 1 }).dec := by
      rw [hcounted]
      exact ⟨hs.reading, hs.stat, hs.spacing, rfl⟩
    obtain ⟨hpar', hdec'⟩ := ih hnext (by omega) hvt
    refine ⟨hpar'.trans hpar, ?_⟩
    rw [hdec', hcounted, List.length_cons, Nat.add_comm, Nat.sub_sub]

/-- The sample, and what it loads the sampling clock with (R111, R112). -/
theorem Attempt.sample {before : List Bool} {b : Bool} (hlen : before.length + 1 = w)
    (h : LineRun (before ++ [b]) s t) :
    ∃ u, u.par = s.par ∧ u.dec = { s.dec with wait := p } ∧
      stateRule (shiftIn s.dec.val b) (s.dec.bitCnt.toNat + 1) u = .next t := by
  obtain ⟨v, hv, hvt⟩ := h.append
  obtain ⟨hpar, hdec⟩ := hs.countDown (by omega) hv
  have hone : Attempt p 1 v.dec := by
    rw [hdec]
    exact ⟨hs.reading, hs.stat, hs.spacing, by show w - before.length = 1; omega⟩
  obtain ⟨u, hpar', hdec', hu⟩ := hone.step hvt
  have hval : u.dec.val = s.dec.val := by rw [hdec', hdec]
  have hbits : u.dec.bitCnt = s.dec.bitCnt := by rw [hdec', hdec]
  rw [← exec_symbolOf_rx, exec_symbolOf_rx_of_wait (hdec' ▸ hone.reading) (by rw [hdec', hone.wait]),
    Machine.sample, hval, hbits] at hu
  exact ⟨u.setDec { u.dec with wait := u.dec.spacing }, hpar'.trans hpar,
    by rw [State.setDec_dec, hdec', hdec, ← hs.spacing], hu⟩

/-- Samples that do not complete the field shift their bits in (R111, R113). -/
theorem Attempt.samples_of_lt {bits : List Bool} (hlt : s.dec.bitCnt.toNat + bits.length < s.dec.state.fieldBits)
    (h : Sampled p w bits s t) :
    t.par = s.par ∧ t.dec = { s.dec with
      wait := if bits = [] then w else p, val := bits.foldl shiftIn s.dec.val,
      bitCnt := BitVec.ofNat 5 (s.dec.bitCnt.toNat + bits.length) } := by
  induction bits generalizing w s with
  | nil =>
    obtain rfl := h
    exact ⟨rfl, by simp [← hs.wait]⟩
  | cons b bits ih =>
    obtain ⟨before, v, hlen, hrun, hrest⟩ := h
    rw [List.length_cons] at hlt
    obtain ⟨u, hpar, hdec, hu⟩ := hs.sample hlen hrun
    rw [stateRule_of_lt (by rw [hdec]; exact hs.reading)
      (by rw [hdec]; show s.dec.bitCnt.toNat + 1 < s.dec.state.fieldBits; omega)] at hu
    obtain rfl := by simpa using hu.symm
    have hkept : (keepBits (shiftIn s.dec.val b) (s.dec.bitCnt.toNat + 1) u).dec = { s.dec with
        wait := p, val := shiftIn s.dec.val b, bitCnt := BitVec.ofNat 5 (s.dec.bitCnt.toNat + 1) } := by
      rw [keepBits, State.setDec_dec, hdec]
    have hcount : (BitVec.ofNat 5 (s.dec.bitCnt.toNat + 1)).toNat = s.dec.bitCnt.toNat + 1 :=
      DecState.toNat_count_of_lt (d := s.dec.state) (by omega)
    have hnext : Attempt p p (keepBits (shiftIn s.dec.val b) (s.dec.bitCnt.toNat + 1) u).dec := by
      rw [hkept]
      exact ⟨hs.reading, hs.stat, hs.spacing, rfl⟩
    obtain ⟨hpar', hdec'⟩ := ih hnext (by rw [hkept, hcount]; show _ + _ < s.dec.state.fieldBits; omega) hrest
    refine ⟨hpar'.trans hpar, ?_⟩
    rw [hdec', hkept, hcount]
    simp [Nat.add_assoc, Nat.add_comm 1]

/-- The samples of a whole field end in the rule of its state (R113, R115 to R121). -/
theorem Attempt.field {bits : List Bool} {b : Bool} (hbits : s.dec.bitCnt = 0)
    (hlen : bits.length + 1 = s.dec.state.fieldBits) (hne : bits ≠ []) (h : Sampled p w (bits ++ [b]) s t) :
    ∃ u, u.par = s.par ∧ u.dec = { s.dec with wait := p, val := u.dec.val, bitCnt := u.dec.bitCnt } ∧
      stateRule ((bits ++ [b]).foldl shiftIn s.dec.val) s.dec.state.fieldBits u = .next t := by
  obtain ⟨v, hv, before, u', hlast, hrun, hend⟩ := h.append fun h => absurd h hne
  obtain rfl := hend
  have hzero : s.dec.bitCnt.toNat = 0 := by rw [hbits]; rfl
  obtain ⟨hpar, hdec⟩ := hs.samples_of_lt (by omega) hv
  rw [if_neg hne, hzero, Nat.zero_add] at hdec
  have hnext : Attempt p p v.dec := by
    rw [hdec]
    exact ⟨hs.reading, hs.stat, hs.spacing, rfl⟩
  have hcount : v.dec.bitCnt.toNat + 1 = s.dec.state.fieldBits := by
    have hlt : bits.length < s.dec.state.fieldBits := by omega
    rw [hdec]
    show (BitVec.ofNat 5 bits.length).toNat + 1 = _
    rw [DecState.toNat_count_of_lt hlt, hlen]
  obtain ⟨u, hpar', hdec', hu⟩ := hnext.sample hlast hrun
  rw [hcount] at hu
  refine ⟨u, hpar'.trans hpar, by rw [hdec', hdec], ?_⟩
  rw [List.foldl_append, List.foldl_cons, List.foldl_nil]
  rwa [hdec] at hu

end

/-! ## A Message in the buffer -/

/-- The bytes of `m` are in the buffer, and the length byte is their number. -/
structure Memory.Holds (buf : Memory) (len : Byte) (m : Message) : Prop where
  length : len.toNat = m.length
  bytes : ∀ i < m.length, buf.get? i = m[i]?

/-- Every byte of the Message has been written, so no free value shows in it. -/
theorem Memory.Holds.message {s : State} {m : Message} (h : s.dec.buf.Holds s.dec.lenR m) : message s = m := by
  apply List.ext_getElem
  · simp [Machine.message, bufBytes, h.length]
  · intro i _ hi
    simp [Machine.message, bufBytes, readBuf, h.bytes i hi, List.getElem?_eq_getElem hi]

theorem Memory.holds_putAll (buf : Memory) {m : Message} (hm : m.length ≤ 255) :
    (buf.putAll 0 m).Holds (BitVec.ofNat 8 m.length) m where
  length := Nat.mod_eq_of_lt (by omega)
  bytes := fun i hi => by rw [Memory.get?_putAll, if_pos (by omega), Nat.sub_zero]

/-! ## The fields of a frame, from their samples -/

theorem byteBits_ne_nil (b : Byte) : byteBits b ≠ [] := List.ne_nil_of_length_eq_add_one (length_byteBits b)

theorem exec_startFlag_rx_match (s : State) :
    exec (.startFlag .rx Config.startFlag) s = .next (s.setDec (nextField .readingHeaderType s.dec)) := rfl

theorem exec_typeFlags_rx (v : Byte) (s : State) :
    exec (.typeFlags .rx v) s = .next (s.setDec { nextField .readingHeaderLength s.dec with typeR := v }) := rfl

theorem exec_lengthByte_rx (v : Byte) (s : State) :
    exec (.lengthByte .rx v) s = .next (s.setDec
      { nextField (if v = 0 then .readingCrc else .readingPayload) s.dec with lenR := v, idx := 0 }) := rfl

theorem exec_payloadByte_rx {s : State} (hs : s.dec.state = .readingPayload) (hidx : s.dec.idx.toNat < 255) (v : Byte) :
    exec (.payloadByte .rx v) s = .next (s.setDec
      { nextField (if s.dec.idx.toNat + 1 = s.dec.lenR.toNat then .readingCrc else .readingPayload) s.dec with
        buf := s.dec.buf.put s.dec.idx.toNat v, idx := s.dec.idx + 1 }) := by
  rw [← hs]
  exact if_pos hidx

theorem exec_endFlag_rx_match (s : State) :
    exec (.endFlag .rx Config.endFlag) s = .next (terminal rxOk true (s.setDec { s.dec with deliverPend := true })) :=
  rfl

/-- The last bit of a CRC field that matches (R120). -/
theorem stateRule_crc_match {v : Word16} {s : State} (hs : s.dec.state = .readingCrc)
    (hv : v = crc16 s.par (s.dec.typeR :: s.dec.lenR :: message s)) :
    stateRule v 16 s = .next (s.setDec (nextField .awaitingEnd s.dec)) := by
  have hlow : stateRule v 16 s = execCrcLo .rx (loByte v) (beforeByte v s) := by simp [stateRule, hs]
  rw [hlow, execCrcLo, fieldWord_beforeByte]
  exact if_pos hv

/-- The start of a field (R113). -/
structure FieldStart (p w : Nat) (d : Dec) : Prop extends Attempt p w d where
  val : d.val = 0
  bits : d.bitCnt = 0

/-- At the start of a field what a completed one clears is clear. -/
theorem FieldStart.nextField_eq {p w : Nat} {d : Dec} (hd : FieldStart p w d) :
    { nextField d.state d with wait := w } = d := by
  rw [nextField, ← hd.val, ← hd.bits, ← hd.wait]

/-- A completed field leaves the decoder at the start of the next one (R113). -/
theorem FieldStart.next {p w : Nat} {d d' : Dec} {next : DecState} {type len idx : Byte} {buf : Memory}
    (hd : FieldStart p w d)
    (hd' : d' = { nextField next d with wait := p, typeR := type, lenR := len, idx := idx, buf := buf })
    (hnext : next ≠ .awaitingPreamble) : FieldStart p p d' := by
  subst hd'
  exact ⟨⟨hnext, hd.stat, hd.spacing, rfl⟩, rfl, rfl⟩

section
variable {p w : Nat} {s t : State} {rest : List Bool} (hs : FieldStart p w s.dec)
include hs

/-- The samples of an 8-bit field are the reception of its byte (R71), in a state that differs from the field's first in
the sampling clock and the bits read. -/
theorem FieldStart.byte {b : Byte} {i : Instr} (hi : byteReception s.dec.state b = some i)
    (h : Sampled p w (byteBits b ++ rest) s t) :
    ∃ u v, u.par = s.par ∧ u.dec = { s.dec with wait := p, val := u.dec.val, bitCnt := u.dec.bitCnt } ∧
      exec i u = .next v ∧ Sampled p p rest v t := by
  obtain ⟨v, hv, hvt⟩ := h.append (absurd · (byteBits_ne_nil b))
  have hsplit : byteBits b = (byteBits b).take 7 ++ [streamBit b 7] := rfl
  have hwidth : s.dec.state.fieldBits = 8 := (fieldBits_of_byteReception hi).2
  rw [hsplit] at hv
  obtain ⟨u, hpar, hdec, hu⟩ := hs.field hs.bits (by rw [hwidth]; rfl) (by simp [byteBits]) hv
  have hbyte : byteReception u.dec.state (loByte (fieldWord s.dec.val b)) = some i := by
    rw [hdec, fieldWord, loByte_append]
    exact hi
  rw [← hsplit, foldl_shiftIn_byteBits, hwidth, stateRule_byteReception hbyte] at hu
  exact ⟨u, v, hpar, hdec, hu, hvt⟩

/-- A byte whose reception goes on writes what it writes to the decoder, whatever bits were in `val` before. -/
theorem FieldStart.goesOn {b : Byte} {i : Instr} {g : Dec → Dec} (hi : byteReception s.dec.state b = some i)
    (hexec : ∀ u : State, u.dec = { s.dec with wait := p, val := u.dec.val, bitCnt := u.dec.bitCnt } →
      exec i u = .next (u.setDec (g u.dec)))
    (hg : ∀ d v c, g { d with val := v, bitCnt := c } = g d) (h : Sampled p w (byteBits b ++ rest) s t) :
    ∃ u, u.par = s.par ∧ u.dec = g { s.dec with wait := p } ∧ Sampled p p rest u t := by
  obtain ⟨u, v, hpar, hdec, hv, hvt⟩ := hs.byte hi h
  rw [hexec u hdec] at hv
  obtain rfl : u.setDec (g u.dec) = v := by simpa using hv
  refine ⟨u.setDec (g u.dec), hpar, ?_, hvt⟩
  rw [State.setDec_dec, hdec]
  exact hg { s.dec with wait := p } u.dec.val u.dec.bitCnt

theorem FieldStart.startFlag (hstate : s.dec.state = .awaitingStart)
    (h : Sampled p w (byteBits Config.startFlag ++ rest) s t) :
    ∃ u, u.par = s.par ∧ u.dec = { nextField .readingHeaderType s.dec with wait := p } ∧ Sampled p p rest u t :=
  hs.goesOn (by rw [hstate]; rfl) (fun u _ => exec_startFlag_rx_match u) (fun _ _ _ => rfl) h

theorem FieldStart.typeFlags {b : Byte} (hstate : s.dec.state = .readingHeaderType)
    (h : Sampled p w (byteBits b ++ rest) s t) :
    ∃ u, u.par = s.par ∧ u.dec = { nextField .readingHeaderLength s.dec with wait := p, typeR := b } ∧
      Sampled p p rest u t :=
  hs.goesOn (g := fun d => { nextField .readingHeaderLength d with typeR := b }) (by rw [hstate]; rfl)
    (fun u _ => exec_typeFlags_rx b u) (fun _ _ _ => rfl) h

theorem FieldStart.lengthByte {b : Byte} (hstate : s.dec.state = .readingHeaderLength)
    (h : Sampled p w (byteBits b ++ rest) s t) :
    ∃ u, u.par = s.par ∧ u.dec = { nextField (if b = 0 then .readingCrc else .readingPayload) s.dec with
        wait := p, lenR := b, idx := 0 } ∧ Sampled p p rest u t :=
  hs.goesOn (g := fun d => { nextField (if b = 0 then .readingCrc else .readingPayload) d with lenR := b, idx := 0 })
    (by rw [hstate]; rfl) (fun u _ => exec_lengthByte_rx b u) (fun _ _ _ => rfl) h

theorem FieldStart.payloadByte {b : Byte} (hstate : s.dec.state = .readingPayload) (hidx : s.dec.idx.toNat < 255)
    (h : Sampled p w (byteBits b ++ rest) s t) :
    ∃ u, u.par = s.par ∧
      u.dec = { nextField (if s.dec.idx.toNat + 1 = s.dec.lenR.toNat then .readingCrc else .readingPayload) s.dec with
        wait := p, buf := s.dec.buf.put s.dec.idx.toNat b, idx := s.dec.idx + 1 } ∧ Sampled p p rest u t :=
  hs.goesOn (g := fun d =>
      { nextField (if d.idx.toNat + 1 = d.lenR.toNat then .readingCrc else .readingPayload) d with
        buf := d.buf.put d.idx.toNat b, idx := d.idx + 1 })
    (by rw [hstate]; rfl)
    (fun u hu => exec_payloadByte_rx (by rw [hu]; exact hstate) (by rw [hu]; exact hidx) b) (fun _ _ _ => rfl) h

/-- The sixteen samples of a CRC field that matches (R120). -/
theorem FieldStart.crc {hi lo : Byte} (hstate : s.dec.state = .readingCrc) {m : Message}
    (hm : s.dec.buf.Holds s.dec.lenR m)
    (hmatch : hi ++ lo = crc16 s.par (s.dec.typeR :: s.dec.lenR :: m))
    (h : Sampled p w (byteBits hi ++ byteBits lo ++ rest) s t) :
    ∃ u, u.par = s.par ∧ u.dec = { nextField .awaitingEnd s.dec with wait := p } ∧ Sampled p p rest u t := by
  obtain ⟨v, hv, hvt⟩ := h.append fun h => absurd (List.append_eq_nil_iff.mp h).1 (byteBits_ne_nil hi)
  have hsplit : byteBits hi ++ byteBits lo = (byteBits hi ++ (byteBits lo).take 7) ++ [streamBit lo 7] := rfl
  have hvalue : (byteBits hi ++ byteBits lo).foldl shiftIn s.dec.val = hi ++ lo := by
    rw [List.foldl_append, foldl_shiftIn_byteBits, foldl_shiftIn_byteBits, fieldWord, fieldWord, loByte_append]
  have hwidth : s.dec.state.fieldBits = 16 := by rw [hstate]; rfl
  rw [hsplit] at hv
  obtain ⟨u, hpar, hdec, hu⟩ := hs.field hs.bits (by rw [hwidth]; rfl) (by simp [byteBits]) hv
  have hmessage : message u = m := Memory.Holds.message (by rw [hdec]; exact hm)
  have hcrc : hi ++ lo = crc16 u.par (u.dec.typeR :: u.dec.lenR :: message u) := by
    rw [hmessage, hpar, hdec]
    exact hmatch
  rw [← hsplit, hvalue, hwidth, stateRule_crc_match (by rw [hdec]; exact hstate) hcrc] at hu
  obtain rfl : u.setDec (nextField .awaitingEnd u.dec) = v := by simpa using hu
  exact ⟨u.setDec (nextField .awaitingEnd u.dec), hpar, by rw [State.setDec_dec, hdec]; rfl, hvt⟩

theorem FieldStart.endFlag (hstate : s.dec.state = .awaitingEnd)
    (h : Sampled p w (byteBits Config.endFlag) s t) :
    t.dec = { nextField .awaitingPreamble s.dec with wait := p, rxStat := rxOk, deliverPend := true } := by
  rw [← List.append_nil (byteBits _)] at h
  obtain ⟨u, v, -, hdec, hv, rfl⟩ := hs.byte (i := .endFlag .rx Config.endFlag) (by rw [hstate]; rfl) h
  rw [exec_endFlag_rx_match] at hv
  obtain rfl := by simpa using hv.symm
  rw [terminal_dec, State.setDec_dec, hdec]
  rfl

end

/-- A payload of any length, from the state the length byte leaves (R118, R119). -/
theorem FieldStart.payload {p : Nat} {s t : State} {m : Message} {rest : List Bool} (hs : FieldStart p p s.dec)
    (hstate : s.dec.state = if m = [] then .readingCrc else .readingPayload)
    (hlen : s.dec.idx.toNat + m.length = s.dec.lenR.toNat) (h : Sampled p p (m.flatMap byteBits ++ rest) s t) :
    ∃ u, u.par = s.par ∧ u.dec = { nextField .readingCrc s.dec with
        wait := p, idx := s.dec.lenR, buf := s.dec.buf.putAll s.dec.idx.toNat m } ∧ Sampled p p rest u t := by
  induction m generalizing s with
  | nil =>
    have hidx : s.dec.idx = s.dec.lenR := BitVec.eq_of_toNat_eq hlen
    have hcrc : s.dec.state = .readingCrc := hstate
    refine ⟨s, rfl, ?_, h⟩
    rw [← hidx, ← hcrc]
    exact hs.nextField_eq.symm
  | cons b m ih =>
    rw [List.length_cons] at hlen
    rw [List.flatMap_cons, List.append_assoc] at h
    have hfull := s.dec.lenR.isLt
    obtain ⟨u, hpar, hdec, hut⟩ := hs.payloadByte hstate (by omega) h
    have hsucc : (s.dec.idx + 1).toNat = s.dec.idx.toNat + 1 := by bv_omega
    have hlast : s.dec.idx.toNat + 1 = s.dec.lenR.toNat ↔ m = [] := by
      rw [← List.length_eq_zero_iff]; omega
    have hu : FieldStart p p u.dec := hs.next hdec (by split <;> nofun)
    obtain ⟨v, hpar', hdec', hvt⟩ := ih hu (by rw [hdec, nextField]; exact if_congr hlast rfl rfl)
      (by rw [hdec]; show (s.dec.idx + 1).toNat + m.length = s.dec.lenR.toNat; omega) hut
    refine ⟨v, hpar'.trans hpar, ?_, hvt⟩
    rw [hdec', hdec]
    show _ = { nextField .readingCrc s.dec with
      wait := p, idx := s.dec.lenR, buf := (s.dec.buf.put s.dec.idx.toNat b).putAll (s.dec.idx.toNat + 1) m }
    rw [← hsucc]
    rfl

/-- The samples of a frame, from its start flag on, deliver its Message (R126). -/
theorem frame_samples_deliver {p w : Nat} {s t : State} {typ : Byte} {m : Message} (hs : FieldStart p w s.dec)
    (hstate : s.dec.state = .awaitingStart) (hm : m.length ≤ 255)
    (h : Sampled p w ((frameWithType s.par typ m).tail.flatMap byteBits) s t) :
    rxValid t = true ∧ t.dec.buf.Holds t.dec.lenR m ∧ rxStatus t = rxOk := by
  generalize hcrc : crc16 s.par (typ :: BitVec.ofNat 8 m.length :: m) = crc
  have hbits : (frameWithType s.par typ m).tail.flatMap byteBits =
      byteBits Config.startFlag ++ (byteBits typ ++ (byteBits (BitVec.ofNat 8 m.length) ++
        (m.flatMap byteBits ++ (byteBits (hiByte crc) ++ byteBits (loByte crc) ++ byteBits Config.endFlag)))) := by
    simp [frameWithType, hcrc]
  rw [hbits] at h
  obtain ⟨s1, hpar1, hdec1, h⟩ := hs.startFlag hstate h
  have hs1 : FieldStart p p s1.dec := hs.next hdec1 nofun
  obtain ⟨s2, hpar2, hdec2, h⟩ := hs1.typeFlags (by rw [hdec1]; rfl) h
  have hs2 : FieldStart p p s2.dec := hs1.next hdec2 nofun
  obtain ⟨s3, hpar3, hdec3, h⟩ := hs2.lengthByte (by rw [hdec2]; rfl) h
  have hs3 : FieldStart p p s3.dec := hs2.next hdec3 (by split <;> nofun)
  have hzero : BitVec.ofNat 8 m.length = 0 ↔ m = [] := by
    rw [← List.length_eq_zero_iff]
    bv_omega
  have hlen : (BitVec.ofNat 8 m.length).toNat = m.length := Nat.mod_eq_of_lt (by omega)
  obtain ⟨s4, hpar4, hdec4, h⟩ := hs3.payload (by rw [hdec3]; exact if_congr hzero rfl rfl)
    (by rw [hdec3]; show 0 + m.length = _; rw [hlen, Nat.zero_add]) h
  have hs4 : FieldStart p p s4.dec := hs3.next hdec4 nofun
  have hholds : s4.dec.buf.Holds s4.dec.lenR m := by
    rw [hdec4, hdec3]
    exact Memory.holds_putAll _ hm
  obtain ⟨s5, -, hdec5, h⟩ := hs4.crc (by rw [hdec4]; rfl) hholds
    (by rw [hiByte_append_loByte, ← hcrc, hpar4, hpar3, hpar2, hpar1, hdec4, hdec3, hdec2]; rfl) h
  have hs5 : FieldStart p p s5.dec := hs4.next hdec5 nofun
  have hend := hs5.endFlag (by rw [hdec5]; rfl) h
  refine ⟨by rw [rxValid, hend], ?_, by rw [rxStatus, hend]⟩
  rw [hend, hdec5]
  exact hholds

/-! ## The line of a frame -/

/-- The line of a bit sequence, each half-level held for `h` steps (R66, R70). -/
def bitCells (h : Nat) (bits : List Bool) : List Bool :=
  bits.flatMap fun b => List.replicate h b ++ List.replicate h (!b)

theorem lineLevels_eq_bitCells (h : Nat) (bs : List Byte) : lineLevels h bs = bitCells h (bs.flatMap byteBits) := by
  simp [lineLevels, halfLevels, bitCells, List.flatMap_assoc, halves]

theorem lineLevels_append (h : Nat) (as bs : List Byte) :
    lineLevels h (as ++ bs) = lineLevels h as ++ lineLevels h bs := by
  simp [lineLevels, halfLevels]

@[simp] theorem bitCells_cons (h : Nat) (b : Bool) (bits : List Bool) :
    bitCells h (b :: bits) = List.replicate h b ++ List.replicate h (!b) ++ bitCells h bits := rfl

/-- The sample `o` steps into a half-bit, and the levels around it. -/
theorem replicate_eq_sample {h o : Nat} (ho : o < h) (b : Bool) :
    List.replicate h b = List.replicate o b ++ [b] ++ List.replicate (h - (o + 1)) b := by
  rw [← List.replicate_succ', List.replicate_append_replicate, Nat.add_sub_cancel' ho]

/-- A line that carries the cells of a bit sequence, up to `o` steps into the last of them, is sampled once in each. -/
theorem sampled_of_bitCells {h o w : Nat} (ho : o < h) {before bits : List Bool} {b : Bool} {s t : State}
    (hw : before.length + (o + 1) = w)
    (hrun : LineRun (before ++ (bitCells h (b :: bits)).take (2 * h * bits.length + (o + 1))) s t) :
    Sampled (2 * h) w (b :: bits) s t := by
  have hlen : (before ++ List.replicate o b).length + 1 = w := by
    rw [List.length_append, List.length_replicate]; omega
  induction bits generalizing before b w s with
  | nil =>
    have hlevels : (bitCells h [b]).take (2 * h * 0 + (o + 1)) = List.replicate o b ++ [b] := by
      rw [bitCells_cons, replicate_eq_sample ho, List.append_assoc, List.append_assoc, List.take_left' (by simp)]
    rw [List.length_nil, hlevels, ← List.append_assoc] at hrun
    exact ⟨_, t, hlen, hrun, rfl⟩
  | cons b' bits ih =>
    have hcell : (List.replicate h b ++ List.replicate h (!b)).length = 2 * h := by simp; omega
    have hlevels : (bitCells h (b :: b' :: bits)).take (2 * h * (bits.length + 1) + (o + 1)) =
        (List.replicate o b ++ [b]) ++ ((List.replicate (h - (o + 1)) b ++ List.replicate h (!b)) ++
          (bitCells h (b' :: bits)).take (2 * h * bits.length + (o + 1))) := by
      rw [bitCells_cons h b, show 2 * h * (bits.length + 1) + (o + 1) =
        (List.replicate h b ++ List.replicate h (!b)).length + (2 * h * bits.length + (o + 1)) by rw [hcell]; ring,
        List.take_length_add_append, replicate_eq_sample ho b]
      simp only [List.append_assoc]
    rw [List.length_cons, hlevels, ← List.append_assoc, ← List.append_assoc before] at hrun
    obtain ⟨u, hu, hut⟩ := hrun.append
    have hnext : (List.replicate (h - (o + 1)) b ++ List.replicate h (!b)).length + (o + 1) = 2 * h := by
      rw [List.length_append, List.length_replicate, List.length_replicate]; omega
    exact ⟨_, u, hlen, hu, ih hnext hut (by rw [List.length_append, List.length_replicate]; omega)⟩

/-! ## The statement -/

@[simp] theorem length_flatMap_byteBits (bs : List Byte) : (bs.flatMap byteBits).length = 8 * bs.length := by
  induction bs with
  | nil => rfl
  | cons b bs ih => rw [List.flatMap_cons, List.length_append, ih, length_byteBits, List.length_cons]; ring

theorem length_tail_frameWithType (p : Params) (typ : Byte) (m : Message) :
    (frameWithType p typ m).tail.length = m.length + 6 := by
  simp [frameWithType]

/-- The line of a frame up to R127's step: the preamble up to its eighth edge, the rest of its last half-bit, and the
cells of the other fields. -/
theorem take_lineLevels_frame {h o : Nat} (hh : 1 ≤ h) (p : Params) (typ : Byte) (m : Message) :
    (lineLevels h (frameWithType p typ m)).take (15 * h + (h + o) + (8 * (m.length + 6) - 1) * (2 * h) + 1) =
      toEighthEdge h ++ (List.replicate (h - 1) false ++
        (bitCells h ((frameWithType p typ m).tail.flatMap byteBits)).take
          (2 * h * (8 * (m.length + 6) - 1) + (o + 1))) := by
  have hframe : frameWithType p typ m = [Config.preamble] ++ (frameWithType p typ m).tail := rfl
  have hsteps : 15 * h + (h + o) + (8 * (m.length + 6) - 1) * (2 * h) + 1 =
      (toEighthEdge h).length + ((List.replicate (h - 1) false).length +
        (2 * h * (8 * (m.length + 6) - 1) + (o + 1))) := by
    rw [length_toEighthEdge, List.length_replicate, Nat.mul_comm _ (2 * h)]; omega
  rw [hsteps, hframe, lineLevels_append, lineLevels_preamble hh, List.append_assoc, List.take_length_add_append,
    List.take_length_add_append, lineLevels_eq_bitCells]
  rfl

/-- The estimate of an exact preamble hands over at the start of the start flag's field, and the first sample is the
offset's steps into its first cell (R98 to R103). -/
theorem eighth_fieldStart {s : State} {h : Nat} (hstat : s.dec.rxStat = rxNone) (hcorr : s.par.timingCorr = 0)
    (hh : 1 ≤ h) (hfits : 2 * h < 2 ^ s.par.cntW) :
    FieldStart (2 * h) (h + min (h / s.par.offsetDiv) s.par.offsetCap) (eighth (14 * h) s).dec := by
  have hperiod : (14 * h + 3) / 7 = 2 * h := eighth_exact_period h s
  have hhalf : (14 * h + 3) / 7 / 2 = h := eighth_exact_half h s
  refine ⟨⟨nofun, hstat, ?_, ?_⟩, rfl, rfl⟩
  · show spacingOf s.par s.stepIx ((14 * h + 3) / 7) = 2 * h
    rw [hperiod, spacingOf_zero hcorr (by omega) hfits]
  · show max ((14 * h + 3) / 7 / 2 + min ((14 * h + 3) / 7 / 2 / s.par.offsetDiv) s.par.offsetCap) 1 = _
    rw [hhalf]
    exact max_eq_left (hh.trans (Nat.le_add_right ..))

/-- Settles O44: the preamble makes the exact estimate, so the frame is sampled `o` steps into each of its bit cells,
and the samples deliver its Message. -/
theorem wellTimedFrameIsDelivered : Obligations.WellTimedFrameIsDelivered := by
  unfold Obligations.WellTimedFrameIsDelivered
  intro s t ins h typ m hinv hstate ha h0 hlow hcorr hh hfits hm hr ho o last hlevels hrun
  have hsum : s.cru.sum = 0 := by simpa [h0] using hinv.cru.armedSum ha
  have hwait : max (h + o) 1 = h + o := max_eq_left (hh.trans (Nat.le_add_right h o))
  have hline : ins.map (·.rxIn) = _ := hlevels.trans (by
    simp only [last, hwait]
    exact take_lineLevels_frame hh s.par typ m)
  obtain ⟨v, hv, hvt⟩ := LineRun.append ⟨ins, hr, hline, hrun⟩
  obtain ⟨u, hpar, hstat, rfl⟩ := preamble_makes_estimate hstate ha h0 hsum hlow hh hfits hv
  have hstart : FieldStart (2 * h) (h + o) (eighth (14 * h) u).dec := by
    rw [← hpar] at hcorr hfits
    have hfield := eighth_fieldStart hstat hcorr hh hfits
    rwa [hpar] at hfield
  have hpar' : (eighth (14 * h) u).par = s.par := hpar
  obtain ⟨b, bits, hbits⟩ : ∃ b bits, (frameWithType s.par typ m).tail.flatMap byteBits = b :: bits :=
    ⟨_, _, rfl⟩
  have hcount : bits.length = 8 * (m.length + 6) - 1 := by
    have hlength := congrArg List.length hbits
    rw [length_flatMap_byteBits, length_tail_frameWithType, List.length_cons] at hlength
    omega
  rw [hbits, ← hcount] at hvt
  have hfirst : (List.replicate (h - 1) false).length + (o + 1) = h + o := by rw [List.length_replicate]; omega
  have hsampled : Sampled (2 * h) (h + o) (b :: bits) (eighth (14 * h) u) t := sampled_of_bitCells ho hfirst hvt
  rw [← hbits, ← hpar'] at hsampled
  obtain ⟨hvalid, hholds, hstatus⟩ := frame_samples_deliver hstart rfl hm hsampled
  exact ⟨hvalid, hholds.message, hholds.length, hstatus⟩

end Sys2Proof.Machine
end

section
/-! PROOFS. The frame decoder (42_frame_decoder.md): the sampling clock, the rule of each field, the end of an attempt,
and the fields of a frame received one after the other. -/

namespace Sys2Proof.Machine

/-! ## The sampling clock -/

/-- Settles O30: the DEC step runs outside `AwaitingPreamble` only, and counts down before it reads the level. -/
theorem samplingClockCountsDown : Obligations.SamplingClockCountsDown := by
  unfold Obligations.SamplingClockCountsDown
  intro s b
  rw [exec_symbolOf_rx, readLevel]
  constructor
  · intro hs hwait
    rw [if_neg hs, if_pos hwait]
    rfl
  · intro hs
    rw [if_pos hs]

/-- Shifting a bit in is doubling and adding it, in the width of `val` (R111). -/
theorem shiftIn_eq_ofNat (v : Word16) (b : Bool) : shiftIn v b = BitVec.ofNat 16 (2 * v.toNat + b.toNat) := by
  have hdisjoint : (v <<< 1) &&& (BitVec.ofBool b).setWidth 16 = 0 := by
    apply BitVec.eq_of_getLsbD_eq
    intro i _
    cases i <;> simp
  rw [shiftIn, ← BitVec.add_eq_or_of_and_eq_zero _ _ hdisjoint]
  apply BitVec.eq_of_toNat_eq
  cases b <;> simp <;> omega

/-- Settles O31: the sample loads the sampling clock, and the rule of a field that is not complete keeps its bits. -/
theorem sampleShiftsBitIn : Obligations.SampleShiftsBitIn := by
  unfold Obligations.SampleShiftsBitIn
  intro s b hs hwait hbits _
  have hcount : BitVec.ofNat 5 (s.dec.bitCnt.toNat + 1) = s.dec.bitCnt + 1 := by bv_omega
  have hrule : sample b s = .next (keepBits (shiftIn s.dec.val b) (s.dec.bitCnt.toNat + 1)
      (s.setDec { s.dec with wait := s.dec.spacing })) :=
    stateRule_of_lt (s := s.setDec { s.dec with wait := s.dec.spacing }) hs hbits
  rw [exec_symbolOf_rx_of_wait hs hwait, hrule, shiftIn_eq_ofNat, keepBits, hcount]
  rfl

/-! ## The end of an attempt -/

/-- TERMINAL ends the attempt; a Message that is delivered waits, and one that waited before still does (R123). -/
theorem terminal_endsAttempt (code : BitVec 3) (pend : Bool) (s : State) :
    EndsAttempt code pend s
      (terminal code pend (s.setDec { s.dec with deliverPend := pend || s.dec.deliverPend })) := by
  refine ⟨by rw [terminal_dec]; rfl, ?_, ?_⟩
  · obtain ⟨hcru, hguard⟩ | ⟨hcru, hguard⟩ := terminal_cru_cases code pend _
    · exact hcru.trans (if_pos hguard).symm
    · exact hcru.trans (if_neg hguard).symm
  · rw [terminal_onlyRx code pend]
    exact ⟨rfl, rfl, rfl, rfl, rfl, rfl, rfl⟩

/-- An abort ends the attempt and leaves the RX port as it was (R122). -/
theorem raiseError_endsAttempt (e : DecError) (s : State) : EndsAttempt e.code false s (raiseError e s) :=
  terminal_endsAttempt e.code false s

/-! ## The rule of each field -/

theorem exec_startFlag_rx_mismatch {v : Byte} (hv : v ≠ Config.startFlag) (s : State) :
    exec (.startFlag .rx v) s = .next (raiseError .framingStart s) :=
  if_neg hv

theorem exec_endFlag_rx_mismatch {v : Byte} (hv : v ≠ Config.endFlag) (s : State) :
    exec (.endFlag .rx v) s = .next (raiseError .framingEnd s) :=
  if_neg hv

/-- CRC_HI puts its byte below the low byte of `val` (log 18). -/
theorem exec_crcHi_rx (hi : Byte) (s : State) :
    exec (.crcHi .rx hi) s = .next (s.setDec { s.dec with val := fieldWord s.dec.val hi, bitCnt := 8 }) := rfl

theorem exec_crcLo_rx_match {lo : Byte} {s : State}
    (hv : fieldWord s.dec.val lo = crc16 s.par (s.dec.typeR :: s.dec.lenR :: message s)) :
    exec (.crcLo .rx lo) s = .next (s.setDec (nextField .awaitingEnd s.dec)) :=
  if_pos hv

theorem exec_crcLo_rx_mismatch {lo : Byte} {s : State}
    (hv : fieldWord s.dec.val lo ≠ crc16 s.par (s.dec.typeR :: s.dec.lenR :: message s)) :
    exec (.crcLo .rx lo) s = .next (raiseError (.integrity (fieldWord s.dec.val lo)
      (crc16 s.par (s.dec.typeR :: s.dec.lenR :: message s))) s) :=
  if_neg hv

/-- The two bytes of the CRC field are its sixteen bits, whatever `val` held before (R49). -/
theorem fieldWord_fieldWord (v : Word16) (hi lo : Byte) : fieldWord (fieldWord v hi) lo = hi ++ lo := by
  rw [fieldWord, fieldWord, loByte_append]

/-- A CRC field that matches leads to the end flag (R120). -/
theorem execAll_crc_match {hi lo : Byte} {s : State}
    (h : hi ++ lo = crc16 s.par (s.dec.typeR :: s.dec.lenR :: message s)) :
    execAll [.crcHi .rx hi, .crcLo .rx lo] s = .next (s.setDec (nextField .awaitingEnd s.dec)) := by
  rw [execAll, exec_crcHi_rx, andThen_next, execAll_singleton, exec_crcLo_rx_match]
  · rfl
  · exact (fieldWord_fieldWord ..).trans h

/-- A CRC field that does not match ends the attempt with IntegrityError (R120). -/
theorem execAll_crc_mismatch {hi lo : Byte} {s : State}
    (h : hi ++ lo ≠ crc16 s.par (s.dec.typeR :: s.dec.lenR :: message s)) :
    ∃ t, execAll [.crcHi .rx hi, .crcLo .rx lo] s = .next t ∧ EndsAttempt 3 false s t := by
  rw [execAll, exec_crcHi_rx, andThen_next, execAll_singleton, exec_crcLo_rx_mismatch]
  · exact ⟨_, rfl, raiseError_endsAttempt (.integrity _ _) _⟩
  · exact fun heq => h ((fieldWord_fieldWord ..).symm.trans heq)

/-- Settles O33: by the two answers of the start flag. -/
theorem startFlagChecked : Obligations.StartFlagChecked := by
  unfold Obligations.StartFlagChecked
  intro s v
  constructor
  · rintro rfl
    exact exec_startFlag_rx_match s
  · intro hv
    exact ⟨_, exec_startFlag_rx_mismatch hv s, raiseError_endsAttempt .framingStart s⟩

/-- Settles O34: the type byte has one answer. -/
theorem typeByteAccepted : Obligations.TypeByteAccepted := by
  unfold Obligations.TypeByteAccepted
  exact fun s v => exec_typeFlags_rx v s

/-- Settles O35: the length byte has one answer. -/
theorem lengthStartsPayload : Obligations.LengthStartsPayload := by
  unfold Obligations.LengthStartsPayload
  exact fun s v => exec_lengthByte_rx v s

/-- Settles O36: `buf` reads as before but for the byte written. -/
theorem payloadByteStored : Obligations.PayloadByteStored := by
  unfold Obligations.PayloadByteStored
  intro s v hs hidx
  exact ⟨_, exec_payloadByte_rx hs hidx v, fun i => Memory.get?_put s.dec.buf s.dec.idx.toNat i v, rfl⟩

/-- Settles O38: by the two answers of the whole CRC field. -/
theorem crcFieldChecked : Obligations.CrcFieldChecked := by
  unfold Obligations.CrcFieldChecked
  exact fun s hi lo _ _ => ⟨execAll_crc_match, execAll_crc_mismatch⟩

/-- Settles O39: CRC_HI has one answer, and CRC_LO two. -/
theorem crcBytesComplete : Obligations.CrcBytesComplete := by
  unfold Obligations.CrcBytesComplete
  intro s v
  refine ⟨⟨_, exec_crcHi_rx v s, rfl, rfl⟩, ?_⟩
  by_cases hv : fieldWord s.dec.val v = crc16 s.par (s.dec.typeR :: s.dec.lenR :: message s)
  · exact ⟨_, exec_crcLo_rx_match hv, .inl rfl⟩
  · exact ⟨_, exec_crcLo_rx_mismatch hv, .inr (raiseError_endsAttempt (.integrity _ _) s)⟩

/-- Settles O40: by the two answers of the end flag. -/
theorem endFlagDelivers : Obligations.EndFlagDelivers := by
  unfold Obligations.EndFlagDelivers
  intro s v
  constructor
  · rintro rfl
    exact ⟨_, exec_endFlag_rx_match s, terminal_endsAttempt rxOk true s⟩
  · intro hv
    exact ⟨_, exec_endFlag_rx_mismatch hv s, raiseError_endsAttempt .framingEnd s⟩

/-- Settles O45: RECEIVE takes `buf[0..len_r)` when a Message waits, and does not run otherwise. -/
theorem receiveHandsMessageOver : Obligations.ReceiveHandsMessageOver := by
  unfold Obligations.ReceiveHandsMessageOver
  intro s
  constructor
  · exact fun hpend => execReceive_pend hpend
  · intro hpend
    exact if_neg (by rw [hpend]; nofun)

/-! ## A frame, field by field -/

/-- The bytes of a payload fill `buf` from `idx` on, and the last one leads to the CRC (R118, R119). -/
theorem execAll_payload {m : Message} {s : State} (hval : s.dec.val = 0) (hbits : s.dec.bitCnt = 0)
    (hstate : s.dec.state = if m = [] then .readingCrc else .readingPayload)
    (hlen : s.dec.idx.toNat + m.length = s.dec.lenR.toNat) :
    execAll (m.map (.payloadByte .rx)) s = .next (s.setDec { nextField .readingCrc s.dec with
      idx := s.dec.lenR, buf := s.dec.buf.putAll s.dec.idx.toNat m }) := by
  induction m generalizing s with
  | nil =>
    have hidx : s.dec.idx = s.dec.lenR := BitVec.eq_of_toNat_eq hlen
    have hcrc : s.dec.state = .readingCrc := hstate
    have hkept : nextField .readingCrc s.dec = s.dec := by rw [nextField, ← hval, ← hbits, ← hcrc]
    rw [hkept, ← hidx]
    rfl
  | cons b m ih =>
    rw [List.length_cons] at hlen
    have hfull := s.dec.lenR.isLt
    have hsucc : (s.dec.idx + 1).toNat = s.dec.idx.toNat + 1 := by bv_omega
    have hlast : s.dec.idx.toNat + 1 = s.dec.lenR.toNat ↔ m = [] := by
      rw [← List.length_eq_zero_iff]; omega
    rw [List.map_cons, execAll, exec_payloadByte_rx hstate (by omega), andThen_next,
      ih rfl rfl (if_congr hlast rfl rfl)]
    · simp only [State.setDec_dec, State.setDec_setDec, hsucc]
      rfl
    · show (s.dec.idx + 1).toNat + m.length = s.dec.lenR.toNat
      omega

/-- The decoder where the CRC of a frame begins (R115 to R119). -/
def afterPayload (typ : Byte) (m : Message) (s : State) : State :=
  s.setDec { nextField .readingCrc s.dec with
    typeR := typ, lenR := BitVec.ofNat 8 m.length, idx := BitVec.ofNat 8 m.length, buf := s.dec.buf.putAll 0 m }

theorem afterPayload_holds {m : Message} (hm : m.length ≤ 255) (typ : Byte) (s : State) :
    (afterPayload typ m s).dec.buf.Holds (afterPayload typ m s).dec.lenR m :=
  Memory.holds_putAll s.dec.buf hm

/-- The bytes of a frame up to its payload, received where the start flag is awaited (R115 to R119). -/
theorem execAll_upToPayload {m : Message} (hm : m.length ≤ 255) (typ : Byte) (s : State) :
    execAll ([.startFlag .rx Config.startFlag, .typeFlags .rx typ, .lengthByte .rx (BitVec.ofNat 8 m.length)] ++
      m.map (.payloadByte .rx)) s = .next (afterPayload typ m s) := by
  have hzero : BitVec.ofNat 8 m.length = 0 ↔ m = [] := by
    rw [← List.length_eq_zero_iff]; bv_omega
  rw [execAll_append, execAll, exec_startFlag_rx_match, andThen_next, execAll, exec_typeFlags_rx, andThen_next,
    execAll_singleton, exec_lengthByte_rx, andThen_next, execAll_payload rfl rfl (if_congr hzero rfl rfl)]
  · rfl
  · exact (Nat.zero_add _).trans (afterPayload_holds hm typ s).length.symm

/-- Settles O42: the payload is in `buf` when its CRC is compared, so the field matches and the end flag delivers it. -/
theorem receivedFrameDeliversMessage : Obligations.ReceivedFrameDeliversMessage := by
  unfold Obligations.ReceivedFrameDeliversMessage
  intro s typ m _ hm
  have hholds := afterPayload_holds hm typ s
  let crc := crc16 s.par (typ :: BitVec.ofNat 8 m.length :: m)
  have hsplit : receptions s.par typ m =
      ([.startFlag .rx Config.startFlag, .typeFlags .rx typ, .lengthByte .rx (BitVec.ofNat 8 m.length)] ++
        m.map (.payloadByte .rx)) ++
      ([.crcHi .rx (hiByte crc), .crcLo .rx (loByte crc)] ++ [.endFlag .rx Config.endFlag]) := List.append_assoc ..
  have hcrc : execAll [.crcHi .rx (hiByte crc), .crcLo .rx (loByte crc)] (afterPayload typ m s) =
      .next ((afterPayload typ m s).setDec (nextField .awaitingEnd (afterPayload typ m s).dec)) :=
    execAll_crc_match (by rw [hiByte_append_loByte, hholds.message]; rfl)
  obtain ⟨t, ht, hdec, -⟩ := (endFlagDelivers ((afterPayload typ m s).setDec (nextField .awaitingEnd
    (afterPayload typ m s).dec)) Config.endFlag).1 rfl
  refine ⟨t, ?_, by rw [rxValid, hdec]; rfl, Memory.Holds.message (by rw [hdec]; exact hholds),
    by rw [rxLen, hdec]; exact hholds.length, by rw [rxStatus, hdec], by rw [hdec]⟩
  rw [hsplit, execAll_append, execAll_upToPayload hm, andThen_next, execAll_append, hcrc, andThen_next,
    execAll_singleton, ht]

/-- Settles O43: the CRC sent is that of the other payload, which differs in one byte, so the field does not match. -/
theorem corruptedPayloadAborts : Obligations.CorruptedPayloadAborts := by
  unfold Obligations.CorruptedPayloadAborts
  intro s typ v m i _ hpend hm hi hv hpoly n crc
  have hset : (m.set i v).length = m.length := List.length_set
  have hm' : (m.set i v).length ≤ 255 := hset.trans_le hm
  have hother : crc16 s.par (typ :: n :: m.set i v) ≠ crc :=
    crcDetectsOneByte s.par (typ :: n :: m) (i + 2) v hpoly (by simpa using hi) (by simpa using hv)
  obtain ⟨t, ht, hdec, -⟩ := execAll_crc_mismatch (hi := hiByte crc) (lo := loByte crc)
    (s := afterPayload typ (m.set i v) s) (by
      rw [hiByte_append_loByte, (afterPayload_holds hm' typ s).message, afterPayload, hset]
      exact hother.symm)
  have hrun := execAll_upToPayload hm' typ s
  rw [hset] at hrun
  refine ⟨t, ?_, ?_⟩
  · rw [execAll_append]
    exact (congrArg (andThen · _) hrun).trans ht
  · rw [rxStatus, rxValid, hdec]
    exact ⟨rfl, hpend, rfl⟩

end Sys2Proof.Machine
end

section
/-! PROOFS. The order of the decoder's fields (42_frame_decoder.md R114, R125): what one clock step can do to the
registers of an attempt, in `AwaitingPreamble` by the CRU and in the other states by a sample. -/

namespace Sys2Proof.Machine

/-! ## The Message under way -/

theorem step_epoch {inp : PortInputs} {s t : State} (hr : inp.rst = false) (h : step (s.withInputs [inp]) = .next t) :
    t.epoch = s.epoch := by
  rw [step_withInputs] at h
  obtain ⟨u, hu, hut⟩ := clockStep_cases hr h
  obtain ⟨-, -, -, -, -, hepoch⟩ := rxSide_frame hut
  rw [hepoch, txSide_onlyEnc hu]
  rfl

theorem message_congr {s t : State} (hlen : t.dec.lenR = s.dec.lenR) (hbuf : t.dec.buf = s.dec.buf)
    (hepoch : t.epoch = s.epoch) : message t = message s := by
  rw [message, message, bufBytes, bufBytes, readBuf_congr hbuf hepoch, hlen]

/-- The CRC that the CRC field is compared with (R120). -/
def expectedCrc (s : State) : Word16 := crc16 s.par (s.dec.typeR :: s.dec.lenR :: message s)

/-! ## One step of an attempt -/

/-- The step is the eighth edge of a preamble (R94, R98). -/
def EighthEdge (level : Bool) (s : State) : Prop :=
  s.cru.armed = true ∧ level ≠ s.cru.rxPrev ∧ 7 ≤ s.cru.edgeCnt.toNat

/-- A step from `d` to `d'` enters a decoder state only from the one before it in the frame and on its match, and writes
the type, the length and the payload in their own fields (R114, R125). `edge` says that the step is the eighth edge;
`v` and `c` are the value and the number of the field's bits at a sample, and `crc` is the CRC expected. -/
structure AdvancesOnMatch (edge : Prop) (v crc : Word16) (c : Nat) (d d' : Dec) : Prop where
  start : d'.state = .awaitingStart → d.state ≠ .awaitingStart → d.state = .awaitingPreamble ∧ edge
  headerType : d'.state = .readingHeaderType → d.state ≠ .readingHeaderType →
    d.state = .awaitingStart ∧ 8 ≤ c ∧ loByte v = 0x7E
  headerLength : d'.state = .readingHeaderLength → d.state ≠ .readingHeaderLength →
    d.state = .readingHeaderType ∧ 8 ≤ c ∧ d'.typeR = loByte v
  payload : d'.state = .readingPayload → d.state ≠ .readingPayload →
    d.state = .readingHeaderLength ∧ 8 ≤ c ∧ d'.lenR = loByte v ∧ loByte v ≠ 0 ∧ d'.idx = 0
  crcField : d'.state = .readingCrc → d.state ≠ .readingCrc → 8 ≤ c ∧
    (d.state = .readingHeaderLength ∧ d'.lenR = loByte v ∧ loByte v = 0 ∨
      d.state = .readingPayload ∧ d.idx.toNat + 1 = d.lenR.toNat)
  endFlag : d'.state = .awaitingEnd → d.state ≠ .awaitingEnd → d.state = .readingCrc ∧ 16 ≤ c ∧ v = crc
  delivers : d'.deliverPend = true → d.deliverPend = false →
    d.state = .awaitingEnd ∧ 8 ≤ c ∧ loByte v = 0x7E ∧ d'.rxStat = 1
  typeKept : d.state ≠ .readingHeaderType → d'.typeR = d.typeR
  lenKept : d.state ≠ .readingHeaderLength → d'.lenR = d.lenR
  bufKept : d.state ≠ .readingPayload → d'.buf = d.buf

section
variable {edge : Prop} {v crc : Word16} {c : Nat} {d d' : Dec}

/-- A step that stays in its field or drops the attempt enters no other field, so it needs no match. -/
theorem AdvancesOnMatch.of_stays (hstate : d'.state = d.state ∨ d'.state = .awaitingPreamble)
    (hpend : d'.deliverPend = true → d.deliverPend = true) (htype : d'.typeR = d.typeR) (hlen : d'.lenR = d.lenR)
    (hbuf : d'.buf = d.buf) : AdvancesOnMatch edge v crc c d d' := by
  have hnone {x : DecState} {P : Prop} (hx : x ≠ .awaitingPreamble) (h' : d'.state = x) (h : d.state ≠ x) : P := by
    rcases hstate with hs | hs
    · exact absurd (hs ▸ h') h
    · exact absurd (h'.symm.trans hs) hx
  exact {
    start := hnone nofun
    headerType := hnone nofun
    headerLength := hnone nofun
    payload := hnone nofun
    crcField := hnone nofun
    endFlag := hnone nofun
    delivers := fun h' h => absurd (hpend h') (by simp [h])
    typeKept := fun _ => htype
    lenKept := fun _ => hlen
    bufKept := fun _ => hbuf }

/-- The sampling clock and the status code have no part in it, nor has a RECEIVE, which only drops `deliver_pend`. -/
theorem AdvancesOnMatch.of_setPort {wait : Nat} {stat : BitVec 3} {pend : Bool}
    (h : AdvancesOnMatch edge v crc c { d with wait := wait, rxStat := stat, deliverPend := pend } d')
    (hpend : d.deliverPend = false → pend = false) : AdvancesOnMatch edge v crc c d d' :=
  { h with delivers := fun h' hnone => h.delivers h' (hpend hnone) }

/-- An abort only drops the attempt (R122). -/
theorem raiseError_advancesOnMatch (e : DecError) (s : State) :
    AdvancesOnMatch edge v crc c s.dec (raiseError e s).dec := by
  rw [raiseError, terminal_dec]
  exact .of_stays (.inr rfl) id rfl rfl rfl

/-- A sample goes on in its field, aborts, or completes the field on its match (R113, R115 to R121). -/
theorem stateRule_advancesOnMatch {s t : State} (h : stateRule v c s = .next t) :
    AdvancesOnMatch edge v (expectedCrc s) c s.dec t.dec := by
  rcases stateRule_cases h with ⟨-, rfl⟩ | ⟨-, -, rfl⟩ | ⟨hs, hc, ⟨hv, rfl⟩ | ⟨-, rfl⟩⟩ | ⟨hs, hc, rfl⟩ |
    ⟨hs, hc, rfl⟩ | ⟨hs, hc, -, rfl⟩ | ⟨hs, hc, ⟨hv, rfl⟩ | ⟨-, rfl⟩⟩ | ⟨hs, hc, ⟨hv, rfl⟩ | ⟨-, rfl⟩⟩
  · exact .of_stays (.inl rfl) id rfl rfl rfl
  · exact .of_stays (.inl rfl) id rfl rfl rfl
  · constructor <;> simp [nextField, hs, hc, hv]
  · exact raiseError_advancesOnMatch ..
  · constructor <;> simp [nextField, hs, hc]
  · split
    · next hzero => constructor <;> simp [nextField, hs, hc, hzero]
    · next hmore =>
      have hmore : loByte v ≠ 0#8 := hmore
      constructor <;> simp [nextField, hs, hc, hmore]
  · split
    · next hlast => constructor <;> simp [nextField, hs, hc, hlast]
    · constructor <;> simp [nextField, hs]
  · constructor <;> simp [nextField, hs, hc, hv, expectedCrc]
  · exact raiseError_advancesOnMatch ..
  · rw [terminal_dec]
    constructor <;> simp [hs, hc, hv, rxOk]
  · exact raiseError_advancesOnMatch ..

/-- The DEC step advances by a sample only (R111). -/
theorem readLevel_advancesOnMatch {b : Bool} {s t : State} (h : readLevel b s = .next t) :
    AdvancesOnMatch edge (shiftIn s.dec.val b) (expectedCrc s) (s.dec.bitCnt.toNat + 1) s.dec t.dec := by
  rcases readLevel_cases h with ⟨-, rfl⟩ | ⟨-, -, rfl⟩ | ⟨-, -, h⟩
  · exact .of_stays (.inl rfl) id rfl rfl rfl
  · exact .of_stays (.inl rfl) id rfl rfl rfl
  · have hsample := stateRule_advancesOnMatch (edge := edge) h
    exact hsample.of_setPort id

/-- The CRU starts an attempt at the eighth edge only (R94, R98). -/
theorem cruStep_advancesOnMatch {e : Bool} {s : State}
    (hedge : s.cru.armed = true → e = true → 7 ≤ s.cru.edgeCnt.toNat → edge) (hs : s.dec.state = .awaitingPreamble) :
    AdvancesOnMatch edge v crc c s.dec (cruStep e s).dec := by
  have hkept : AdvancesOnMatch edge v crc c s.dec s.dec := .of_stays (.inl rfl) id rfl rfl rfl
  unfold cruStep
  split
  · next harmed =>
    split
    · next he =>
      rcases countEdge_cases s with ⟨-, h⟩ | ⟨-, -, h⟩ | ⟨h7, h⟩ <;> rw [h]
      · exact hkept
      · exact hkept
      · constructor <;> simp [eighth, hs, hedge harmed he h7]
    · rw [countQuiet_dec]
      exact hkept
  · rw [quietStep_dec]
    exact hkept

end

/-- While a preamble is awaited the CRU alone can start an attempt, and in an attempt the DEC step alone can advance
it. -/
theorem step_advancesOnMatch {inp : PortInputs} {s t : State} (hr : inp.rst = false)
    (h : step (s.withInputs [inp]) = .next t) :
    AdvancesOnMatch (EighthEdge inp.rxIn s) (shiftIn s.dec.val inp.rxIn) (expectedCrc s) (s.dec.bitCnt.toNat + 1)
      s.dec t.dec := by
  by_cases hs : s.dec.state = .awaitingPreamble
  · obtain ⟨u, -, hcru, hdec, rfl⟩ := step_awaiting hr hs h
    have hedge : u.cru.armed = true → (inp.rxIn != s.cru.rxPrev) = true → 7 ≤ u.cru.edgeCnt.toNat →
        EighthEdge inp.rxIn s := by
      rw [hcru]
      exact fun harmed he h7 => ⟨harmed, bne_iff_ne.mp he, h7⟩
    have hu := cruStep_advancesOnMatch (v := shiftIn s.dec.val inp.rxIn) (crc := expectedCrc s)
      (c := s.dec.bitCnt.toNat + 1) hedge (by rw [hdec]; exact hs)
    rw [hdec] at hu
    exact hu.of_setPort fun hnone => by rw [hnone]; rfl
  · obtain ⟨u, hpar, hdec, hu⟩ := step_reading hr hs h
    have hepoch : u.epoch = s.epoch := by
      rw [← step_epoch hr h, readLevel_onlyRx hu]
      rfl
    have hcrc : expectedCrc u = expectedCrc s := by
      rw [expectedCrc, message_congr (by rw [hdec]) (by rw [hdec]) hepoch, hpar, hdec, expectedCrc]
    have hread := readLevel_advancesOnMatch (edge := EighthEdge inp.rxIn s) hu
    rw [hcrc, hdec] at hread
    exact hread.of_setPort id

/-- Settles O47: clause by clause, from what a step can do to the attempt. -/
theorem decoderAdvancesOnlyOnMatch : Obligations.DecoderAdvancesOnlyOnMatch := by
  unfold Obligations.DecoderAdvancesOnlyOnMatch
  intro s t inp hr h v c
  obtain ⟨hstart, htype, hlen, hpayload, hcrc, hend, hdelivers, htypeKept, hlenKept, hbufKept⟩ :=
    step_advancesOnMatch hr h
  exact ⟨hstart, htype, hlen, hpayload, hcrc, hend, hdelivers, htypeKept, hlenKept, hbufKept⟩

end Sys2Proof.Machine
end

section
/-! PROOFS. The frame encoder (43_frame_encoder.md): SEND accepted and rejected, the serializer's step branch by branch,
and the gap. -/

namespace Sys2Proof.Machine

/-! ## SEND -/

/-- Settles O15: the frame is its header, the Message and three more bytes. -/
theorem frameOfMessage : Obligations.FrameOfMessage := by
  unfold Obligations.FrameOfMessage
  intro p m _
  have hhead : ([Config.preamble, Config.startFlag, Config.typeTx, BitVec.ofNat 8 m.length] ++ m).length =
      m.length + 4 := by
    rw [List.length_append, Nat.add_comm]
    rfl
  exact ⟨length_frame p m, rfl, List.take_left, _, _, List.drop_left' hhead, hiByte_append_loByte _⟩

/-- In `IDLE` a SEND of at most `MAX_MSG_LEN` bytes is an ACCEPT (R132). -/
theorem exec_send_of_le {s : State} (hs : s.enc.state = .idle) {len : Byte} {m : Message}
    (hlen : m.length = len.toNat) (hfits : len.toNat ≤ Config.maxMsgLen) :
    exec (.send len m) s = .next (accept m s) := by
  have hsend : exec (.send len m) s = .next (accept (m.take len.toNat) s) := (if_pos hs).trans (if_pos hfits)
  rw [hsend, ← hlen, List.take_length]

/-- In `IDLE` a longer one is a REJECT (R133). -/
theorem exec_send_of_gt {s : State} (hs : s.enc.state = .idle) {len : Byte} (m : Message)
    (hlen : Config.maxMsgLen < len.toNat) : exec (.send len m) s = .next (reject s) :=
  (if_pos hs).trans (if_neg (Nat.not_le.mpr hlen))

theorem exec_send_of_busy {s : State} (hs : s.enc.state ≠ .idle) (len : Byte) (data : List Byte) :
    exec (.send len data) s = .next s :=
  if_neg hs

/-- ACCEPT writes the frame over the bytes of `fbuf` it has, and leaves the others as they were (R132). -/
theorem accept_fbuf_get? (m : Message) (s : State) (i : Nat) :
    (accept m s).enc.fbuf.get? i = if i < m.length + 7 then (frame s.par m)[i]? else s.enc.fbuf.get? i := by
  have hput : (accept m s).enc.fbuf = s.enc.fbuf.putAll 0 (frame s.par m) := rfl
  simp only [hput, Memory.get?_putAll, length_frame, Nat.zero_le, true_and, Nat.zero_add, Nat.sub_zero]

/-- The length of every frame the encoder accepts fits `flen` (R36). -/
theorem accept_flen {m : Message} (hm : m.length ≤ Config.maxMsgLen) (s : State) :
    (accept m s).enc.flen.toNat = m.length + 7 := by
  have hm' : m.length ≤ 80 := hm
  exact Nat.mod_eq_of_lt (by omega)

/-- Settles O14: the frame is written from index 0, and its first byte is begun with the low half of a 0. -/
theorem sendAcceptsMessage : Obligations.SendAcceptsMessage := by
  unfold Obligations.SendAcceptsMessage
  intro s len m hs hlen hfits
  have hget := accept_fbuf_get? m s
  have hflen := accept_flen (hlen ▸ hfits) s
  rw [hlen] at hget hflen
  exact ⟨accept m s, exec_send_of_le hs hlen hfits, hget, hflen, rfl⟩

/-- Settles O16: past the limit the Message is not looked at. -/
theorem sendRejectsLongMessage : Obligations.SendRejectsLongMessage := by
  unfold Obligations.SendRejectsLongMessage
  intro s len m hs hlen
  exact exec_send_of_gt hs m hlen

/-- Settles O17: outside `IDLE` the serializer or the gap has the step, and neither looks at a port. -/
theorem noSendWhileBusy : Obligations.NoSendWhileBusy := by
  unfold Obligations.NoSendWhileBusy
  refine fun s => ⟨beq_iff_eq, fun hs => ⟨exec_send_of_busy hs, fun inp inp' => ?_⟩⟩
  cases hstate : s.enc.state with
  | idle => exact absurd hstate hs
  | send => rw [txSide_send hstate, txSide_send hstate]
  | gap => rw [txSide_gap hstate, txSide_gap hstate]

/-! ## The serializer -/

theorem exec_symbolOf_tx (b : Bool) (s : State) : exec (symbolOf .tx b) s = serialize b s := by
  cases b <;> rfl

section
variable {s : State} (hs : s.enc.state = .send) (b : Bool)
include hs

theorem serialize_of_held (hcnt : 1 < s.enc.hcnt) :
    serialize b s = .next (s.setEnc { s.enc with hcnt := s.enc.hcnt - 1 }) := by
  rw [serialize, if_pos hs, if_pos hcnt]

theorem serialize_of_firstHalf (hcnt : s.enc.hcnt ≤ 1) (hhf : s.enc.hf = false) :
    serialize b s = .next (s.setEnc { s.enc with hcnt := s.par.txHalf, hf := true, txLine := !b }) := by
  rw [serialize, if_pos hs, if_neg (Nat.not_lt.mpr hcnt), if_pos hhf]

theorem serialize_of_secondHalf (hcnt : s.enc.hcnt ≤ 1) (hhf : s.enc.hf = true) : serialize b s = endCell s := by
  rw [serialize, if_pos hs, if_neg (Nat.not_lt.mpr hcnt), if_neg (by simp [hhf])]

end

theorem serialize_of_not_send {s : State} (hs : s.enc.state ≠ .send) (b : Bool) : serialize b s = .next s :=
  if_neg hs

section
variable {s : State} {w : Byte}

theorem endCell_of_nextBit (hbit : s.enc.bitn.toNat < 7) (hw : readFbuf s s.enc.pos.toNat = some w) :
    endCell s = .next (s.setEnc { s.enc with
      hcnt := s.par.txHalf, bitn := s.enc.bitn + 1, hf := false, txLine := streamBit w (s.enc.bitn.toNat + 1) }) := by
  simp only [endCell, if_pos hbit, hw]

theorem endCell_of_nextByte (hbit : s.enc.bitn.toNat = 7) (hpos : s.enc.pos.toNat + 1 < s.enc.flen.toNat)
    (hw : readFbuf s (s.enc.pos.toNat + 1) = some w) : endCell s = .next (beginByte (s.enc.pos + 1) w s) := by
  simp only [endCell, hbit, Nat.lt_irrefl, if_false, if_pos hpos, hw]
  exact beginField_eq w s (fieldAt_succ_ne_preamble _ _)

theorem endCell_of_lastByte (hbit : s.enc.bitn.toNat = 7) (hpos : s.enc.flen.toNat ≤ s.enc.pos.toNat + 1) :
    endCell s = .next (endFrame s) := by
  simp only [endCell, hbit, Nat.lt_irrefl, if_false, if_neg (Nat.not_lt.mpr hpos)]

end

theorem endFrame_of_gap {s : State} (h : 0 < s.par.txGap) : endFrame s =
    s.setEnc { s.enc with hcnt := s.par.txHalf, txLine := false, gcnt := s.par.txGap, state := .gap } :=
  if_pos h

theorem endFrame_of_no_gap {s : State} (h : s.par.txGap = 0) : endFrame s =
    s.setEnc { s.enc with hcnt := s.par.txHalf, txLine := false, state := .idle } :=
  if_neg (by omega)

theorem readFbuf_of_get? {s : State} {i : Nat} {w : Byte} (hi : i < Config.txBufLen)
    (hw : s.enc.fbuf.get? i = some w) : readFbuf s i = some w := by
  rw [readFbuf, if_pos hi, hw, Option.getD_some]

/-- Settles O18: the branches of the serializer, each by its own equation. -/
theorem serializerStep : Obligations.SerializerStep := by
  unfold Obligations.SerializerStep
  intro s b hs go
  have hgo : go = serialize b s := exec_symbolOf_tx b s
  rw [hgo]
  refine ⟨serialize_of_held hs b, serialize_of_firstHalf hs b, fun hcnt hhf => ?_⟩
  rw [serialize_of_secondHalf hs b hcnt hhf]
  refine ⟨fun w hbit hpos hw => ?nextBit, fun w hbit hnext hpos hw => ?nextByte, fun hbit hlast => ?lastByte⟩
  case nextBit =>
    rw [endCell_of_nextBit hbit (readFbuf_of_get? hpos hw), streamBit,
      show 7 - (s.enc.bitn.toNat + 1) = 6 - s.enc.bitn.toNat by omega]
    rfl
  case nextByte =>
    rw [endCell_of_nextByte hbit hnext (readFbuf_of_get? hpos hw)]
    rfl
  case lastByte =>
    rw [endCell_of_lastByte hbit hlast]
    exact ⟨fun h => congrArg Host.Outcome.next (endFrame_of_gap h),
      fun h => congrArg Host.Outcome.next (endFrame_of_no_gap h)⟩

theorem readFbuf_isSome {i : Nat} (s : State) (hi : i < Config.txBufLen) : ∃ w, readFbuf s i = some w :=
  ⟨_, if_pos hi⟩

theorem Sending.flen_le {s : State} (h : Sending s) : s.enc.flen.toNat ≤ Config.txBufLen := by
  obtain ⟨m, hm, hflen, -⟩ := h
  rw [hflen]
  exact Nat.add_le_add_right hm 7

/-- While a frame is sent the serializer finds the byte it goes on with in `fbuf` (R132, R135). -/
theorem Sending.endCell_completes {s : State} (h : Sending s) : ∃ t, endCell s = .next t := by
  have hflen := h.flen_le
  have hbits := s.enc.bitn.isLt
  by_cases hbit : s.enc.bitn.toNat < 7
  · obtain ⟨w, hw⟩ := readFbuf_isSome s (h.pos_lt.trans_le hflen)
    exact ⟨_, endCell_of_nextBit hbit hw⟩
  · have hbit7 : s.enc.bitn.toNat = 7 := by omega
    by_cases hnext : s.enc.pos.toNat + 1 < s.enc.flen.toNat
    · obtain ⟨w, hw⟩ := readFbuf_isSome s (hnext.trans_le hflen)
      exact ⟨_, endCell_of_nextByte hbit7 hnext hw⟩
    · exact ⟨_, endCell_of_lastByte hbit7 (Nat.not_lt.mp hnext)⟩

theorem serialize_completes {s : State} (h : EncInv s) (b : Bool) : ∃ t, serialize b s = .next t := by
  by_cases hs : s.enc.state = .send
  · by_cases hcnt : 1 < s.enc.hcnt
    · exact ⟨_, serialize_of_held hs b hcnt⟩
    · have hcnt' := Nat.not_lt.mp hcnt
      cases hhf : s.enc.hf with
      | false => exact ⟨_, serialize_of_firstHalf hs b hcnt' hhf⟩
      | true =>
        rw [serialize_of_secondHalf hs b hcnt' hhf]
        exact (h.sending hs).endCell_completes
  · exact ⟨s, serialize_of_not_send hs b⟩

/-- Settles O19: only a read past `fbuf` could stop the serializer, and in `SEND` the frame lies within it. -/
theorem symbolsCompleteOnTransmission : Obligations.SymbolsCompleteOnTransmission := by
  unfold Obligations.SymbolsCompleteOnTransmission
  intro s b hinv
  obtain ⟨t, ht⟩ := serialize_completes hinv.enc b
  exact ⟨t, (exec_symbolOf_tx b s).trans ht, serialize_onlyEnc ht⟩

/-- Settles O20: each field's operation begins its byte. -/
theorem fieldsBeginOnTransmission : Obligations.FieldsBeginOnTransmission := by
  unfold Obligations.FieldsBeginOnTransmission
  refine fun s v => ⟨rfl, ?_⟩
  simp only [List.forall_mem_cons, List.not_mem_nil, false_imp_iff, implies_true, and_true]
  exact ⟨rfl, rfl, rfl, rfl, rfl, rfl, rfl⟩

/-! ## The gap -/

theorem gapStep_of_gt {s : State} (h : 1 < s.enc.gcnt) :
    gapStep s = s.setEnc { s.enc with gcnt := s.enc.gcnt - 1 } :=
  if_pos h

theorem gapStep_of_le {s : State} (h : s.enc.gcnt ≤ 1) : gapStep s = s.setEnc { s.enc with state := .idle } :=
  if_neg (Nat.not_lt.mpr h)

/-- Settles O21: the gap's step, on the default write of `tx_stat`. -/
theorem gapCountsDown : Obligations.GapCountsDown := by
  unfold Obligations.GapCountsDown
  intro s inp hs
  rw [txSide_gap hs]
  exact ⟨fun h => congrArg Host.Outcome.next (gapStep_of_gt (s := txBegin s) h),
    fun h => congrArg Host.Outcome.next (gapStep_of_le (s := txBegin s) h)⟩

end Sys2Proof.Machine
end

section
/-! PROOFS. A frame on the line (43_frame_encoder.md R137): the step number says which half of which bit is on the line,
and how much of the gap is left; every step of the transmit side keeps that, so it holds over a run. -/

namespace Sys2Proof.Machine

/-! ## The half-level stream -/

/-- Where the blocks a list is mapped to have one length, the place of an element says where its block stands. -/
theorem getElem?_flatMap_of_length {α β : Type} {f : α → List β} {n : Nat} (hf : ∀ a, (f a).length = n)
    {l : List α} {i j : Nat} {a : α} (ha : l[i]? = some a) (hj : j < n) : (l.flatMap f)[n * i + j]? = (f a)[j]? := by
  induction l generalizing i with
  | nil => simp at ha
  | cons x l ih =>
    rw [List.flatMap_cons]
    cases i with
    | zero =>
      obtain rfl : x = a := by simpa using ha
      rw [Nat.mul_zero, Nat.zero_add, List.getElem?_append_left (by rw [hf]; exact hj)]
    | succ i =>
      have hindex : n * (i + 1) + j = (f x).length + (n * i + j) := by rw [hf, Nat.mul_succ]; omega
      rw [hindex, List.getElem?_append_right (Nat.le_add_right ..), Nat.add_sub_cancel_left]
      exact ih ha

/-- The half of a frame that is on the line: its place in the half-level stream (R66, R79). -/
def halfIndex (e : Enc) : Nat := 2 * (8 * e.pos.toNat + e.bitn.toNat) + e.hf.toNat

/-- The stream holds, at that place, the bit's level in the first half and its complement in the second (R66). -/
theorem getElem?_halfLevels {bs : List Byte} {e : Enc} {w : Byte} (hw : bs[e.pos.toNat]? = some w) :
    (halfLevels bs)[halfIndex e]? = some (streamBit w e.bitn.toNat ^^ e.hf) := by
  have hbit : (bs.flatMap byteBits)[8 * e.pos.toNat + e.bitn.toNat]? = some (streamBit w e.bitn.toNat) := by
    rw [getElem?_flatMap_of_length length_byteBits hw e.bitn.isLt, byteBits, List.getElem?_map,
      List.getElem?_range e.bitn.isLt, Option.map_some]
  rw [halfLevels, halfIndex, getElem?_flatMap_of_length (f := halves) (n := 2) (fun _ => rfl) hbit e.hf.toNat_lt]
  cases e.hf <;> simp [halves]

/-! ## Where the encoder is in a frame -/

/-- The steps a frame is on the line (R137). -/
def frameSteps (p : Params) (m : Message) : Nat := 16 * (m.length + 7) * p.txHalf

/-- The encoder sends the frame of `m`, and `j` steps of it have passed: the halves before the one on the line, and the
steps that one has been held for. -/
structure SendsFrame (p : Params) (m : Message) (j : Nat) (e : Enc) : Prop where
  state : e.state = .send
  flen : e.flen.toNat = m.length + 7
  fbuf : ∀ i < m.length + 7, e.fbuf.get? i = (frame p m)[i]?
  held : e.hcnt ≤ p.txHalf
  time : halfIndex e * p.txHalf + (p.txHalf - e.hcnt) = j

/-- Where the encoder is, `j` steps after the one that accepted `m`, up to the end of the gap (R137). -/
inductive FramePhase (p : Params) (m : Message) (j : Nat) (e : Enc) : Prop
  | sending (h : SendsFrame p m j e)
  | gap (state : e.state = .gap) (after : frameSteps p m ≤ j) (left : 1 ≤ e.gcnt)
      (time : j + e.gcnt = frameSteps p m + p.txGap)
  | idle (state : e.state = .idle) (time : j = frameSteps p m + p.txGap)

theorem Sending.hcnt_pos {s : State} (h : Sending s) : 1 ≤ s.enc.hcnt := by
  obtain ⟨-, -, -, -, -, hcnt, -⟩ := h
  exact hcnt

section
variable {p : Params} {m : Message} {j : Nat} {e : Enc} (h : SendsFrame p m j e)
include h

/-- The last step of a half. -/
theorem SendsFrame.time_succ (hone : e.hcnt = 1) (hhalf : 1 ≤ p.txHalf) : j + 1 = (halfIndex e + 1) * p.txHalf := by
  rw [← h.time, hone, Nat.succ_mul]
  omega

theorem SendsFrame.nextHalf (hone : e.hcnt = 1) (hhalf : 1 ≤ p.txHalf) {pos : BitVec 7} {bitn : BitVec 3}
    {hf line : Bool} (hnext : 2 * (8 * pos.toNat + bitn.toNat) + hf.toNat = halfIndex e + 1) :
    SendsFrame p m (j + 1) { e with pos := pos, bitn := bitn, hf := hf, hcnt := p.txHalf, txLine := line } where
  state := h.state
  flen := h.flen
  fbuf := h.fbuf
  held := le_rfl
  time := by
    rw [h.time_succ hone hhalf, halfIndex, hnext, Nat.sub_self, Nat.add_zero]

/-- The half on the line is the one the step number says (R137). -/
theorem SendsFrame.div_eq (hcnt : 1 ≤ e.hcnt) (hhalf : 1 ≤ p.txHalf) : j / p.txHalf = halfIndex e := by
  rw [← h.time, Nat.mul_comm, Nat.mul_add_div hhalf, Nat.div_eq_of_lt (Nat.sub_lt hhalf hcnt), Nat.add_zero]

theorem SendsFrame.lt_frameSteps (hcnt : 1 ≤ e.hcnt) (hhalf : 1 ≤ p.txHalf) (hpos : e.pos.toNat < e.flen.toNat) :
    j < frameSteps p m := by
  have hflen := h.flen
  have hbitn := e.bitn.isLt
  have hhf := e.hf.toNat_lt
  rw [frameSteps, ← Nat.div_lt_iff_lt_mul hhalf, h.div_eq hcnt hhalf, halfIndex]
  omega

end

/-- While a frame is sent the line carries its half-level stream, each level for `TX_HALF` steps (R70, R137). -/
theorem SendsFrame.txLine_eq {s : State} {m : Message} {j : Nat} (h : SendsFrame s.par m j s.enc) (hinv : TxInv s) :
    (halfLevels (frame s.par m))[j / s.par.txHalf]? = some s.enc.txLine := by
  obtain ⟨hhalf, -⟩ := hinv.par
  have hsend := hinv.sending h.state
  have hpos : s.enc.pos.toNat < m.length + 7 := h.flen ▸ hsend.pos_lt
  rw [h.div_eq hsend.hcnt_pos hhalf]
  obtain ⟨-, -, -, -, -, -, w, hw, hline⟩ := hsend
  rw [hline]
  exact getElem?_halfLevels ((h.fbuf _ hpos).symm.trans hw)

theorem accept_framePhase {m : Message} (hm : m.length ≤ Config.maxMsgLen) (s : State) :
    FramePhase s.par m 0 (accept m s).enc :=
  .sending
    { state := rfl
      flen := accept_flen hm s
      fbuf := fun i hi => by rw [accept_fbuf_get?, if_pos hi]
      held := le_rfl
      time := by simp [halfIndex, accept, beginByte] }

theorem endFrame_framePhase (m : Message) (s : State) : FramePhase s.par m (frameSteps s.par m) (endFrame s).enc := by
  rcases Nat.eq_zero_or_pos s.par.txGap with hgap | hgap
  · rw [endFrame_of_no_gap hgap]
    exact .idle rfl (by rw [hgap]; rfl)
  · rw [endFrame_of_gap hgap]
    exact .gap rfl le_rfl hgap rfl

/-- One step of the serializer is one step of the frame. -/
theorem SendsFrame.serialize {s t : State} {m : Message} {j : Nat} {b : Bool} (h : SendsFrame s.par m j s.enc)
    (hsend : Sending s) (hhalf : 1 ≤ s.par.txHalf) (ht : serialize b s = .next t) :
    FramePhase s.par m (j + 1) t.enc := by
  have hcntPos := hsend.hcnt_pos
  by_cases hcnt : 1 < s.enc.hcnt
  · rw [serialize_of_held h.state b hcnt] at ht
    obtain rfl := by simpa using ht.symm
    have hheld := h.held
    have htime : halfIndex s.enc * s.par.txHalf + (s.par.txHalf - (s.enc.hcnt - 1)) = j + 1 := by
      rw [← h.time]; omega
    exact .sending { h with held := (Nat.sub_le ..).trans hheld, time := htime }
  · have hone : s.enc.hcnt = 1 := by omega
    cases hhf : s.enc.hf with
    | false =>
      rw [serialize_of_firstHalf h.state b hone.le hhf] at ht
      obtain rfl := by simpa using ht.symm
      exact .sending (h.nextHalf hone hhalf (by rw [halfIndex, hhf]; rfl))
    | true =>
      have hindex : halfIndex s.enc = 2 * (8 * s.enc.pos.toNat + s.enc.bitn.toNat) + 1 := by rw [halfIndex, hhf]; rfl
      have hbitn := s.enc.bitn.isLt
      have hpos := hsend.pos_lt
      rw [serialize_of_secondHalf h.state b hone.le hhf] at ht
      rcases endCell_cases ht with ⟨hbit, w, -, rfl⟩ | ⟨hbit, hnext, w, -, rfl⟩ | ⟨hbit, hlast, rfl⟩
      · have hsucc : (s.enc.bitn + 1).toNat = s.enc.bitn.toNat + 1 := by bv_omega
        exact .sending (h.nextHalf hone hhalf (by rw [hindex, hsucc, Bool.toNat_false]; omega))
      · have hsucc : (s.enc.pos + 1).toNat = s.enc.pos.toNat + 1 := by bv_omega
        exact .sending (h.nextHalf hone hhalf (by rw [hindex, hsucc, Bool.toNat_false]; bv_omega))
      · have hflen := h.flen
        have hend : halfIndex s.enc + 1 = 16 * (m.length + 7) := by omega
        rw [h.time_succ hone hhalf, hend]
        exact endFrame_framePhase m s

/-- One step of the transmit side takes the frame and its gap one step on, whatever the TX port carries (R130). -/
theorem txSide_framePhase {inp : PortInputs} {s t : State} {m : Message} {j : Nat} (hinv : TxInv s)
    (h : FramePhase s.par m j s.enc) (hj : j < frameSteps s.par m + s.par.txGap) (ht : txSide inp s = .next t) :
    FramePhase s.par m (j + 1) t.enc := by
  cases h with
  | sending h =>
    obtain ⟨hhalf, -⟩ := hinv.par
    have hsend : Sending (txBegin s) := (txBegin_keeps_txInv hinv).sending h.state
    rw [txSide_send h.state, symbolStep_eq] at ht
    split at ht
    · exact SendsFrame.serialize (s := txBegin s) { h with } hsend hhalf ht
    · simp at ht
  | gap hs hafter hleft htime =>
    rw [txSide_gap hs] at ht
    obtain rfl := by simpa using ht.symm
    by_cases hcnt : 1 < s.enc.gcnt
    · rw [gapStep_of_gt (s := txBegin s) hcnt]
      have htime' : j + 1 + (s.enc.gcnt - 1) = frameSteps s.par m + s.par.txGap := by omega
      exact .gap hs (hafter.trans (Nat.le_succ j)) (Nat.le_sub_one_of_lt hcnt) htime'
    · rw [gapStep_of_le (s := txBegin s) (Nat.not_lt.mp hcnt)]
      exact .idle rfl (by omega)
  | idle _ htime => omega

/-! ## Runs of the transmit side -/

/-- A step without reset is a step of the transmit side: no other unit writes the encoder (R61). -/
theorem step_txSide {inp : PortInputs} {s t : State} (hr : inp.rst = false) (hinv : TxInv s)
    (h : step (s.withInputs [inp]) = .next t) :
    t.par = s.par ∧ TxInv t ∧
      ∃ u v, u.par = s.par ∧ u.enc = s.enc ∧ txSide inp u = .next v ∧ v.enc = t.enc := by
  rw [step_withInputs] at h
  have hpar : t.par = s.par := clockStep_keeps_par (s := consume (s.withInputs [inp])) h
  obtain ⟨u, ⟨v, hv, hvt⟩, hparu, hencu⟩ :
      ∃ u, (∃ v, txSide inp u = .next v ∧ rxSide inp v = .next t) ∧ u.par = s.par ∧ u.enc = s.enc :=
    ⟨_, clockStep_cases hr h, rfl, rfl⟩
  obtain ⟨hparv, -, henc, -⟩ := rxSide_frame hvt
  have hinvv : TxInv v := txSide_keeps_txInv (hinv.congr hparu hencu) hv
  exact ⟨hpar, hinvv.congr hparv henc, u, v, hparu, hencu, hv, henc.symm⟩

/-- A state `j` steps after the one in which a block built with `p` accepted `m`. -/
structure FrameRun (p : Params) (m : Message) (j : Nat) (s : State) : Prop where
  par : s.par = p
  inv : TxInv s
  phase : FramePhase p m j s.enc

theorem FrameRun.step {p : Params} {m : Message} {j : Nat} {inp : PortInputs} {s t : State} (h : FrameRun p m j s)
    (hj : j < frameSteps p m + p.txGap) (hr : inp.rst = false) (hst : step (s.withInputs [inp]) = .next t) :
    FrameRun p m (j + 1) t := by
  obtain ⟨rfl, hinv, hphase⟩ := h
  obtain ⟨hpar, hinvt, u, v, hparu, hencu, huv, hencv⟩ := step_txSide hr hinv hst
  refine ⟨hpar, hinvt, ?_⟩
  rw [← hencv, ← hparu]
  exact txSide_framePhase (hinv.congr hparu hencu) (by rwa [hparu, hencu]) (by rwa [hparu]) huv

theorem FrameRun.steps {p : Params} {m : Message} {j : Nat} {ins : List PortInputs} {s t : State}
    (h : FrameRun p m j s) (hj : j + ins.length ≤ frameSteps p m + p.txGap) (hr : noReset ins)
    (hrun : runWith ins s = .next t) : FrameRun p m (j + ins.length) t := by
  induction ins generalizing s j with
  | nil =>
    obtain rfl := by simpa [runWith] using hrun.symm
    exact h
  | cons inp rest ih =>
    rw [List.length_cons] at hj ⊢
    rw [runWith, andThen_eq_next] at hrun
    obtain ⟨u, hu, hut⟩ := hrun
    obtain ⟨hr1, hrest⟩ := List.forall_mem_cons.mp hr
    rw [← Nat.add_assoc, Nat.add_right_comm]
    exact ih (h.step (by omega) hr1 hu) (by omega) hrest hut

section
variable {p : Params} {m : Message} {j : Nat} {s : State} (h : FrameRun p m j s)
include h

theorem FrameRun.sends (hj : j < frameSteps p m) :
    s.enc.state = .send ∧ (halfLevels (frame p m))[j / p.txHalf]? = some s.enc.txLine := by
  obtain ⟨rfl, hinv, hphase⟩ := h
  cases hphase with
  | sending h => exact ⟨h.state, h.txLine_eq hinv⟩
  | gap _ hafter _ _ => omega
  | idle _ htime => omega

theorem FrameRun.not_sends (hj : frameSteps p m ≤ j) : ¬ SendsFrame p m j s.enc := by
  obtain ⟨rfl, hinv, -⟩ := h
  obtain ⟨hhalf, -⟩ := hinv.par
  intro hsends
  have hsend := hinv.sending hsends.state
  exact Nat.not_lt.mpr hj (hsends.lt_frameSteps hsend.hcnt_pos hhalf hsend.pos_lt)

theorem FrameRun.inGap (hj : frameSteps p m ≤ j) (hlt : j < frameSteps p m + p.txGap) :
    s.enc.state = .gap ∧ s.enc.txLine = false := by
  cases h.phase with
  | sending hsends => exact absurd hsends (h.not_sends hj)
  | gap hs _ _ _ => exact ⟨hs, h.inv.idleLow (by simp [hs])⟩
  | idle _ htime => omega

theorem FrameRun.isIdle (hj : j = frameSteps p m + p.txGap) : s.enc.state = .idle ∧ s.enc.txLine = false := by
  cases h.phase with
  | sending hsends => exact absurd hsends (h.not_sends (by omega))
  | gap _ _ _ htime => omega
  | idle hs _ => exact ⟨hs, h.inv.idleLow (by simp [hs])⟩

end

/-- A host that drives all the bytes of a Message offers that Message. -/
theorem txBytes_of_driven {inp : PortInputs} {m : Message} (hlen : inp.txLen.toNat = m.length) (hdata : inp.txData = m)
    (n : Nat) : txBytes inp n = m := by
  refine List.ext_getElem (by rw [length_txBytes, hlen]) fun i _ hi => ?_
  simp only [txBytes, txByte, List.getElem_map, List.getElem_range, hdata, List.getElem?_eq_getElem hi,
    Option.getD_some]

/-- The step that offers a Message in `IDLE` begins its frame (R132). -/
theorem step_accepts {inp : PortInputs} {s t : State} {m : Message} (hr : inp.rst = false) (hinv : TxInv s)
    (hs : s.enc.state = .idle) (hm : m.length ≤ 80) (hvalid : inp.txValid = true)
    (hlen : inp.txLen = BitVec.ofNat 8 m.length) (hdata : inp.txData = m) (h : step (s.withInputs [inp]) = .next t) :
    FrameRun s.par m 0 t := by
  obtain ⟨hpar, hinvt, u, v, hparu, hencu, huv, hencv⟩ := step_txSide hr hinv h
  have hlen' : m.length = inp.txLen.toNat := by
    rw [hlen]
    exact (Nat.mod_eq_of_lt (by omega)).symm
  have hidle : u.enc.state = .idle := hencu ▸ hs
  have haccept : txSide inp u = .next (accept m (txBegin u)) := by
    rw [txSide_idle hidle, if_pos hvalid, txBytes_of_driven hlen'.symm hdata]
    exact exec_send_of_le (s := txBegin u) hidle hlen' (hlen' ▸ hm)
  obtain rfl : v = accept m (txBegin u) := by simpa [haccept] using huv.symm
  refine ⟨hpar, hinvt, ?_⟩
  rw [← hencv, ← hparu]
  exact accept_framePhase hm (txBegin u)

/-- Settles O22: the step number says which half of the frame is on the line, or how much of the gap is left. -/
theorem frameTimingOnTheLine : Obligations.FrameTimingOnTheLine := by
  unfold Obligations.FrameTimingOnTheLine
  intro s t inp ins m hinv hs hr hm hvalid hlen hdata hrun h fe
  obtain ⟨-, htx⟩ := State.inv_iff.mp hinv
  obtain ⟨hr1, hrest⟩ := List.forall_mem_cons.mp hr
  rw [runWith, andThen_eq_next] at hrun
  obtain ⟨u, hu, hut⟩ := hrun
  have hstart : FrameRun s.par m 0 u := step_accepts hr1 htx hs hm hvalid hlen hdata hu
  have hafter (hle : ins.length ≤ fe + s.par.txGap) : FrameRun s.par m ins.length t := by
    have hrun : FrameRun s.par m (0 + ins.length) t := hstart.steps (by rwa [Nat.zero_add]) hrest hut
    rwa [Nat.zero_add] at hrun
  exact ⟨fun hlt => (hafter (by omega)).sends hlt, fun hle hlt => (hafter hlt.le).inGap hle hlt,
    fun heq => (hafter heq.le).isIdle heq⟩

end Sys2Proof.Machine
end

section
/-! PROOFS. The host beside the block and the link of two blocks (44_host_interface.md). For the link: from every state of
the invariant a step answers (R128, R152), and `rx_prev` then holds the level the line had in it (R93). -/

namespace Sys2Proof.Machine

/-! ## The host's calls -/

section
variable {m : Message} {q : HostQueues}

theorem hostSend_of_gt (hm : 255 < m.length) : hostSend m q = .refused := if_neg (Nat.not_le.mpr hm)

theorem hostSend_of_room (hm : m.length ≤ 255) (hq : q.outQ.length < 16) :
    hostSend m q = .queued { q with outQ := q.outQ ++ [m] } :=
  (if_pos hm).trans (if_pos hq)

theorem hostSend_of_full (hm : m.length ≤ 255) (hq : 16 ≤ q.outQ.length) : hostSend m q = .full :=
  (if_pos hm).trans (if_neg (Nat.not_lt.mpr hq))

theorem hostReceive_of_nil (hq : q.inQ = []) : hostReceive q = none := by
  simp only [hostReceive, hq]

theorem hostReceive_of_cons {rest : List Message} (hq : q.inQ = m :: rest) :
    hostReceive q = some (m, { q with inQ := rest }) := by
  simp only [hostReceive, hq]

end

/-! ## The host's ports in a step -/

theorem txReady_iff (s : State) : txReady s = true ↔ s.enc.state = .idle := beq_iff_eq

section
variable (rst rxIn : Bool) (q : HostQueues) (s : State)

@[simp] theorem hostInputs_rst : (hostInputs rst rxIn q).rst = rst := rfl
@[simp] theorem hostInputs_rxIn : (hostInputs rst rxIn q).rxIn = rxIn := rfl
@[simp] theorem hostInputs_txValid : (hostInputs rst rxIn q).txValid = !q.outQ.isEmpty := rfl
@[simp] theorem hostInputs_rxReady : (hostInputs rst rxIn q).rxReady = decide (q.inQ.length < 16) := rfl

/-- The front of the Outbound Queue leaves exactly when the block is `IDLE` and not reset (R74, R142). -/
theorem queuesAfter_outQ : (queuesAfter (hostInputs rst rxIn q) s q).outQ =
    if rst = false ∧ txReady s = true then q.outQ.tail else q.outQ := by
  obtain ⟨outQ, inQ⟩ := q
  cases outQ with
  | nil => simp [queuesAfter]
  | cons x rest => simp [queuesAfter, sendHappens]

/-- The waiting Message goes to the back of an Inbound Queue that has room (R74, R142). -/
theorem queuesAfter_inQ : (queuesAfter (hostInputs rst rxIn q) s q).inQ =
    if rst = false ∧ rxValid s = true ∧ q.inQ.length < 16 then q.inQ ++ [message s] else q.inQ := by
  simp [queuesAfter, receiveHappens, and_assoc]

theorem queuesAfter_inQ_length_le (hq : q.inQ.length ≤ 16) :
    (queuesAfter (hostInputs rst rxIn q) s q).inQ.length ≤ 16 := by
  rw [queuesAfter_inQ]
  split
  · next hroom =>
    obtain ⟨-, -, hlt⟩ := hroom
    rw [List.length_append]
    exact hlt
  · exact hq

theorem queuesAfter_outQ_length_le (hq : q.outQ.length ≤ 16) :
    (queuesAfter (hostInputs rst rxIn q) s q).outQ.length ≤ 16 := by
  rw [queuesAfter_outQ]
  split
  · rw [List.length_tail]
    exact (Nat.sub_le ..).trans hq
  · exact hq

end

/-- The host offers the front of the Outbound Queue, whole (R141). -/
theorem hostInputs_offers_front (rst rxIn : Bool) {q : HostQueues} {m : Message} {rest : List Message}
    (hq : q.outQ = m :: rest) (hm : m.length ≤ 255) :
    (hostInputs rst rxIn q).txValid = true ∧ (hostInputs rst rxIn q).txLen.toNat = m.length ∧
      ∀ n, txBytes (hostInputs rst rxIn q) n = m := by
  have hdata : (hostInputs rst rxIn q).txData = m := by simp [hostInputs, hq]
  have hlen : (hostInputs rst rxIn q).txLen.toNat = m.length := by
    simp only [hostInputs, hq, List.headD_cons, BitVec.toNat_ofNat]
    omega
  exact ⟨by simp [hq], hlen, txBytes_of_driven hlen hdata⟩

/-- Settles O58: the calls and the ports, each by its own equation. -/
theorem hostQueuesAreBoundedFifos : Obligations.HostQueuesAreBoundedFifos := by
  unfold Obligations.HostQueuesAreBoundedFifos
  refine ⟨fun q m => ⟨hostSend_of_gt, hostSend_of_room, hostSend_of_full, hostReceive_of_nil,
    fun x rest => hostReceive_of_cons⟩, ?_⟩
  intro q s rst rxIn inp r
  refine ⟨queuesAfter_inQ rst rxIn q s, queuesAfter_inQ_length_le rst rxIn q s,
    queuesAfter_outQ_length_le rst rxIn q s, fun hempty => ?nothing, fun x rest hfront hx => ?front⟩
  case nothing => exact ⟨by simp [inp, hempty], by simp [r, inp, queuesAfter_outQ, hempty]⟩
  case front =>
    obtain ⟨hvalid, hlen, hbytes⟩ := hostInputs_offers_front rst rxIn hfront hx
    refine ⟨hvalid, hlen, hbytes, ?_⟩
    rw [queuesAfter_outQ, hfront, List.tail_cons]

/-! ## Every step answers -/

theorem State.Inv.congr {s t : State} (h : s.Inv) (hp : t.par = s.par) (hc : t.cru = s.cru) (hd : t.dec = s.dec)
    (he : t.enc = s.enc) : t.Inv := by
  obtain ⟨hrx, htx⟩ := State.inv_iff.mp h
  exact State.inv_iff.mpr ⟨hrx.congr hp hc hd, htx.congr hp he⟩

/-- Only a payload index past `buf` could stop a sample (R119, log 9). -/
theorem stateRule_completes {s : State} (hidx : s.dec.state = .readingPayload → s.dec.idx.toNat < 255) (v : Word16)
    (c : Nat) : ∃ t, stateRule v c s = .next t := by
  cases hs : s.dec.state <;> simp only [stateRule, hs]
  case awaitingPreamble => exact ⟨s, rfl⟩
  case readingPayload =>
    split
    · exact ⟨_, rfl⟩
    · exact ⟨_, if_pos (hidx hs)⟩
  all_goals
    simp only [execStartFlag, execTypeFlags, execLengthByte, execCrcHi, execCrcLo, execEndFlag]
    split_ifs <;> exact ⟨_, rfl⟩

theorem readLevel_completes {s : State} (hidx : s.dec.state = .readingPayload → s.dec.idx.toNat < 255) (b : Bool) :
    ∃ t, readLevel b s = .next t := by
  unfold readLevel
  split_ifs
  · exact ⟨_, rfl⟩
  · exact ⟨_, rfl⟩
  · exact stateRule_completes (s := s.setDec { s.dec with wait := s.dec.spacing }) hidx _ _

theorem rxSide_completes {s : State} (hidx : s.dec.state = .readingPayload → s.dec.idx.toNat < 255)
    (inp : PortInputs) : ∃ t, rxSide inp s = .next t := by
  by_cases hs : s.dec.state = .awaitingPreamble
  · simp only [rxSide_waiting hs, andThen_eq_next]
    split
    · next hreceive =>
      obtain ⟨hpend, -⟩ := hreceive
      exact ⟨_, _, execReceive_pend hpend, cruSide_next _ _ hs⟩
    · exact ⟨_, _, rfl, cruSide_next _ _ hs⟩
  · rw [rxSide_reading hs]
    exact readLevel_completes (s := rxBegin inp.rxIn s) hidx _

/-- Only a read past `fbuf` could stop the transmit side, and a frame that is sent lies within it (R132). -/
theorem txSide_completes {s : State} (h : TxInv s) (inp : PortInputs) : ∃ t, txSide inp s = .next t := by
  cases hs : s.enc.state with
  | idle =>
    rw [txSide_idle hs]
    split
    · simp only [execSend]
      split_ifs <;> exact ⟨_, rfl⟩
    · exact ⟨_, rfl⟩
  | send =>
    have hsending := h.sending hs
    obtain ⟨w, hw⟩ := readFbuf_isSome (txBegin s) (hsending.pos_lt.trans_le hsending.flen_le)
    rw [txSide_send hs, symbolStep_eq, txBegin_enc, hw]
    exact serialize_completes (txBegin_keeps_txInv h).toEncInv _
  | gap => exact ⟨_, txSide_gap hs⟩

theorem clockStep_completes {s : State} (h : s.Inv) (inp : PortInputs) : ∃ t, clockStep inp s = .next t := by
  cases hr : inp.rst with
  | true => exact ⟨_, clockStep_reset hr⟩
  | false =>
    obtain ⟨-, htx⟩ := State.inv_iff.mp h
    obtain ⟨u, hu⟩ := txSide_completes (s := s.setCrcR (crcNext s.par s.crcR inp.crcOp inp.crcDin))
      (htx.congr rfl rfl) inp
    have hidx : u.dec.state = .readingPayload → u.dec.idx.toNat < 255 := by
      rw [txSide_onlyEnc hu]
      intro hs
      obtain ⟨hlt, -⟩ := h.dec.payload hs
      have hlen := s.dec.lenR.isLt
      exact hlt.trans_le (Nat.le_of_lt_succ hlen)
    obtain ⟨t, ht⟩ := rxSide_completes hidx inp
    exact ⟨t, by simp [clockStep, hr, crcSide_next, hu, ht]⟩

/-- Nothing stops the block (R128, R152). -/
theorem State.Inv.step_completes {s : State} (h : s.Inv) : ∃ t, step s = .next t := by
  exact clockStep_completes (h.congr (t := consume s) rfl rfl rfl rfl) (nextInputs s)

/-! ## `rx_prev` -/

@[simp] theorem terminal_rxPrev (code : BitVec 3) (pend : Bool) (s : State) :
    (terminal code pend s).cru.rxPrev = s.cru.rxPrev := by
  rcases terminal_cru_cases code pend s with ⟨h, -⟩ | ⟨h, -⟩ <;> rw [h]

theorem stateRule_rxPrev {v : Word16} {c : Nat} {s t : State} (h : stateRule v c s = .next t) :
    t.cru.rxPrev = s.cru.rxPrev := by
  rcases stateRule_cases h with ⟨-, rfl⟩ | ⟨-, -, rfl⟩ | ⟨-, -, ⟨-, rfl⟩ | ⟨-, rfl⟩⟩ | ⟨-, -, rfl⟩ | ⟨-, -, rfl⟩ |
    ⟨-, -, -, rfl⟩ | ⟨-, -, ⟨-, rfl⟩ | ⟨-, rfl⟩⟩ | ⟨-, -, ⟨-, rfl⟩ | ⟨-, rfl⟩⟩
  all_goals simp [keepBits, raiseError]

theorem readLevel_rxPrev {b : Bool} {s t : State} (h : readLevel b s = .next t) : t.cru.rxPrev = s.cru.rxPrev := by
  rcases readLevel_cases h with ⟨-, rfl⟩ | ⟨-, -, rfl⟩ | ⟨-, -, hsample⟩
  · rfl
  · rfl
  · exact stateRule_rxPrev (s := s.setDec { s.dec with wait := s.dec.spacing }) hsample

theorem cruStep_rxPrev (e : Bool) (s : State) : (cruStep e s).cru.rxPrev = s.cru.rxPrev := by
  unfold cruStep
  split_ifs
  · rcases countEdge_cases s with ⟨-, h⟩ | ⟨-, -, h⟩ | ⟨-, h⟩ <;> rw [h] <;> rfl
  · unfold countQuiet
    split <;> rfl
  · obtain ⟨q, -, ⟨h, -⟩ | ⟨h, -⟩⟩ := quietStep_cases e s.dec.deliverPend s <;> rw [h] <;> rfl

/-- `rx_prev` takes the level the line has in the step (R93). -/
theorem step_rxPrev {inp : PortInputs} {s t : State} (hr : inp.rst = false)
    (h : step (s.withInputs [inp]) = .next t) : t.cru.rxPrev = inp.rxIn := by
  by_cases hs : s.dec.state = .awaitingPreamble
  · obtain ⟨u, -, hcru, -, rfl⟩ := step_awaiting hr hs h
    rw [cruStep_rxPrev, hcru]
  · obtain ⟨u, -, -, hdec, hut⟩ := step_rxSide hr h
    rw [rxSide_reading (hdec ▸ hs)] at hut
    exact readLevel_rxPrev hut

/-! ## The link -/

/-- A block under given inputs steps on, and has then seen the level of its line. -/
theorem State.Inv.step_withInputs {s : State} (h : s.Inv) (inp : PortInputs) :
    ∃ t, step (s.withInputs [inp]) = .next t ∧ t.Inv ∧ (inp.rst = false → t.cru.rxPrev = inp.rxIn) := by
  have hinv : (s.withInputs [inp]).Inv := h.congr rfl rfl rfl rfl
  obtain ⟨t, ht⟩ := hinv.step_completes
  exact ⟨t, ht, stepKeepsInvariant _ t hinv ht, fun hr => step_rxPrev hr ht⟩

/-- A step of the link is a step of each block under what its host and the other's line drive (R3, R148). -/
theorem Link.step_of_next {rstA rstB : Bool} {l : Link} {a b : State}
    (ha : Machine.step (l.a.withInputs [hostInputs rstA (txOut l.b) l.hostA]) = .next a)
    (hb : Machine.step (l.b.withInputs [hostInputs rstB (txOut l.a) l.hostB]) = .next b) :
    l.step rstA rstB = .next
      { a := a, b := b, hostA := queuesAfter (hostInputs rstA (txOut l.b) l.hostA) l.a l.hostA,
        hostB := queuesAfter (hostInputs rstB (txOut l.a) l.hostB) l.b l.hostB } := by
  simp only [Link.step, ha, hb, bothNext]

/-- Settles O59: each block steps on by itself, under the level of the other's line, and its host's queues follow the
transactions. -/
theorem linkStepsWithinQueues : Obligations.LinkStepsWithinQueues := by
  unfold Obligations.LinkStepsWithinQueues
  intro l rstA rstB hinvA hinvB hqA hqB
  obtain ⟨a, ha, hinvA', hprevA⟩ := hinvA.step_withInputs (hostInputs rstA (txOut l.b) l.hostA)
  obtain ⟨b, hb, hinvB', hprevB⟩ := hinvB.step_withInputs (hostInputs rstB (txOut l.a) l.hostB)
  refine ⟨_, Link.step_of_next ha hb, hinvA', hinvB', queuesAfter_inQ_length_le _ _ _ _ hqA,
    queuesAfter_inQ_length_le _ _ _ _ hqB, hprevA, hprevB, ?_, ?_⟩
  · simp only [queuesAfter_outQ, txReady_iff]
  · simp only [queuesAfter_outQ, txReady_iff]

end Sys2Proof.Machine
end

section
/-! PROOFS. The exceptions (60_exceptions.md): an abort and the state after it, and the cause of the code each status port
carries for one step. -/

namespace Sys2Proof.Machine

/-! ## What cannot stop the block -/

/-- Settles O51: by the units one after the other, each of which answers where the invariant holds. -/
theorem nothingStopsTheBlock : Obligations.NothingStopsTheBlock := by
  unfold Obligations.NothingStopsTheBlock
  exact fun s hinv => hinv.step_completes

/-! ## The abort -/

@[simp] theorem raiseError_dec (e : DecError) (s : State) : (raiseError e s).dec =
    { s.dec with state := .awaitingPreamble, val := 0, bitCnt := 0, rxStat := e.code } :=
  terminal_dec e.code false s

/-- Settles O41: the abort is back in `AwaitingPreamble`, where the DEC step does not run. -/
theorem abortsDoNotNest : Obligations.AbortsDoNotNest := by
  unfold Obligations.AbortsDoNotNest
  intro e s b
  have hstate : (raiseError e s).dec.state = .awaitingPreamble := by rw [raiseError_dec]
  exact ⟨raiseError_endsAttempt e s, (samplingClockCountsDown (raiseError e s) b).2 hstate⟩

/-! ## `rx_status` -/

/-- The code with which an attempt in `d` ends in `d'`, and its cause (R150): `v` is the value of the field whose last bit
was sampled, and `crc` is the CRC expected. -/
def EndsWithCause (v crc : Word16) (d d' : Dec) : Prop :=
  (d'.rxStat = 1 ∧ d.state = .awaitingEnd ∧ loByte v = 0x7E ∧ d'.deliverPend = true) ∨
    (d'.rxStat = 2 ∧ d.state = .awaitingStart ∧ loByte v ≠ 0x7E) ∨
    (d'.rxStat = 3 ∧ d.state = .readingCrc ∧ v ≠ crc) ∨
    (d'.rxStat = 4 ∧ d.state = .awaitingEnd ∧ loByte v ≠ 0x7E)

/-- A sample leaves the code alone, or it ends the attempt with the code of its cause. -/
theorem stateRule_rxStat {v : Word16} {c : Nat} {s t : State} (h : stateRule v c s = .next t) :
    t.dec.rxStat = s.dec.rxStat ∨
      t.dec.state = .awaitingPreamble ∧ EndsWithCause v (expectedCrc s) s.dec t.dec := by
  rcases stateRule_cases h with ⟨-, rfl⟩ | ⟨-, -, rfl⟩ | ⟨hs, -, ⟨-, rfl⟩ | ⟨hv, rfl⟩⟩ | ⟨-, -, rfl⟩ | ⟨-, -, rfl⟩ |
    ⟨-, -, -, rfl⟩ | ⟨hs, -, ⟨-, rfl⟩ | ⟨hv, rfl⟩⟩ | ⟨hs, -, ⟨hv, rfl⟩ | ⟨hv, rfl⟩⟩
  · exact .inl rfl
  · exact .inl rfl
  · exact .inl rfl
  · rw [raiseError_dec]
    exact .inr ⟨rfl, .inr (.inl ⟨rfl, hs, hv⟩)⟩
  · exact .inl rfl
  · exact .inl rfl
  · exact .inl rfl
  · exact .inl rfl
  · rw [raiseError_dec]
    exact .inr ⟨rfl, .inr (.inr (.inl ⟨rfl, hs, hv⟩))⟩
  · rw [terminal_dec]
    exact .inr ⟨rfl, .inl ⟨rfl, hs, hv, rfl⟩⟩
  · rw [raiseError_dec]
    exact .inr ⟨rfl, .inr (.inr (.inr ⟨rfl, hs, hv⟩))⟩

/-- The CRU does not write the code (R61). -/
theorem cruStep_rxStat (e : Bool) (s : State) : (cruStep e s).dec.rxStat = s.dec.rxStat := by
  unfold cruStep
  split_ifs
  · rcases countEdge_cases s with ⟨-, h⟩ | ⟨-, -, h⟩ | ⟨-, h⟩ <;> rw [h] <;> rfl
  · rw [countQuiet_dec]
  · rw [quietStep_dec]

/-- The DEC step of a clock step compares with the CRC that the state before expects: no unit has written the bytes it is
computed from (R61). -/
theorem step_reading_expectedCrc {inp : PortInputs} {s t : State} (hr : inp.rst = false)
    (hs : s.dec.state ≠ .awaitingPreamble) (h : step (s.withInputs [inp]) = .next t) :
    ∃ u, u.dec = { s.dec with rxStat := rxNone } ∧ expectedCrc u = expectedCrc s ∧
      readLevel inp.rxIn u = .next t := by
  obtain ⟨u, hpar, hdec, hu⟩ := step_reading hr hs h
  have hepoch : u.epoch = s.epoch := by
    rw [← step_epoch hr h, readLevel_onlyRx hu]
    rfl
  refine ⟨u, hdec, ?_, hu⟩
  rw [expectedCrc, message_congr (by rw [hdec]) (by rw [hdec]) hepoch, hpar, hdec, expectedCrc]

/-- Settles O56: every step begins by clearing the code, and only a sample that ends the attempt writes it again. -/
theorem rxStatusHasItsCause : Obligations.RxStatusHasItsCause := by
  unfold Obligations.RxStatusHasItsCause
  intro s t inp hr h
  by_cases hs : s.dec.state = .awaitingPreamble
  · obtain ⟨u, -, -, hdec, rfl⟩ := step_awaiting hr hs h
    left
    rw [rxStatus, cruStep_rxStat, hdec]
    rfl
  · obtain ⟨u, hdec, hcrc, hu⟩ := step_reading_expectedCrc hr hs h
    have hnone : u.dec.rxStat = 0 := by rw [hdec]; rfl
    rcases readLevel_cases hu with ⟨-, rfl⟩ | ⟨-, -, rfl⟩ | ⟨-, hwait, hsample⟩
    · exact .inl hnone
    · exact .inl hnone
    · obtain hkept | ⟨hstate, hcause⟩ := stateRule_rxStat hsample
      · exact .inl (hkept.trans hnone)
      · have hcause : EndsWithCause (shiftIn u.dec.val inp.rxIn) (expectedCrc u) u.dec t.dec := hcause
        rw [hcrc, hdec] at hcause
        rw [hdec] at hwait
        exact .inr ⟨hstate, hwait, hcause⟩

/-! ## `tx_status` -/

theorem endFrame_txStat (s : State) : (endFrame s).enc.txStat = s.enc.txStat := by
  unfold endFrame
  split <;> rfl

theorem gapStep_txStat (s : State) : (gapStep s).enc.txStat = s.enc.txStat := by
  unfold gapStep
  split <;> rfl

/-- The serializer does not write the code. -/
theorem serialize_txStat {b : Bool} {s t : State} (h : serialize b s = .next t) : t.enc.txStat = s.enc.txStat := by
  unfold serialize at h
  split_ifs at h
  · obtain rfl := by simpa using h.symm
    rfl
  · obtain rfl := by simpa using h.symm
    rfl
  · rcases endCell_cases h with ⟨-, w, -, rfl⟩ | ⟨-, -, w, -, rfl⟩ | ⟨-, -, rfl⟩
    · rfl
    · rfl
    · exact endFrame_txStat s
  · obtain rfl := by simpa using h.symm
    rfl

/-- What the transmit side's step can do to the code (R129, R132, R133): a SEND in `IDLE` is accepted or rejected, and in
every other step the code is cleared. -/
theorem txSide_cases {inp : PortInputs} {s t : State} (h : txSide inp s = .next t) :
    ((s.enc.state = .idle ∧ inp.txValid = true) ∧ inp.txLen.toNat ≤ 80 ∧
        t = accept (txBytes inp s.stepIx) (txBegin s)) ∨
      ((s.enc.state = .idle ∧ inp.txValid = true) ∧ 80 < inp.txLen.toNat ∧ t = reject (txBegin s)) ∨
      (¬(s.enc.state = .idle ∧ inp.txValid = true) ∧ t.enc.txStat = txNone) := by
  have inj {u v : State} (hu : txSide inp s = .next u) (hv : txSide inp s = .next v) : u = v := by
    simpa [hu] using hv
  cases hs : s.enc.state with
  | idle =>
    have hidle := txSide_idle (inp := inp) hs
    by_cases hvalid : inp.txValid = true
    · rw [if_pos hvalid] at hidle
      by_cases hfits : inp.txLen.toNat ≤ 80
      · exact .inl ⟨⟨rfl, hvalid⟩, hfits,
          inj h (hidle.trans (exec_send_of_le (s := txBegin s) hs (length_txBytes ..) hfits))⟩
      · have hlong : 80 < inp.txLen.toNat := Nat.not_le.mp hfits
        exact .inr (.inl ⟨⟨rfl, hvalid⟩, hlong,
          inj h (hidle.trans (exec_send_of_gt (s := txBegin s) hs _ hlong))⟩)
    · rw [if_neg hvalid] at hidle
      exact .inr (.inr ⟨fun hsend => hvalid hsend.2, by rw [inj h hidle, txBegin_enc]⟩)
  | send =>
    rw [txSide_send hs, symbolStep_eq] at h
    split at h
    · exact .inr (.inr ⟨nofun, serialize_txStat h⟩)
    · simp at h
  | gap =>
    exact .inr (.inr ⟨nofun, by rw [inj h (txSide_gap hs), gapStep_txStat, txBegin_enc]⟩)

/-- The encoder after a step without reset is what the transmit side's step makes of it: no other unit writes it (R61). -/
theorem step_enc {inp : PortInputs} {s t : State} (hr : inp.rst = false) (h : step (s.withInputs [inp]) = .next t) :
    ∃ u v, u.enc = s.enc ∧ txSide inp u = .next v ∧ t.enc = v.enc := by
  rw [step_withInputs] at h
  obtain ⟨v, hv, hvt⟩ := clockStep_cases hr h
  obtain ⟨-, -, henc, -⟩ := rxSide_frame hvt
  exact ⟨(consume (s.withInputs [inp])).setCrcR _, v, rfl, hv, henc⟩

/-- Settles O57: by the three things the transmit side's step can do to the code. -/
theorem txStatusHasItsCause : Obligations.TxStatusHasItsCause := by
  unfold Obligations.TxStatusHasItsCause
  intro s t inp hr h
  obtain ⟨u, v, hu, hv, hvt⟩ := step_enc hr h
  rw [txStatus, hvt, ← hu]
  rcases txSide_cases hv with ⟨hsend, hfits, rfl⟩ | ⟨hsend, hlong, rfl⟩ | ⟨hnone, hcode⟩
  · rw [if_pos hsend, if_pos hfits]
    have hlen := length_txBytes inp u.stepIx
    refine ⟨rfl, fun _ => ⟨rfl, ?_⟩, nofun⟩
    rw [accept_flen (hlen.trans_le hfits), hlen]
  · rw [if_pos hsend, if_neg (Nat.not_le.mpr hlong)]
    exact ⟨rfl, nofun, fun _ => rfl⟩
  · rw [if_neg hnone, hcode]
    exact ⟨rfl, nofun, nofun⟩

end Sys2Proof.Machine
end

section
/-! PROOFS. Reset (70_reset_and_hazards.md): the one step it takes, the registers after it and the outputs they drive. -/

namespace Sys2Proof.Machine

/-- A step with `rst = 1` only consumes its inputs and resets the registers: no unit runs (R164). -/
theorem step_of_rst {s : State} {inp : PortInputs} (hr : inp.rst = true) :
    step (s.withInputs [inp]) = .next (resetRegs (consume (s.withInputs [inp]))) := by
  rw [step_withInputs, clockStep_reset hr]

/-- Settles O52: the registers of the reset state are those of R43, one by one. -/
theorem resetWins : Obligations.ResetWins := by
  unfold Obligations.ResetWins
  intro s inp hr
  refine ⟨_, step_of_rst hr, ?crc, ?cru, ?dec, ?enc, ?par, ?taken⟩
  case crc => exact resetRegs_crcR _
  case cru => exact resetRegs_cru _
  case dec => simp [Dec.reset]
  case enc => simp [Enc.reset]
  case par => exact resetRegs_par _
  case taken => exact resetRegs_taken _

/-- The outputs of a block whose decoder and encoder hold their reset values (R165); no output of the link reads the CRU. -/
theorem outputs_of_reset {t : State} (hdec : t.dec = Dec.reset) (henc : t.enc = Enc.reset) :
    txOut t = false ∧ txReady t = true ∧ txStatus t = 0 ∧ rxValid t = false ∧ rxLen t = 0 ∧ rxStatus t = 0 := by
  simp [txOut, txReady, txStatus, rxValid, rxLen, rxStatus, hdec, henc, Dec.reset, Enc.reset]

/-- Settles O53: a step with `rst = 1` and the reset state leave the decoder and the encoder alike, and these drive the
outputs. -/
theorem outputsAfterReset : Obligations.OutputsAfterReset := by
  unfold Obligations.OutputsAfterReset
  constructor
  · intro s t inp hr ht
    obtain rfl : resetRegs (consume (s.withInputs [inp])) = t := by simpa [step_of_rst hr] using ht
    exact outputs_of_reset (resetRegs_dec _) (resetRegs_enc _)
  · exact outputs_of_reset rfl rfl

end Sys2Proof.Machine
end
